-- ==== Sys2Proof/Word.lean ====
section
/-! DEFINITION. The word types of the core: stream bytes, 32-bit registers and 64-bit codes (R11). -/

namespace Sys2Proof

/-- A stream or symbol byte (R11). -/
abbrev Byte := BitVec 8

/-- A host register or command word (R11). -/
abbrev Word := BitVec 32

/-- A code register pair or a node's assigned code, `CODE_MAX` = 64 bits (R7, R11). -/
abbrev Code := BitVec 64

end Sys2Proof
end

