-- ==== Sys2Proof/Config.lean ====
section
/-! DEFINITION. What one instance of the core fixes (its parameters, R8, R9), the constants of the specification
(R6, R7, R10) and the free values (logs 5, 6). -/

namespace Sys2Proof

/-- The parameters of one instance: `ACC_CAP` (R8, D14) and `LEAF_MAX` (R9, D13). `HUF_BASE` is left out: the model works
in window offsets (R61, D53, log 8). -/
structure Config where
  accCap  : Nat
  leafMax : Nat
  deriving DecidableEq, Repr

/-- The reference values: `ACC_CAP` = 64 (R8) and `LEAF_MAX` = 131,072 (R9). -/
def Config.reference : Config := { accCap := 64, leafMax := 131072 }

/-- `MAX_SYMBOL_LEN` (R6). -/
def maxSymbolLen : Nat := 16

/-- `CODE_MAX` (R7). -/
def codeMax : Nat := 64

/-- `INTERNAL_MARKER`, the serialized byte of an internal node (R10). -/
def internalMarker : Byte := 0xFF#8

/-- FREE VALUE (U1, R27(d), log 5): what the n-th host read of a result register made while BUSY = 1 returns. -/
opaque Config.freeRead : Nat → Word

/-- FREE VALUE (U3, R206, log 6): the code a failed `ASSIGN` (the n-th draw) leaves in node k. -/
opaque Config.freeCode : Nat → Nat → Code

/-- FREE VALUE (U3, R206, log 6): the code length a failed `ASSIGN` (the n-th draw) leaves in node k; R35 bounds it by 64. -/
opaque Config.freeLen : Nat → Nat → Fin 65

end Sys2Proof
end

