-- ==== Sys2Proof/Syntax.lean ====
section
/-! DEFINITION. The command set HUF1: one constructor per row of the opcode map (R81). A command word has no operand
field (R80, R82), so no constructor has an argument. -/

namespace Sys2Proof

/-- The twelve commands of R81, in the table's order. -/
inductive Instr where
  | nop
  | clear
  | leafPush
  | build
  | leafRead
  | assign
  | serialize
  | deserialize
  | push
  | pushLeaf
  | flush
  | decode
  deriving DecidableEq, Repr

end Sys2Proof
end

