-- ==== Sys2Proof/WellFormed.lean ====
section
/-! DEFINITION. Well-formedness: of a command (nothing to check, R80: it has no operand field) and of the parameters of
an instance (R8, R9). -/

namespace Sys2Proof

/-- Every command is well formed: "The command word has no immediate, register or mode field" (R80). -/
def Instr.wf : Instr → Bool
  | .nop | .clear | .leafPush | .build | .leafRead | .assign
  | .serialize | .deserialize | .push | .pushLeaf | .flush | .decode => true

/-- The bounds on the parameters: `ACC_CAP` ≥ 64 (R8) and 100,001 ≤ `LEAF_MAX` ≤ 2^32 − 1 (R9). -/
def Config.wf (c : Config) : Bool :=
  decide (64 ≤ c.accCap) && decide (100001 ≤ c.leafMax) && decide (c.leafMax ≤ 2 ^ 32 - 1)

end Sys2Proof
end

