-- ==== Sys2Proof/Decode.lean ====
section
/-! DEFINITION. The command word's decoder (R80, R81, R83), total on every 32-bit word and rejecting by name, and the
encoder written from the same opcode map. -/

namespace Sys2Proof

/-- Why a word is ILLEGAL (R80, R83). Either reason raises `IllegalCommand` when the word is accepted. -/
inductive DecodeError where
  /-- `RSV` = w[31:8] is not 0. -/
  | reservedNonzero
  /-- `OP` = w[7:0] is no opcode of R81. -/
  | undefinedOpcode
  deriving DecidableEq, Repr

/-- The field `OP`, bits [7:0] (R80). -/
def opField (w : Word) : BitVec 8 := w.extractLsb' 0 8

/-- The field `RSV`, bits [31:8] (R80). -/
def rsvField (w : Word) : BitVec 24 := w.extractLsb' 8 24

/-- The opcode map read from opcode to command (R81); every other opcode is undefined (R83). -/
def instrOfOpcode (op : BitVec 8) : Option Instr :=
  match op.toNat with
  | 0x00 => some .nop
  | 0x01 => some .clear
  | 0x10 => some .leafPush
  | 0x11 => some .build
  | 0x12 => some .leafRead
  | 0x20 => some .assign
  | 0x30 => some .serialize
  | 0x31 => some .deserialize
  | 0x40 => some .push
  | 0x41 => some .pushLeaf
  | 0x42 => some .flush
  | 0x50 => some .decode
  | _ => none

/-- `decode(w)` of R80. -/
def decode (w : Word) : Except DecodeError Instr :=
  if rsvField w ≠ 0 then .error .reservedNonzero
  else match instrOfOpcode (opField w) with
    | some i => .ok i
    | none => .error .undefinedOpcode

/-- The opcode map read from command to opcode (R81). -/
def opcodeOf : Instr → BitVec 8
  | .nop => 0x00#8
  | .clear => 0x01#8
  | .leafPush => 0x10#8
  | .build => 0x11#8
  | .leafRead => 0x12#8
  | .assign => 0x20#8
  | .serialize => 0x30#8
  | .deserialize => 0x31#8
  | .push => 0x40#8
  | .pushLeaf => 0x41#8
  | .flush => 0x42#8
  | .decode => 0x50#8

/-- The command word of a command: its opcode below 24 reserved zero bits (R80). -/
def encode (i : Instr) : Word := (0#24 ++ opcodeOf i : BitVec (24 + 8))

/-- The command the decoder reads from an instruction of `nbits` bits numbered as the opcode table numbers them. A command
is exactly one 32-bit word (R90), so a longer instruction or a number that does not fit is no command. -/
def decodeTableWord (nbits w : Nat) : Option Instr :=
  if nbits ≤ 32 ∧ w < 2 ^ 32 then (decode (BitVec.ofNat 32 w)).toOption else none

end Sys2Proof
end

