-- ==== Sys2Proof/Machine/State.lean ====
section
/-! DEFINITION. The state of the core (10_state.md), of its two byte streams (20_memory.md R67, R68) and of the
environment's moves still to come, as plain data; the reasons a step can stop; and the state after reset (R230). -/

namespace Sys2Proof.Machine

/-- The kind of a node record (R35). -/
inductive Kind where
  | leaf
  | internal
  deriving DecidableEq, Repr

/-- A node record (R35). `symlen` is the length of `sym`; bytes at index `symlen` and above read 0 (log 17). The children of an
internal node are unset between its allocation and the end of its right subtree in `DESERIALIZE` (log 17). -/
structure Node where
  kind  : Kind
  sym   : List Byte
  count : Nat
  left  : Option Nat
  right : Option Nat
  seq   : Nat
  code  : Code
  clen  : Nat
  deriving DecidableEq, Repr

/-- The operand registers (R27): `ARG`, `SYMLEN`, `COUNT`, `SYM0` to `SYM3`, `CODE_LO`, `CODE_HI`, `CODELEN`, at the widths
of their defined bits (R21). -/
structure Operands where
  arg     : Word
  symlen  : BitVec 8
  count   : Word
  sym0    : Word
  sym1    : Word
  sym2    : Word
  sym3    : Word
  codeLo  : Word
  codeHi  : Word
  codelen : BitVec 8
  deriving DecidableEq, Repr

/-- Every operand register 0, its reset value (R21). -/
def Operands.zero : Operands :=
  { arg := 0, symlen := 0, count := 0, sym0 := 0, sym1 := 0, sym2 := 0, sym3 := 0, codeLo := 0, codeHi := 0, codelen := 0 }

/-- An internal node that `DESERIALIZE` has opened (R141, `des()`): its left subtree is being read, or its left subtree is the
node `a` and its right subtree is being read. -/
inductive Frame where
  | left (k : Nat)
  | right (k a : Nat)
  deriving DecidableEq, Repr

/-- The byte `DESERIALIZE` expects next (R141): a marker byte, or one of the `rem` symbol bytes leaf `k` still lacks. -/
inductive Want where
  | marker
  | symbol (k rem : Nat)
  deriving DecidableEq, Repr

/-- The engine's progress through the running command: "internal and not architectural" (R43), held because a command waits on
`IN` and `OUT` (R67, R68, R201). `BUSY` is 1 exactly when this is not `idle` (log 2). -/
inductive Progress where
  /-- No command runs: `BUSY` = 0. -/
  | idle
  /-- A word has been accepted and its execution (R102) has not begun. -/
  | start
  /-- `SERIALIZE` still has these bytes to offer to `OUT` (R140). -/
  | emit (rest : List Byte)
  /-- `PUSH` or `PUSH_LEAF` is in the emission loop of `append` (R160). -/
  | pack
  /-- `FLUSH` waits for `OUT` to accept its byte (R162). -/
  | flush
  /-- `DESERIALIZE` has these nodes open, innermost first, and expects this byte (R141). -/
  | deser (frames : List Frame) (want : Want)
  /-- `DECODE` stands at node `n` and still has these symbol bytes to offer to `OUT` (R180). -/
  | decode (n : Nat) (outs : List Byte)
  deriving DecidableEq, Repr

/-- The input port `IN` and its source (R67): the bytes taken since the source was connected or last rewound, the bytes available
and not yet taken, and whether the source has signalled its end. That a rewind restarts what counts as consumed (R248) is the model's
choice (log 27). -/
structure InPort where
  taken : List Byte
  avail : List Byte
  ended : Bool
  deriving DecidableEq, Repr

/-- The output port `OUT` and its sink (R68): every byte accepted since the sink was connected, oldest first, and how many
more bytes the sink accepts before it makes the core wait (`none`: it never does). -/
structure OutPort where
  bytes : List Byte
  room  : Option Nat
  deriving DecidableEq, Repr

/-- One move of the environment: of the host (R64, R69, R230, R244), of the streams' endpoints (R67, R68), or of time. -/
inductive Event where
  /-- `MemWrite(off, width, data)` (R64). -/
  | write (off width : Nat) (data : Word)
  /-- `MemRead(off, width)` (R64). -/
  | read (off width : Nat)
  /-- `wait` (R89): the host reads `STATUS` again and again until `BUSY` reads 0, and goes on only then (log 20). -/
  | poll
  /-- The source makes these bytes available (R67). -/
  | deliver (bytes : List Byte)
  /-- The source signals its end (R67). -/
  | endInput
  /-- `rewind()` of the source (R69). -/
  | rewind
  /-- A new source is connected to `IN` (R233, R244). -/
  | connectIn
  /-- A new sink is connected to `OUT` (R233, R244). -/
  | connectOut
  /-- The sink accepts so many bytes from now on before it makes the core wait; `none`: every byte (R68). -/
  | sinkRoom (n : Option Nat)
  /-- The engine is given no time (`true`) or is given time (`false`): a command takes "some finite time" (R247, log 3). -/
  | stall (on : Bool)
  /-- Reset (R230). -/
  | reset
  deriving DecidableEq, Repr

/-- Why the machine stops. Each fault is raised only in a state whose node store, queue or accumulator breaks an invariant of
10_state.md (R35, R37, R40, R42). No run reaches such a state, and stopping there is SAFE (log 15). -/
inductive Fault where
  /-- Raised by `ASSIGN`, `SERIALIZE` and `DECODE`: `TREE` = 1 and `ROOT` is none, against R39. Safe. -/
  | noRoot
  /-- Raised by `LEAF_READ`, `ASSIGN`, `SERIALIZE`, `DESERIALIZE`, `PUSH_LEAF` and `DECODE`: a node index names no allocated
  record, an internal node lacks a child, or the tree is not finite, against R35 and R42. Safe. -/
  | brokenTree
  /-- Raised by `BUILD`: `extractMin` on an empty queue, against R37. Safe. -/
  | emptyQueue
  /-- Raised by `FLUSH`: `PEND` > 7 while no command runs, against R40. Safe. -/
  | overfullAccumulator
  deriving DecidableEq, Repr

/-- Why the model gives a move no meaning. -/
inductive Refusal where
  /-- An instruction that has no meaning yet; raised by `exec` only. Safe. -/
  | notModelled (mnemonic : String)
  /-- A host access that is not 32 bits wide at a 4-byte-aligned offset below 0x100: "A model refuses it" (R64, D3, U2). Raised
  by the step. Safe. -/
  | accessOutsideInterface
  /-- A change of the source or sink while a command runs, or a rewind of the source while a command reads it: behaviour
  "assumed never to happen" (93 section 3). Raised by the step. Safe (log 11). -/
  | streamChangeWhileBusy
  /-- Bytes delivered after the end-marker: the source delivers a finite sequence "and then the end-marker" (R67, N10). Raised by
  the step. Safe (log 11). -/
  | deliveryAfterEnd
  deriving DecidableEq, Repr

/-- The state of the core, its streams and its environment. -/
structure State where
  /-- The instance's parameters (R8, R9); no step writes them. -/
  cfg : Config
  /-- The operand registers (R27). -/
  regs : Operands
  /-- `STATUS.ERR` (R22). -/
  err : Bool
  /-- `STATUS.ERRCODE` (R22). -/
  errcode : BitVec 4
  /-- `STATUS.TREE` (R22). -/
  tree : Bool
  /-- `STATUS.CODES` (R22). -/
  codes : Bool
  /-- `STATUS.EOS` (R22). -/
  eos : Bool
  /-- `STATUS.DROP` (R22). -/
  drop : Bool
  /-- `CUR`, the running command's word (R26, R34). -/
  cur : Word
  /-- The running command's progress; `BUSY` = 1 when it is not `idle` (R22, R43, log 2). -/
  prog : Progress
  /-- The allocated records of the node store in allocation order; `NNODE` is its length (R35). -/
  nodes : List Node
  /-- `NINT` (R39). -/
  nint : Nat
  /-- `NEXTSEQ` (R36). -/
  nextSeq : Nat
  /-- `Q`, in insertion order (R37). -/
  q : List Nat
  /-- `LEAVES`, in leaf-index order (R38). -/
  leaves : List Nat
  /-- `ROOT` (R39). -/
  root : Option Nat
  /-- `ACC` (R40). -/
  acc : Nat
  /-- `PEND` (R40). -/
  pend : Nat
  /-- `UBYTE` (R41). -/
  ubyte : Byte
  /-- `UBITS` (R41). -/
  ubits : Nat
  /-- The input port and its source (R67). -/
  inp : InPort
  /-- The output port and its sink (R68). -/
  out : OutPort
  /-- MODEL FIELD: the engine is given no time (log 3). -/
  stalled : Bool
  /-- MODEL FIELD: the environment's moves still to come, in their total order (R70, log 1). -/
  events : List Event
  /-- MODEL FIELD: the values the host's reads have returned, oldest first (log 23). -/
  reads : List Word
  /-- MODEL FIELD: how many free values have been drawn (log 23). -/
  draws : Nat
  deriving DecidableEq, Repr

/-- The state after reset of an instance with these parameters (R21, R22, R34, R230). The streams and the environment's fields
are not the core's: their values here are the model's choice (logs 9, 23). -/
def State.resetWith (c : Config) : State :=
  { cfg := c
    regs := Operands.zero
    err := false, errcode := 0, tree := false, codes := false, eos := false, drop := false
    cur := 0, prog := .idle
    nodes := [], nint := 0, nextSeq := 0, q := [], leaves := [], root := none
    acc := 0, pend := 0, ubyte := 0, ubits := 0
    inp := { taken := [], avail := [], ended := false }
    out := { bytes := [], room := none }
    stalled := false, events := [], reads := [], draws := 0 }

/-- The machine right after reset, at the reference parameters (R8, R9, R230). -/
def State.reset : State := State.resetWith Config.reference

end Sys2Proof.Machine
end

