-- ==== Sys2Proof/Machine/Ops.lean ====
section
/-! DEFINITION. The shared operations over the node store, the queue and the streams; the end of a command (R201); raising an
error, the core's one way of taking an exception (R205), and the recovery from it (R100, R207). -/

namespace Sys2Proof.Machine

/-- The result of one command or one step. -/
abbrev Result := Host.Outcome State Fault Refusal

/-- `STATUS.BUSY` (R22): 1 while an accepted command executes (log 2). -/
def State.busy (s : State) : Bool :=
  match s.prog with
  | .idle => false
  | _ => true

/-! ### The node store (R35) -/

/-- A freshly allocated record (R35): no symbol, count, sequence number or code yet; the children are unset (log 17). -/
def Node.blank (kind : Kind) : Node :=
  { kind := kind, sym := [], count := 0, left := none, right := none, seq := 0, code := 0, clen := 0 }

/-- `symlen` of a record (R35). -/
def Node.symlen (nd : Node) : Nat := nd.sym.length

/-- `sym[i]` of a record: 0 at index `symlen` and above (R35). -/
def Node.symAt (nd : Node) (i : Nat) : Byte := nd.sym.getD i 0

/-- `node[k]` for a register view or a queue key; an unallocated record reads blank (log 16). -/
def nodeAt (nodes : List Node) (k : Nat) : Node := nodes.getD k (Node.blank .leaf)

/-- `alloc(kind)` (R35): the new record's index is `NNODE`. Returns the state after it; the index is `s.nodes.length`. -/
def alloc (kind : Kind) (s : State) : State := { s with nodes := s.nodes ++ [Node.blank kind] }

/-- Rewrite the fields of record `k`. -/
def setNode (k : Nat) (f : Node → Node) (s : State) : State := { s with nodes := s.nodes.modify k f }

/-! ### The priority queue (R36, R37) -/

/-- `key(k)` (R37): the pair (count, seq). -/
def key (nodes : List Node) (k : Nat) : Nat × Nat := ((nodeAt nodes k).count, (nodeAt nodes k).seq)

/-- The order of keys (R37): "a lower count first, and an earlier insertion first among equal counts". -/
def keyLt (a b : Nat × Nat) : Bool := decide (a.1 < b.1) || (decide (a.1 = b.1) && decide (a.2 < b.2))

/-- The index with the least key among `m` and the list. -/
def leastOf (nodes : List Node) (m : Nat) : List Nat → Nat
  | [] => m
  | k :: ks => leastOf nodes (if keyLt (key nodes k) (key nodes m) then k else m) ks

/-- `Q.insert(k)` (R36): record `k` gets the next sequence number and joins the queue. -/
def insertQ (k : Nat) (s : State) : State :=
  { s with
    nodes := s.nodes.modify k (fun nd => { nd with seq := s.nextSeq })
    nextSeq := s.nextSeq + 1
    q := s.q ++ [k] }

/-- `Q.extractMin()` (R37): the index with the least key, and the state without it; none on an empty queue. -/
def extractMin (s : State) : Option (Nat × State) :=
  match s.q with
  | [] => none
  | k :: ks =>
    let m := leastOf s.nodes k ks
    some (m, { s with q := s.q.erase m })

/-! ### The streams (R67, R68) -/

/-- What `InRead()` gives (R14, R67): a byte and the state after taking it, the end-marker, or a wait. -/
inductive InResult where
  | byte (b : Byte) (s : State)
  | eoi
  | wait

/-- `InRead()` (R67). -/
def inRead (s : State) : InResult :=
  match s.inp.avail with
  | b :: bs => .byte b { s with inp := { s.inp with taken := s.inp.taken ++ [b], avail := bs } }
  | [] => if s.inp.ended then .eoi else .wait

/-- `OutWrite(b)` (R68): the state after the sink accepted `b`, or none while the sink makes the core wait. -/
def outWrite (b : Byte) (s : State) : Option State :=
  match s.out.room with
  | none => some { s with out := { s.out with bytes := s.out.bytes ++ [b] } }
  | some 0 => none
  | some (n + 1) => some { s with out := { bytes := s.out.bytes ++ [b], room := some n } }

/-- `OutWrite` of each byte in order (R70) until all are accepted or the sink makes the core wait: the state, and the bytes
still to offer. -/
def offer : List Byte → State → State × List Byte
  | [], s => (s, [])
  | b :: bs, s =>
    match outWrite b s with
    | some s1 => offer bs s1
    | none => (s, b :: bs)

/-! ### The end of a command (R201, R205) and recovery (R100, R207) -/

/-- `return` (R14, R201): the command completes and `BUSY` falls. -/
def finish (s : State) : State := { s with prog := .idle }

/-- Every error of R202. -/
inductive Err where
  | insufficientAlphabet
  | codeOverflow
  | truncatedTree
  | symbolTooLarge
  | unexpectedEndOfInput
  | illegalCommand
  | sequenceError
  | capacityExceeded
  | indexOutOfRange
  deriving DecidableEq, Repr

/-- `code(E)` (R202). -/
def Err.code : Err → BitVec 4
  | .insufficientAlphabet => 1#4
  | .codeOverflow => 2#4
  | .truncatedTree => 3#4
  | .symbolTooLarge => 4#4
  | .unexpectedEndOfInput => 5#4
  | .illegalCommand => 8#4
  | .sequenceError => 9#4
  | .capacityExceeded => 10#4
  | .indexOutOfRange => 11#4

/-- `raise E` (R205), after the command's own error state (R206) has been applied: `ERR`, `ERRCODE`, and `BUSY` falls. "The core
saves nothing else." -/
def raise (e : Err) (s : State) : State := { s with err := true, errcode := e.code, prog := .idle }

/-- The recovery of R207, which is the whole effect of `CLEAR` before it returns (R100): all operation state takes its reset
value; the operand registers and the streams stay. -/
def clearOperation (s : State) : State :=
  { s with
    nodes := [], nint := 0, q := [], leaves := [], root := none, nextSeq := 0
    acc := 0, pend := 0, ubyte := 0, ubits := 0
    tree := false, codes := false, eos := false, drop := false, err := false, errcode := 0 }

/-- Reset (R230): every core element takes its reset value; a running command is abandoned; the parameters, the streams and
the environment's own fields stay. -/
def coreReset (s : State) : State :=
  { State.resetWith s.cfg with
    inp := s.inp, out := s.out, stalled := s.stalled, events := s.events, reads := s.reads, draws := s.draws }

end Sys2Proof.Machine
end

