-- ==== Sys2Proof/Machine/Operands.lean ====
section
/-! DEFINITION. The one operand form (R82): the operand registers, assembled by the functions of R28; and the writing of a
symbol and a code back into them (R113). -/

namespace Sys2Proof.Machine

/-- `SYM(j)` (R28). -/
def Operands.symReg (r : Operands) (j : Nat) : Word :=
  match j with
  | 0 => r.sym0
  | 1 => r.sym1
  | 2 => r.sym2
  | _ => r.sym3

/-- `symbyte(i)` (R28, R62): bits [8*(i&3)+7 : 8*(i&3)] of `SYM(i>>2)`. -/
def Operands.symbyte (r : Operands) (i : Nat) : Byte := (r.symReg (i / 4)).extractLsb' (8 * (i % 4)) 8

/-- `symlen_op` (R28). -/
def Operands.symlenOp (r : Operands) : Nat := r.symlen.toNat

/-- `count_op` (R28). -/
def Operands.countOp (r : Operands) : Nat := r.count.toNat

/-- `code_op` (R28): `CODE_HI` above `CODE_LO`. -/
def Operands.codeOp (r : Operands) : Code := (r.codeHi ++ r.codeLo : BitVec (32 + 32))

/-- `codelen_op` (R28). -/
def Operands.codelenOp (r : Operands) : Nat := r.codelen.toNat

/-- `arg_op` (R28). -/
def Operands.argOp (r : Operands) : Nat := r.arg.toNat

/-- The first `n` symbol bytes of the operand registers: the symbol `LEAF_PUSH` stores (R110). -/
def Operands.symbol (r : Operands) (n : Nat) : List Byte := (List.range n).map r.symbyte

/-- The word `LEAF_READ` writes to `SYM(j)`: symbol bytes 4j+3 down to 4j (R113). -/
def Node.symWord (nd : Node) (j : Nat) : Word :=
  (nd.symAt (4 * j + 3) ++ nd.symAt (4 * j + 2) ++ nd.symAt (4 * j + 1) ++ nd.symAt (4 * j) : BitVec (8 + 8 + 8 + 8))

/-- The operand registers after `LEAF_READ` of the record `nd` (R113); `ARG` is unchanged. -/
def Operands.ofNode (r : Operands) (nd : Node) (codes : Bool) : Operands :=
  { arg := r.arg
    symlen := BitVec.ofNat 8 nd.symlen
    count := BitVec.ofNat 32 nd.count
    sym0 := nd.symWord 0
    sym1 := nd.symWord 1
    sym2 := nd.symWord 2
    sym3 := nd.symWord 3
    codeLo := if codes then nd.code.extractLsb' 0 32 else 0
    codeHi := if codes then nd.code.extractLsb' 32 32 else 0
    codelen := if codes then BitVec.ofNat 8 nd.clen else 0 }

end Sys2Proof.Machine
end

