-- ==== Sys2Proof/Machine/Flags.lean ====
section
/-! DEFINITION. The register window's values: `STATUS` (R22), the information registers (R23 to R25, R29 to R32), every register
as a host read sees it (R21), and what a host write stores (R27). -/

namespace Sys2Proof.Machine

/-- A flag as a number at bit position `i`. -/
def flagAt (b : Bool) (i : Nat) : Nat := b.toNat * 2 ^ i

/-- `STATUS` (R22). `PEND` takes bits [22:16] and `UBITS` bits [27:24]. -/
def State.statusWord (s : State) : Word :=
  BitVec.ofNat 32
    (flagAt s.busy 0 + flagAt s.err 1 + flagAt s.tree 2 + flagAt s.codes 3 + flagAt s.eos 4 + flagAt s.drop 5
      + s.errcode.toNat * 2 ^ 8 + (s.pend % 2 ^ 7) * 2 ^ 16 + (s.ubits % 2 ^ 4) * 2 ^ 24)

/-- `ID` (R23). -/
def idWord : Word := 0x48554631#32

/-- `CAP` (R24): `MAX_SYMBOL_LEN`, `CODE_MAX` and min(`ACC_CAP`, 255). -/
def capWord (c : Config) : Word :=
  BitVec.ofNat 32 (maxSymbolLen + codeMax * 2 ^ 8 + min c.accCap 255 * 2 ^ 16)

/-- `LEAFMAX` (R25). -/
def leafMaxWord (c : Config) : Word := BitVec.ofNat 32 c.leafMax

/-- `NLEAF`: the number of leaves (R29). -/
def State.nleaf (s : State) : Nat := s.leaves.length

/-- `QLEN`: the number of nodes in the queue (R30). -/
def State.qlen (s : State) : Nat := s.q.length

/-- `{TOTAL_HI, TOTAL_LO}`: the count of `ROOT` when `TREE` = 1, else 0 (R31). -/
def State.total (s : State) : Nat :=
  if s.tree then
    match s.root with
    | some r => (nodeAt s.nodes r).count
    | none => 0
  else 0

/-- `MAXLEN`: the greatest code length over all leaves when `CODES` = 1, else 0 (R32). -/
def State.maxLen (s : State) : Nat :=
  if s.codes then (s.leaves.map fun k => (nodeAt s.nodes k).clen).foldl max 0 else 0

/-- The value of the register at a window offset (R21, R64): 0 for `CMD` and for a reserved offset. -/
def State.regValue (s : State) (off : Nat) : Word :=
  match off with
  | 0x00 => idWord
  | 0x04 => capWord s.cfg
  | 0x08 => leafMaxWord s.cfg
  | 0x0C => s.statusWord
  | 0x10 => 0
  | 0x14 => s.regs.arg
  | 0x18 => s.regs.symlen.setWidth 32
  | 0x1C => s.regs.count
  | 0x20 => s.regs.sym0
  | 0x24 => s.regs.sym1
  | 0x28 => s.regs.sym2
  | 0x2C => s.regs.sym3
  | 0x30 => s.regs.codeLo
  | 0x34 => s.regs.codeHi
  | 0x38 => s.regs.codelen.setWidth 32
  | 0x3C => BitVec.ofNat 32 s.nleaf
  | 0x40 => BitVec.ofNat 32 s.qlen
  | 0x44 => (BitVec.ofNat 64 s.total).extractLsb' 0 32
  | 0x48 => (BitVec.ofNat 64 s.total).extractLsb' 32 32
  | 0x4C => (BitVec.ofNat 8 s.maxLen).setWidth 32
  | _ => 0

/-- What a host write of `w` at an offset other than `CMD`'s stores (R21, R27(a)): an operand register's defined bits; nothing for
a read-only or reserved offset. -/
def Operands.store (r : Operands) (off : Nat) (w : Word) : Operands :=
  match off with
  | 0x14 => { r with arg := w }
  | 0x18 => { r with symlen := w.setWidth 8 }
  | 0x1C => { r with count := w }
  | 0x20 => { r with sym0 := w }
  | 0x24 => { r with sym1 := w }
  | 0x28 => { r with sym2 := w }
  | 0x2C => { r with sym3 := w }
  | 0x30 => { r with codeLo := w }
  | 0x34 => { r with codeHi := w }
  | 0x38 => { r with codelen := w.setWidth 8 }
  | _ => r

/-- The result registers a command writes (R29 to R32 and each command's "Writes"), by offset. `STATUS` is none of them (log 4). -/
def resultRegs : Instr → List Nat
  | .nop => []
  | .clear => [0x3C, 0x40, 0x44, 0x48, 0x4C]
  | .leafPush => [0x3C, 0x40]
  | .build => [0x40, 0x44, 0x48]
  | .leafRead => [0x18, 0x1C, 0x20, 0x24, 0x28, 0x2C, 0x30, 0x34, 0x38]
  | .assign => [0x4C]
  | .serialize => []
  | .deserialize => [0x3C, 0x40, 0x44, 0x48, 0x4C]
  | .push => []
  | .pushLeaf => []
  | .flush => []
  | .decode => []

/-- The running command writes the register at this offset, so a read of it made now "returns any value" (R27(d)). -/
def State.unsettled (s : State) (off : Nat) : Bool :=
  s.busy &&
    match decode s.cur with
    | .ok i => (resultRegs i).contains off
    | .error _ => false

/-- `MemRead` (R64): the value, and the state after it. A read has no side effect on the core (R65); only the model's counter of
free values moves, when the value is free (R27(d), log 5). -/
def State.memRead (s : State) (off : Nat) : Word × State :=
  if s.unsettled off then (Config.freeRead s.draws, { s with draws := s.draws + 1 }) else (s.regValue off, s)

end Sys2Proof.Machine
end

