-- ==== Sys2Proof/Machine/BitPacker.lean ====
section
/-! DEFINITION. The bit packer: `PUSH` (R160), `PUSH_LEAF` (R161) and `FLUSH` (R162). -/

namespace Sys2Proof.Machine

/-- `ACC[PEND-1 : PEND-8]` (R160): the 8 oldest pending bits, the oldest as bit 7. -/
def oldestByte (s : State) : Byte := BitVec.ofNat 8 (s.acc >>> (s.pend - 8))

/-- `while PEND >= 8` of `append` (R160): emit complete bytes, or wait for the sink. Every turn takes 8 bits, so `PEND` turns are
enough. -/
def packLoop : Nat → State → State
  | 0, s => finish s
  | fuel + 1, s =>
    if 8 ≤ s.pend then
      match outWrite (oldestByte s) s with
      | none => { s with prog := .pack }
      | some s1 => packLoop fuel { s1 with pend := s.pend - 8, acc := s.acc % 2 ^ (s.pend - 8) }
    else finish s

/-- Run the emission loop (R160). -/
def packRun (s : State) : Result := .next (packLoop s.pend s)

/-- The accumulator after `len` bits of `c` joined it (R160): bits of `c` at `len` and above are ignored, and the oldest bit stays
most significant. -/
def appendBits (c : Code) (len : Nat) (s : State) : State :=
  { s with acc := (s.acc <<< len) ||| (c.toNat % 2 ^ len), pend := s.pend + len }

/-- `append(c, len)` (R160), shared with `PUSH_LEAF`; its check comes before any change. -/
def append (c : Code) (len : Nat) (s : State) : Result :=
  if s.cfg.accCap < s.pend + len then .next (raise .codeOverflow s) else packRun (appendBits c len s)

/-- `PUSH` (R160). -/
def execPush (s : State) : Result :=
  if codeMax < s.regs.codelenOp then .next (raise .codeOverflow s) else append s.regs.codeOp s.regs.codelenOp s

/-- `PUSH_LEAF` (R161). -/
def execPushLeaf (s : State) : Result :=
  if !s.codes then .next (raise .sequenceError s)
  else
    match s.leaves[s.regs.argOp]? with
    | none => .next (raise .indexOutOfRange s)
    | some k =>
      match s.nodes[k]? with
      | none => .fault .brokenTree
      | some nd => append nd.code nd.clen s

/-- `(ACC << (8 - PEND))[7:0]` (R162): the pending bits, zeros below. -/
def paddedByte (s : State) : Byte := BitVec.ofNat 8 (s.acc <<< (8 - s.pend))

/-- The body of `FLUSH` (R162), also its continuation after a wait: emit the padded byte if bits are pending, then reset the
accumulator. -/
def flushRun (s : State) : Result :=
  if 7 < s.pend then .fault .overfullAccumulator
  else if 0 < s.pend then
    match outWrite (paddedByte s) s with
    | none => .next { s with prog := .flush }
    | some s1 => .next (finish { s1 with acc := 0, pend := 0 })
  else .next (finish { s with acc := 0, pend := 0 })

/-- `FLUSH` (R162). -/
def execFlush (s : State) : Result := flushRun s

end Sys2Proof.Machine
end

