-- ==== Sys2Proof/Machine/BitUnpacker.lean ====
section
/-! DEFINITION. The bit unpacker and tree-walking decoder: `DECODE` (R180). -/

namespace Sys2Proof.Machine

/-- The refill of R180: `InRead()` "only when the current byte is exhausted". -/
def refill (s : State) : InResult :=
  if s.ubits = 0 then
    match inRead s with
    | .byte b s1 => .byte b { s1 with ubyte := b, ubits := 8 }
    | .eoi => .eoi
    | .wait => .wait
  else .byte s.ubyte s

/-- The next bit (R41, R180): `UBYTE[UBITS-1]`, "MSB-first within each byte". -/
def nextBit (s : State) : Bool := s.ubyte.getLsbD (s.ubits - 1)

/-- The child of record `n` on the side of the bit: left on 0, right on 1 (R180). -/
def childOf (nodes : List Node) (n : Nat) (bit : Bool) : Option Nat :=
  match nodes[n]? with
  | none => none
  | some nd => if bit then nd.right else nd.left

/-- The loop of `DECODE` (R180) from the walk pointer `n`; each turn consumes one bit (R181). A turn the bound does not allow
leaves the command running (log 25). -/
def decodeLoop : Nat → Nat → State → Result
  | 0, n, s => .next { s with prog := .decode n [] }
  | fuel + 1, n, s =>
    match refill s with
    | .wait => .next { s with prog := .decode n [] }
    | .eoi => .next (raise .unexpectedEndOfInput { s with ubits := 0, eos := false })
    | .byte _ s1 =>
      let s2 := { s1 with ubits := s1.ubits - 1 }
      match childOf s.nodes n (nextBit s1) with
      | none => .fault .brokenTree
      | some m =>
        match s.nodes[m]? with
        | none => .fault .brokenTree
        | some nd =>
          match nd.kind with
          | .internal => decodeLoop fuel m s2
          | .leaf =>
            if nd.symlen = 0 then .next (finish { s2 with ubits := 0, eos := true })
            else
              match s.root with
              | none => .fault .noRoot
              | some r =>
                match offer nd.sym s2 with
                | (s3, []) => decodeLoop fuel r s3
                | (s3, rest) => .next { s3 with prog := .decode r rest }

/-- Run the decoder over every bit available now: at most 8 for each available byte and the unread ones (R181). -/
def decodeRun (n : Nat) (s : State) : Result :=
  decodeLoop (8 * s.inp.avail.length + s.ubits + 1) n s

/-- `DECODE` going on after a wait: first the symbol bytes still to offer, then the loop. -/
def decodeResume (n : Nat) (outs : List Byte) (s : State) : Result :=
  match offer outs s with
  | (s1, []) => decodeRun n s1
  | (s1, rest) => .next { s1 with prog := .decode n rest }

/-- `DECODE` (R180). -/
def execDecode (s : State) : Result :=
  if !s.tree then .next (raise .sequenceError s)
  else
    match s.root with
    | none => .fault .noRoot
    | some r => decodeRun r { s with eos := false }

end Sys2Proof.Machine
end

