-- ==== Sys2Proof/Machine/CodeAssigner.lean ====
section
/-! DEFINITION. The code assigner: `ASSIGN` (R130). -/

namespace Sys2Proof.Machine

/-- How the traversal of `ASSIGN` ends (R130): the node records with their codes, a node deeper than `CODE_MAX`, or a node store
that is no tree (log 15). -/
inductive Visit where
  | done (nodes : List Node)
  | overflow
  | broken

/-- `visit(k, c, l)` (R130), pre-order. The first argument is how many levels the code width still allows, `CODE_MAX` + 1 − `l`,
so that it is 0 exactly when `l` > `CODE_MAX`. -/
def visit : Nat → List Node → Nat → Code → Nat → Visit
  | 0, _, _, _, _ => .overflow
  | levels + 1, nodes, k, c, l =>
    match nodes[k]? with
    | none => .broken
    | some nd =>
      let nodes1 := nodes.modify k fun nd => { nd with code := c, clen := l }
      match nd.kind with
      | .leaf => .done nodes1
      | .internal =>
        match nd.left, nd.right with
        | some a, some b =>
          match visit levels nodes1 a (c <<< 1) (l + 1) with
          | .done nodes2 => visit levels nodes2 b (c <<< 1 ||| 1) (l + 1)
          | stop => stop
        | _, _ => .broken

/-- The codes a failed `ASSIGN` leaves are "any value (unobservable until CLEAR)" (R206, U3): free values (log 6). -/
def freeCodes (draw : Nat) (nodes : List Node) : List Node :=
  nodes.mapIdx fun k nd => { nd with code := Config.freeCode draw k, clen := (Config.freeLen draw k).val }

/-- `ASSIGN` (R130). -/
def execAssign (s : State) : Result :=
  if !s.tree then .next (raise .sequenceError s)
  else
    match s.root with
    | none => .fault .noRoot
    | some r =>
      match visit (codeMax + 1) s.nodes r 0 0 with
      | .done nodes => .next (finish { s with nodes := nodes, codes := true })
      | .overflow =>
        .next (raise .codeOverflow
          { s with nodes := freeCodes s.draws s.nodes, codes := false, draws := s.draws + 1 })
      | .broken => .fault .brokenTree

end Sys2Proof.Machine
end

