-- ==== Sys2Proof/Machine/Control.lean ====
section
/-! DEFINITION. The control commands: `CLEAR` (R100) and `NOP` (R101). -/

namespace Sys2Proof.Machine

/-- `NOP` (R101): `return`. -/
def execNop (s : State) : Result := .next (finish s)

/-- `CLEAR` (R100): start a new operation. -/
def execClear (s : State) : Result := .next (finish (clearOperation s))

end Sys2Proof.Machine
end

