-- ==== Sys2Proof/Machine/TreeBuilder.lean ====
section
/-! DEFINITION. The tree builder: `LEAF_PUSH` (R110), `BUILD` (R111) and `LEAF_READ` (R113). -/

namespace Sys2Proof.Machine

/-- The effect of a `LEAF_PUSH` that passes its checks (R110): allocate a leaf with the operands' symbol and count, append it to
`LEAVES`, insert it into `Q`. -/
def addLeaf (s : State) : State :=
  let k := s.nodes.length
  let leaf := { Node.blank .leaf with sym := s.regs.symbol s.regs.symlenOp, count := s.regs.countOp }
  insertQ k { s with nodes := s.nodes ++ [leaf], leaves := s.leaves ++ [k] }

/-- `LEAF_PUSH` (R110). -/
def execLeafPush (s : State) : Result :=
  if s.tree then .next (raise .sequenceError s)
  else if maxSymbolLen < s.regs.symlenOp then .next (raise .symbolTooLarge s)
  else if s.nleaf = s.cfg.leafMax then .next (raise .capacityExceeded s)
  else .next (finish (addLeaf s))

/-- One turn of `BUILD`'s loop after both extractions (R111): the internal node over `a` (extracted first, left) and `b`
(extracted second, right), inserted into `Q`. -/
def mergePair (a b : Nat) (s : State) : State :=
  let k := s.nodes.length
  let parent := { Node.blank .internal with
    left := some a, right := some b
    count := (nodeAt s.nodes a).count + (nodeAt s.nodes b).count }
  insertQ k { s with nodes := s.nodes ++ [parent], nint := s.nint + 1 }

/-- `while |Q| > 1` of `BUILD` (R111). Every turn shortens `Q` by one, so `|Q|` turns are enough; none: an extraction from an
empty queue. -/
def mergeLoop : Nat → State → Option State
  | 0, s => some s
  | n + 1, s =>
    if 1 < s.q.length then
      match extractMin s with
      | none => none
      | some (a, s1) =>
        match extractMin s1 with
        | none => none
        | some (b, s2) => mergeLoop n (mergePair a b s2)
    else some s

/-- `BUILD` (R111). -/
def execBuild (s : State) : Result :=
  if s.tree then .next (raise .sequenceError s)
  else if s.q.length < 2 then .next (raise .insufficientAlphabet s)
  else
    match mergeLoop s.q.length s with
    | none => .fault .emptyQueue
    | some s1 =>
      match extractMin s1 with
      | none => .fault .emptyQueue
      | some (r, s2) => .next (finish { s2 with root := some r, tree := true, codes := false })

/-- `LEAF_READ` (R113). -/
def execLeafRead (s : State) : Result :=
  match s.leaves[s.regs.argOp]? with
  | none => .next (raise .indexOutOfRange s)
  | some k =>
    match s.nodes[k]? with
    | none => .fault .brokenTree
    | some nd => .next (finish { s with regs := s.regs.ofNode nd s.codes })

end Sys2Proof.Machine
end

