-- ==== Sys2Proof/Machine/TreeCodec.lean ====
section
/-! DEFINITION. The tree serializer and deserializer: `SERIALIZE` (R140) and `DESERIALIZE` (R141), with the byte classes of R85. -/

namespace Sys2Proof.Machine

/-- The bytes `ser(k)` writes, in order (R140): 0xFF, then the left, then the right subtree; or the length byte and the symbol
bytes. The first argument bounds the depth; none: the node store is no tree (log 15). -/
def serBytes : Nat → List Node → Nat → Option (List Byte)
  | 0, _, _ => none
  | fuel + 1, nodes, k =>
    match nodes[k]? with
    | none => none
    | some nd =>
      match nd.kind with
      | .leaf => some (BitVec.ofNat 8 nd.symlen :: nd.sym)
      | .internal =>
        match nd.left, nd.right with
        | some a, some b =>
          match serBytes fuel nodes a, serBytes fuel nodes b with
          | some x, some y => some (internalMarker :: (x ++ y))
          | _, _ => none
        | _, _ => none

/-- Offer the remaining bytes of `SERIALIZE` to `OUT` (R140, R68): complete, or wait with the rest. -/
def emitBytes (bs : List Byte) (s : State) : Result :=
  match offer bs s with
  | (s1, []) => .next (finish s1)
  | (s1, rest) => .next { s1 with prog := .emit rest }

/-- `SERIALIZE` (R140). A tree within capacity is no deeper than its nodes are many (D48), so `NNODE` bounds the depth. -/
def execSerialize (s : State) : Result :=
  if !s.tree then .next (raise .sequenceError s)
  else
    match s.root with
    | none => .fault .noRoot
    | some r =>
      match serBytes s.nodes.length s.nodes r with
      | none => .fault .brokenTree
      | some bs => emitBytes bs s

/-- What one byte does to the deserializer: more bytes are expected, the tree is complete with this root, or an error. -/
inductive DesStep where
  | more (frames : List Frame) (want : Want) (s : State)
  | done (root : Nat) (s : State)
  | fail (e : Err) (s : State)

/-- `des()` has returned node `r` (R141): it becomes the left child of the innermost open node, whose right subtree is read next, or
the right child, which closes that node with count 0 (D21). -/
def closeNode (r : Nat) : List Frame → State → DesStep
  | [], s => .done r s
  | .left k :: fs, s => .more (.right k r :: fs) .marker s
  | .right k a :: fs, s =>
    closeNode k fs (setNode k (fun nd => { nd with left := some a, right := some r, count := 0 }) s)

/-- A marker byte (R85, R141): an internal node, an illegal length, or a leaf whose symbol bytes follow. -/
def desMarker (b : Byte) (frames : List Frame) (s : State) : DesStep :=
  if b = internalMarker then
    if s.nint = s.cfg.leafMax - 1 then .fail .capacityExceeded s
    else .more (.left s.nodes.length :: frames) .marker { alloc .internal s with nint := s.nint + 1 }
  else if maxSymbolLen < b.toNat then .fail .symbolTooLarge s
  else if s.nleaf = s.cfg.leafMax then .fail .capacityExceeded s
  else
    let k := s.nodes.length
    let s1 := { alloc .leaf s with leaves := s.leaves ++ [k] }
    if b.toNat = 0 then closeNode k frames s1 else .more frames (.symbol k b.toNat) s1

/-- A symbol byte of leaf `k`, raw (R141), when `rem` bytes are missing. -/
def desSymbol (b : Byte) (k rem : Nat) (frames : List Frame) (s : State) : DesStep :=
  let s1 := setNode k (fun nd => { nd with sym := nd.sym ++ [b] }) s
  if rem ≤ 1 then closeNode k frames s1 else .more frames (.symbol k (rem - 1)) s1

/-- One byte of `IN` in `des()` (R141). -/
def desByte (b : Byte) (frames : List Frame) (want : Want) (s : State) : DesStep :=
  match want with
  | .marker => desMarker b frames s
  | .symbol k rem => desSymbol b k rem frames s

/-- The error state of `DESERIALIZE` (R206) and its `raise` (R205). -/
def desFail (e : Err) (s : State) : State :=
  raise e { s with nodes := [], nint := 0, leaves := [], root := none, tree := false, codes := false }

/-- The end of `DESERIALIZE` once the tree is complete (R141, D22). -/
def desDone (r : Nat) (s : State) : Result :=
  match s.nodes[r]? with
  | none => .fault .brokenTree
  | some nd =>
    match nd.kind with
    | .leaf => .next (desFail .insufficientAlphabet s)
    | .internal => .next (finish { s with root := some r, tree := true, codes := false })

/-- `des()` over the bytes of `IN` (R141): each turn takes one byte, waits, or ends the command (R181). A turn the bound does not
allow leaves the command running (log 25). -/
def desLoop : Nat → List Frame → Want → State → Result
  | 0, frames, want, s => .next { s with prog := .deser frames want }
  | fuel + 1, frames, want, s =>
    match inRead s with
    | .wait => .next { s with prog := .deser frames want }
    | .eoi => .next (desFail .truncatedTree s)
    | .byte b s1 =>
      match desByte b frames want s1 with
      | .more frames1 want1 s2 => desLoop fuel frames1 want1 s2
      | .done r s2 => desDone r s2
      | .fail e s2 => .next (desFail e s2)

/-- Run the deserializer over every byte available now. -/
def desRun (frames : List Frame) (want : Want) (s : State) : Result :=
  desLoop (s.inp.avail.length + 1) frames want s

/-- `DESERIALIZE` (R141). -/
def execDeserialize (s : State) : Result :=
  if s.tree || !s.leaves.isEmpty then .next (raise .sequenceError s)
  else desRun [] .marker s

end Sys2Proof.Machine
end

