-- ==== Sys2Proof/Machine/Dispatch.lean ====
section
/-! DEFINITION. The meaning of each command of R81: one arm, one definition. -/

namespace Sys2Proof.Machine

def exec (i : Instr) (s : State) : Host.Outcome State Fault Refusal :=
  match i with
  | .nop => Sys2Proof.Machine.execNop s
  | .clear => Sys2Proof.Machine.execClear s
  | .leafPush => Sys2Proof.Machine.execLeafPush s
  | .build => Sys2Proof.Machine.execBuild s
  | .leafRead => Sys2Proof.Machine.execLeafRead s
  | .assign => Sys2Proof.Machine.execAssign s
  | .serialize => Sys2Proof.Machine.execSerialize s
  | .deserialize => Sys2Proof.Machine.execDeserialize s
  | .push => Sys2Proof.Machine.execPush s
  | .pushLeaf => Sys2Proof.Machine.execPushLeaf s
  | .flush => Sys2Proof.Machine.execFlush s
  | .decode => Sys2Proof.Machine.execDecode s

end Sys2Proof.Machine
end

