-- ==== Sys2Proof/Machine/Engine.lean ====
section
/-! DEFINITION. The engine and its environment: execution of an accepted word (R102), going on after a wait (R201), acceptance
(R200), host accesses (R64) and the other moves of the environment (R67 to R69, R230, R244). -/

namespace Sys2Proof.Machine

/-- Execution of the accepted word `CUR` (R102): an ILLEGAL word raises `IllegalCommand`; a command runs its rule, whose meaning
begins with its phase precondition (R203). -/
def runCur (s : State) : Result :=
  match decode s.cur with
  | .error _ => .next (raise .illegalCommand s)
  | .ok i => exec i s

/-- The engine goes on with the running command from where it stood. -/
def resume (s : State) : Result :=
  match s.prog with
  | .idle => .next s
  | .start => runCur s
  | .emit rest => emitBytes rest s
  | .pack => packRun s
  | .flush => flushRun s
  | .deser frames want => desRun frames want s
  | .decode n outs => decodeResume n outs s

/-- The sink accepts the next byte (R68). -/
def State.sinkReady (s : State) : Bool := s.out.room != some 0

/-- `InRead` would not wait: a byte is available or the end is signalled (R67). -/
def State.sourceReady (s : State) : Bool := !s.inp.avail.isEmpty || s.inp.ended

/-- The engine is given time and the running command does not wait on a stream (R67, R68, log 3). -/
def State.coreMoves (s : State) : Bool :=
  !s.stalled &&
    match s.prog with
    | .idle => false
    | .start => true
    | .emit _ => s.sinkReady
    | .pack => s.sinkReady
    | .flush => s.sinkReady
    | .deser _ _ => s.sourceReady
    | .decode _ [] => decide (0 < s.ubits) || s.sourceReady
    | .decode _ (_ :: _) => s.sinkReady

/-- Acceptance of a word written to `CMD` (R200). An accepted word is executed at once, unless the engine is given no time. -/
def offerCommand (w : Word) (s : State) : Result :=
  if s.busy then .next { s with drop := true }
  else if s.err && w != encode .clear then .next s
  else
    let s1 := { s with cur := w, prog := .start }
    if s.stalled then .next s1 else runCur s1

/-- The form of a host access the interface has (R64, D3): 32 bits, aligned, inside the window. -/
def accessOk (off width : Nat) : Bool :=
  decide (width = 4) && decide (off % 4 = 0) && decide (off < 0x100)

/-- The window offset of `CMD` (R21). -/
def cmdOffset : Nat := 0x10

/-- The window offset of `STATUS` (R21). -/
def statusOffset : Nat := 0x0C

/-- The move is the host program's own: its accesses (R64, R89), and what it does to the streams' endpoints between operations
(R69, R244). The others are the endpoints' (R67, R68), time's and reset. -/
def Event.ofHost : Event → Bool
  | .write _ _ _ | .read _ _ | .poll | .rewind | .connectIn | .connectOut => true
  | .deliver _ | .endInput | .sinkRoom _ | .stall _ | .reset => false

/-- The events after a poll that read `BUSY` = 1 (R89, log 20): the host polls again before anything else of its program, which keeps
its order; the first move that is not the host's does not wait for it. -/
def pollAgain (rest : List Event) : List Event :=
  match rest.find? (fun e => !e.ofHost) with
  | none => .poll :: rest
  | some e => e :: .poll :: rest.eraseP (fun e => !e.ofHost)

/-- `MemWrite` (R64, R27). -/
def memWrite (off : Nat) (data : Word) (s : State) : Result :=
  if off = cmdOffset then offerCommand data s
  else if s.busy then .next s
  else .next { s with regs := s.regs.store off data }

/-- The running command reads `IN`: it is `DESERIALIZE` or `DECODE` (R60, R67). -/
def State.readsInput (s : State) : Bool :=
  s.busy &&
    match decode s.cur with
    | .ok .deserialize => true
    | .ok .decode => true
    | _ => false

/-- One move of the environment, taken from the front of `events`. -/
def handle (e : Event) (s : State) : Result :=
  match e with
  | .write off width data =>
    if accessOk off width then memWrite off data s else .refused .accessOutsideInterface
  | .read off width =>
    if accessOk off width then
      let r := s.memRead off
      .next { r.2 with reads := s.reads ++ [r.1] }
    else .refused .accessOutsideInterface
  | .poll =>
    let s1 := { s with reads := s.reads ++ [s.regValue statusOffset] }
    if s.busy then .next { s1 with events := pollAgain s.events } else .next s1
  | .deliver bytes =>
    if s.inp.ended then .refused .deliveryAfterEnd
    else .next { s with inp := { s.inp with avail := s.inp.avail ++ bytes } }
  | .endInput => .next { s with inp := { s.inp with ended := true } }
  | .rewind =>
    if s.readsInput then .refused .streamChangeWhileBusy
    else .next { s with inp := { s.inp with taken := [], avail := s.inp.taken ++ s.inp.avail } }
  | .connectIn =>
    if s.busy then .refused .streamChangeWhileBusy
    else .next { s with inp := { taken := [], avail := [], ended := false } }
  | .connectOut =>
    if s.busy then .refused .streamChangeWhileBusy
    else .next { s with out := { bytes := [], room := none } }
  | .sinkRoom n => .next { s with out := { s.out with room := n } }
  | .stall on => .next { s with stalled := on }
  | .reset => .next (coreReset s)

/-- The next move: the engine's while it can move, else the environment's next event; with neither, nothing changes: the core is
idle and "holds all its state indefinitely" (R216), or it waits (R67, log 21). -/
def nextMove (s : State) : Result :=
  if s.coreMoves then resume s
  else
    match s.events with
    | [] => .next s
    | e :: es => handle e { s with events := es }

end Sys2Proof.Machine
end

