-- ==== Sys2Proof/Machine/Step.lean ====
section
/-! DEFINITION. One step of the machine, and the placing of a command word where the next step takes it from. -/

namespace Sys2Proof.Machine

/-- One step: one move of the engine or of its environment (R18, R70). -/
def step (s : State) : Host.Outcome State Fault Refusal := nextMove s

/-- The state whose next event is the host's write of the word to `CMD` (R64, R74, R232): the core fetches no instruction, and the
host's `CMD` writes are its program (R43, log 12). The engine is given time, so that the same step runs the word. -/
def State.withFetchWord (s : State) (nbits w : Nat) : State :=
  { s with stalled := false, events := .write cmdOffset 4 (BitVec.ofNat 32 (w % 2 ^ nbits)) :: s.events }

end Sys2Proof.Machine
end

