-- ==== Sys2Proof/Safety.lean ====
section
/-! DEFINITION. The terms in which claims about the core are stated: bit strings (R13), the tree a node store holds (R35, R42), its
codes (R131) and serialization (R140), the phase preconditions (R203), and the invariant of a safe run (R35 to R42). -/

namespace Sys2Proof.Machine

/-! ### Bit strings (R13) -/

/-- The bit string of the low `len` bits of a value, most significant first (R13): `v[len-1], ..., v[0]`. -/
def bitsOf : Nat → Nat → List Bool
  | 0, _ => []
  | len + 1, v => v.testBit len :: bitsOf len v

/-- The bits of stream bytes, bit 7 of each first (R63). -/
def streamBits (bytes : List Byte) : List Bool := bytes.flatMap fun b => bitsOf 8 b.toNat

/-- The packer's pending bits, oldest first (R40). -/
def State.pendingBits (s : State) : List Bool := bitsOf s.pend s.acc

/-- The unread bits of the current input byte, in the order they are consumed (R41). -/
def State.unreadBits (s : State) : List Bool := bitsOf s.ubits s.ubyte.toNat

/-- The value of a path as a code (R131): Σ s_j·2^(l−j), the first branch most significant. -/
def pathValue (path : List Bool) : Nat := path.foldl (fun c side => 2 * c + side.toNat) 0

/-! ### The tree a node store holds (R35, R42(b)) -/

/-- A tree with, at each node, its index in the node store and, at each leaf, its symbol. -/
inductive Tree where
  | leaf (k : Nat) (sym : List Byte)
  | node (k : Nat) (l r : Tree)
  deriving DecidableEq, Repr

/-- The index of the tree's root. -/
def Tree.idx : Tree → Nat
  | .leaf k _ => k
  | .node k _ _ => k

/-- Every node's index, in pre-order. -/
def Tree.indices : Tree → List Nat
  | .leaf k _ => [k]
  | .node k l r => k :: (l.indices ++ r.indices)

/-- The leaves' indices, from left to right. -/
def Tree.leafIdx : Tree → List Nat
  | .leaf k _ => [k]
  | .node _ l r => l.leafIdx ++ r.leafIdx

/-- The root is an internal node. -/
def Tree.isNode : Tree → Bool
  | .leaf _ _ => false
  | .node _ _ _ => true

/-- The depth of the deepest node; the root has depth 0. -/
def Tree.depth : Tree → Nat
  | .leaf _ _ => 0
  | .node _ l r => max l.depth r.depth + 1

/-- Every leaf, from left to right: its index, its symbol, and its path from the root (left = false, right = true). -/
def Tree.entries : Tree → List (Nat × List Byte × List Bool)
  | .leaf k sym => [(k, sym, [])]
  | .node _ l r =>
    l.entries.map (fun e => (e.1, e.2.1, false :: e.2.2)) ++ r.entries.map (fun e => (e.1, e.2.1, true :: e.2.2))

/-- The symbols of a list of leaf entries, one after the other. -/
def entrySymbols (leaves : List (Nat × List Byte × List Bool)) : List Byte := leaves.flatMap fun e => e.2.1

/-- The paths of a list of leaf entries, one after the other. -/
def entryPaths (leaves : List (Nat × List Byte × List Bool)) : List Bool := leaves.flatMap fun e => e.2.2

/-- Every node's index and its path from the root (left = false, right = true), in pre-order. -/
def Tree.paths : Tree → List (Nat × List Bool)
  | .leaf k _ => [(k, [])]
  | .node k l r =>
    (k, []) :: (l.paths.map (fun e => (e.1, false :: e.2)) ++ r.paths.map (fun e => (e.1, true :: e.2)))

/-- The serialized form (R85, R140). -/
def Tree.ser : Tree → List Byte
  | .leaf _ sym => BitVec.ofNat 8 sym.length :: sym
  | .node _ l r => internalMarker :: (l.ser ++ r.ser)

/-- Every symbol has at most `MAX_SYMBOL_LEN` bytes (R6). -/
def Tree.symbolsFit : Tree → Bool
  | .leaf _ sym => decide (sym.length ≤ maxSymbolLen)
  | .node _ l r => l.symbolsFit && r.symbolsFit

/-- The same shape, and at each leaf position the same symbol (R142). -/
def Tree.sameShape : Tree → Tree → Bool
  | .leaf _ a, .leaf _ b => decide (a = b)
  | .node _ l r, .node _ l' r' => l.sameShape l' && r.sameShape r'
  | _, _ => false

/-- The node store holds the tree: each record has the kind, the symbol and the children the tree gives it (R35). -/
def Tree.Holds (nodes : List Node) : Tree → Prop
  | .leaf k sym => ∃ nd, nodes[k]? = some nd ∧ nd.kind = .leaf ∧ nd.sym = sym
  | .node k l r =>
    (∃ nd, nodes[k]? = some nd ∧ nd.kind = .internal ∧ nd.left = some l.idx ∧ nd.right = some r.idx)
      ∧ l.Holds nodes ∧ r.Holds nodes

/-- Each internal node's count is the sum of its children's counts (R35, R114(d)). -/
def Tree.Sums (nodes : List Node) : Tree → Prop
  | .leaf _ _ => True
  | .node k l r =>
    (nodeAt nodes k).count = (nodeAt nodes l.idx).count + (nodeAt nodes r.idx).count ∧ l.Sums nodes ∧ r.Sums nodes

/-- The tree is the state's current tree (R42(b)): it stands at `ROOT`, the allocated nodes are its nodes, none shared, and the
leaves are its leaves. -/
structure State.HasTree (s : State) (T : Tree) : Prop where
  root : s.root = some T.idx
  holds : T.Holds s.nodes
  nodes : T.indices.Perm (List.range s.nodes.length)
  leaves : T.leafIdx.Perm s.leaves

/-- What of a record makes up the tree and its counts (R35): kind, symbol, count and, of an internal node, the children. -/
def Node.place (nd : Node) : Kind × List Byte × Nat × Option (Option Nat × Option Nat) :=
  (nd.kind, nd.sym, nd.count, if nd.kind = .internal then some (nd.left, nd.right) else none)

/-- A node carries the code and length of a path (R131). -/
def Node.hasCode (nd : Node) (path : List Bool) : Prop := nd.code.toNat = pathValue path ∧ nd.clen = path.length

/-! ### Phase preconditions (R203) -/

/-- What a command requires (R203). -/
def phaseOk (i : Instr) (s : State) : Bool :=
  match i with
  | .nop | .clear | .leafRead | .push | .flush => true
  | .leafPush | .build => !s.tree
  | .deserialize => !s.tree && s.leaves.isEmpty
  | .assign | .serialize | .decode => s.tree
  | .pushLeaf => s.codes

/-- The state after a command ended by `return` with nothing else left to change (R201): `BUSY` is 0. -/
def State.done (s : State) : State := { s with prog := .idle }

/-- The state after `raise` of the error with this code (R202, R205): `ERR` = 1, `ERRCODE` and `BUSY` = 0. -/
def State.failed (s : State) (code : BitVec 4) : State := { s with err := true, errcode := code, prog := .idle }

/-- Every element of the operation state holds its reset value (R34, R100, R207). -/
structure State.Cleared (s : State) : Prop where
  nodes : s.nodes = []
  nint : s.nint = 0
  nextSeq : s.nextSeq = 0
  q : s.q = []
  leaves : s.leaves = []
  root : s.root = none
  acc : s.acc = 0
  pend : s.pend = 0
  ubyte : s.ubyte = 0
  ubits : s.ubits = 0
  tree : s.tree = false
  codes : s.codes = false
  eos : s.eos = false
  drop : s.drop = false
  err : s.err = false
  errcode : s.errcode = 0
  prog : s.prog = .idle

/-- `key(a)` is at most `key(b)` (R37): a lower count first, and an earlier insertion first among equal counts. -/
def State.keyAtMost (s : State) (a b : Nat) : Prop :=
  (nodeAt s.nodes a).count < (nodeAt s.nodes b).count ∨
    ((nodeAt s.nodes a).count = (nodeAt s.nodes b).count ∧ (nodeAt s.nodes a).seq ≤ (nodeAt s.nodes b).seq)

/-- A node's code as a bit string (R13). -/
def codeBits (nodes : List Node) (k : Nat) : List Bool := bitsOf (nodeAt nodes k).clen (nodeAt nodes k).code.toNat

/-- `CUR` holds the running command's word (R26, R34): the progress is that of the command the word names. -/
def State.curNamesCommand (s : State) : Bool :=
  match s.prog with
  | .idle | .start => true
  | .emit _ => s.cur == encode .serialize
  | .pack => s.cur == encode .push || s.cur == encode .pushLeaf
  | .flush => s.cur == encode .flush
  | .deser _ _ => s.cur == encode .deserialize
  | .decode _ _ => s.cur == encode .decode

/-! ### Runs of packer commands (R164) -/

/-- The host writes a code and its length into the operand registers (R89, `push code, len`, before its `PUSH`). -/
def State.withCode (s : State) (c : Code) (len : BitVec 8) : State :=
  { s with regs := { s.regs with codeLo := c.extractLsb' 0 32, codeHi := c.extractLsb' 32 32, codelen := len } }

/-- The host writes a leaf index into `ARG` (R89, `pushleaf i`, before its `PUSH_LEAF`). -/
def State.withArg (s : State) (i : Word) : State := { s with regs := { s.regs with arg := i } }

/-- A run of `PUSH` and `PUSH_LEAF` commands, each one completing without an error; the list holds each code as a bit string (R13),
in the order the packer receives them. -/
inductive Packs : List (List Bool) → State → State → Prop where
  | none (s : State) : Packs [] s s
  | push (c : Code) (len : BitVec 8) (rest : List (List Bool)) (s t u : State)
      (runs : exec .push (s.withCode c len) = .next t) (ok : t.err = false) (ends : t.prog = .idle)
      (after : Packs rest t u) : Packs (bitsOf len.toNat c.toNat :: rest) s u
  | leaf (i : Word) (k : Nat) (nd : Node) (rest : List (List Bool)) (s t u : State)
      (index : s.leaves[i.toNat]? = some k) (record : s.nodes[k]? = some nd)
      (runs : exec .pushLeaf (s.withArg i) = .next t) (ok : t.err = false) (ends : t.prog = .idle)
      (after : Packs rest t u) : Packs (bitsOf nd.clen nd.code.toNat :: rest) s u

/-! ### The invariant of a safe run -/

/-- The bounds on one record (R6, R11, R35): symbol length at most 16, a leaf's count below 2^32, every count below 2^64, code length
at most 64. -/
structure NodeOk (nd : Node) : Prop where
  sym : nd.sym.length ≤ maxSymbolLen
  leafCount : nd.kind = .leaf → nd.count < 2 ^ 32
  count : nd.count < 2 ^ 64
  clen : nd.clen ≤ codeMax

/-- The open nodes of `DESERIALIZE` stand in the node store (R141): `order` is the pre-order of the nodes read so far outside the
node being read, `leaves` the leaves among them. -/
inductive FramesHold (nodes : List Node) : List Frame → List Nat → List Nat → Prop where
  | nil : FramesHold nodes [] [] []
  | left (k : Nat) (nd : Node) (fs : List Frame) (order leaves : List Nat)
      (at_k : nodes[k]? = some nd) (internal : nd.kind = .internal) (below : FramesHold nodes fs order leaves) :
      FramesHold nodes (.left k :: fs) (order ++ [k]) leaves
  | right (k : Nat) (nd : Node) (T : Tree) (fs : List Frame) (order leaves : List Nat)
      (at_k : nodes[k]? = some nd) (internal : nd.kind = .internal) (holds : T.Holds nodes)
      (below : FramesHold nodes fs order leaves) :
      FramesHold nodes (.right k T.idx :: fs) (order ++ k :: T.indices) (leaves ++ T.leafIdx)

/-- The node store while `DESERIALIZE` runs (R141): the nodes read so far, in pre-order, every count 0 (D21). -/
def PartialTree (s : State) (frames : List Frame) (want : Want) : Prop :=
  s.q = [] ∧ s.nodes.length = s.leaves.length + s.nint ∧ (∀ nd ∈ s.nodes, nd.count = 0) ∧
  ∃ order leaves, FramesHold s.nodes frames order leaves ∧
    match want with
    | .marker => order = List.range s.nodes.length ∧ s.leaves = leaves
    | .symbol k rem =>
      order ++ [k] = List.range s.nodes.length ∧ s.leaves = leaves ++ [k] ∧ 1 ≤ rem ∧
        ∃ nd, s.nodes[k]? = some nd ∧ nd.kind = .leaf ∧ nd.sym.length + rem ≤ maxSymbolLen

/-- The node store before a tree exists (R42(a)): leaves only, all in `Q`, in push order, with rising sequence numbers (R36). -/
structure LeavesOnly (s : State) : Prop where
  q : s.q = s.leaves
  leaves : s.leaves = List.range s.nodes.length
  nint : s.nint = 0
  kind : ∀ nd ∈ s.nodes, nd.kind = .leaf
  seqs : (s.nodes.map Node.seq).Pairwise (· < ·)
  next : ∀ nd ∈ s.nodes, nd.seq < s.nextSeq

/-- The node store with a finished tree (R42(b)), its counts adding up (R35) and, when `CODES` = 1, its leaves carrying the codes of
their paths (R131). -/
def TreeStands (s : State) : Prop :=
  s.q = [] ∧ s.nint + 1 = s.leaves.length ∧
  ∃ T, s.HasTree T ∧ T.isNode = true ∧ T.Sums s.nodes ∧
    (s.codes = true → ∀ e ∈ T.entries, (nodeAt s.nodes e.1).hasCode e.2.2)

/-- The invariant of a safe run: R35 to R42, the error rules R202 and R208, and where the running command stands (R43). -/
structure Inv (s : State) : Prop where
  params : s.cfg.wf = true
  errcode : if s.err = true then ∃ e : Err, s.errcode = e.code else s.errcode = 0
  errIdle : s.err = true → s.prog = .idle ∨ (s.prog = .start ∧ s.cur = encode .clear)
  codesTree : s.codes = true → s.tree = true
  eosTree : s.eos = true → s.tree = true
  unread : s.ubits ≤ 8
  unreadTree : s.tree = false → s.ubits = 0
  acc : s.acc < 2 ^ s.pend
  pendCap : s.pend ≤ s.cfg.accCap
  pendIdle : s.prog ≠ .pack → s.pend ≤ 7
  leafCap : s.leaves.length ≤ s.cfg.leafMax
  nintCap : s.nint ≤ s.cfg.leafMax - 1
  records : ∀ nd ∈ s.nodes, NodeOk nd
  store : if s.tree = true then TreeStands s
    else s.root = none ∧
      match s.prog with
      | .deser frames want => PartialTree s frames want
      | _ => LeavesOnly s
  progress : match s.prog with
    | .decode n _ => s.tree = true ∧ ∃ nd, s.nodes[n]? = some nd ∧ nd.kind = .internal
    | .deser _ _ => s.tree = false
    | _ => True

end Sys2Proof.Machine
end

