-- ==== Sys2Proof/Certificates/Slice0/Obligations.lean ====
section
/-! DEFINITION. The statements about the core, from the numbered rules of the specification. `exec i s` runs from an accepted
command's state; a state change is written out in full, so each such statement is also the command's frame: every field not named
keeps its value. -/

open Sys2Proof Sys2Proof.Machine

/-! ### Command words (30_encoding.md) -/

/-- R80, R81: a word decodes to a command exactly when it is that command's word; no bit of a word is dropped or invented. -/
def Obligations.DecodeEncodeAgree : Prop :=
  ∀ (w : Word) (i : Instr),
    (decode w = .ok i ↔ w = encode i) ∧ (decodeTableWord 32 w.toNat = some i ↔ w = encode i)

/-- R81: the command word of each row. -/
def Obligations.KnownWords : Prop :=
  decode 0x00000000#32 = .ok .nop ∧ decode 0x00000001#32 = .ok .clear ∧ decode 0x00000010#32 = .ok .leafPush ∧
  decode 0x00000011#32 = .ok .build ∧ decode 0x00000012#32 = .ok .leafRead ∧ decode 0x00000020#32 = .ok .assign ∧
  decode 0x00000030#32 = .ok .serialize ∧ decode 0x00000031#32 = .ok .deserialize ∧ decode 0x00000040#32 = .ok .push ∧
  decode 0x00000041#32 = .ok .pushLeaf ∧ decode 0x00000042#32 = .ok .flush ∧ decode 0x00000050#32 = .ok .decode

/-- R83: every illegal word raises `IllegalCommand` (code 8) with no other effect. That one step takes the write and ends the
command is the model's choice (logs 1, 3), and so is that `CUR` still holds the word afterwards (log 14). -/
def Obligations.IllegalWordsRaise : Prop :=
  ∀ w : Word,
    (w.toNat / 2 ^ 8 ≠ 0 ∨
      (0x02 ≤ w.toNat % 2 ^ 8 ∧ w.toNat % 2 ^ 8 ≤ 0x0F) ∨ (0x13 ≤ w.toNat % 2 ^ 8 ∧ w.toNat % 2 ^ 8 ≤ 0x1F) ∨
      (0x21 ≤ w.toNat % 2 ^ 8 ∧ w.toNat % 2 ^ 8 ≤ 0x2F) ∨ (0x32 ≤ w.toNat % 2 ^ 8 ∧ w.toNat % 2 ^ 8 ≤ 0x3F) ∨
      (0x43 ≤ w.toNat % 2 ^ 8 ∧ w.toNat % 2 ^ 8 ≤ 0x4F) ∨ (0x51 ≤ w.toNat % 2 ^ 8 ∧ w.toNat % 2 ^ 8 ≤ 0xFF)) →
    (∃ e, decode w = .error e) ∧
    ∀ (s : State) (rest : List Event),
      s.prog = .idle → s.err = false → s.stalled = false → s.events = .write 0x10 4 w :: rest →
      step s = .next ({ s with events := rest, cur := w }.failed 8#4)

/-! ### Acceptance and execution (60_exceptions.md section 1, 40_control.md R102) -/

/-- A step runs the decoded command: the host's `CMD` write of an accepted word is executed in the step that takes it
(R64, R102, R200). That the taking and the whole run are one step is the model's choice (logs 1, 3). -/
def Obligations.StepRunsCommandWord : Prop :=
  ∀ (s : State) (w : Word) (i : Instr) (rest : List Event),
    decode w = .ok i → s.prog = .idle → (s.err = false ∨ i = .clear) → s.stalled = false →
    s.events = .write 0x10 4 w :: rest →
    step s = exec i { s with events := rest, cur := w, prog := .start }

/-- The word that `withFetchWord` places is the one the next step runs; how the host's program reaches the core is log 12. -/
def Obligations.StepRunsPlacedWord : Prop :=
  ∀ (s : State) (w : Nat) (i : Instr),
    decodeTableWord 32 w = some i → s.prog = .idle → s.err = false →
    step (s.withFetchWord 32 w) = exec i { s with stalled := false, cur := BitVec.ofNat 32 w, prog := .start }

/-- R200: a `CMD` write sets `DROP` while `BUSY` = 1, is discarded while `ERR` = 1 unless it is `CLEAR`, and otherwise sets `BUSY`
and is executed (at once, or, when the engine is given no time (log 3), later). -/
def Obligations.Acceptance : Prop :=
  ∀ (s : State) (w : Word) (rest : List Event), s.coreMoves = false → s.events = .write 0x10 4 w :: rest →
    (s.busy = true → step s = .next { s with events := rest, drop := true }) ∧
    (s.busy = false → s.err = true → w ≠ 0x00000001#32 → step s = .next { s with events := rest }) ∧
    (s.busy = false → (s.err = false ∨ w = 0x00000001#32) → s.stalled = true →
      step s = .next { s with events := rest, cur := w, prog := .start }) ∧
    (s.busy = false → (s.err = false ∨ w = 0x00000001#32) → s.stalled = false →
      step s = step { s with events := rest, cur := w, prog := .start })

/-- R102: an accepted word is decoded; an illegal one raises `IllegalCommand`, a failed phase precondition raises `SequenceError`,
and otherwise the command's rule runs. -/
def Obligations.ExecutionOfAcceptedWord : Prop :=
  ∀ s : State, s.prog = .start → s.stalled = false →
    (∀ e, decode s.cur = .error e → step s = .next (s.failed 8#4)) ∧
    (∀ i, decode s.cur = .ok i → phaseOk i s = false → step s = .next (s.failed 9#4)) ∧
    (∀ i, decode s.cur = .ok i → phaseOk i s = true → step s = exec i s)

/-- R216: an idle core holds all its state; only a `CMD` write or reset changes anything of it but the operand registers, which only
a write changes (R27, R64). `IN` is changed only by its source (R67, R69), `OUT` only by its sink (R68). The events and the
environment's fields are the model's (logs 1, 3, 23). -/
def Obligations.IdleCoreHoldsState : Prop :=
  ∀ s : State, s.prog = .idle →
    (s.events = [] → step s = .next s) ∧
    (∀ (e : Event) (rest : List Event) (t : State), s.events = e :: rest → e ≠ .reset →
      (∀ width data, e ≠ .write 0x10 width data) → step s = .next t →
      t = { s with events := rest, regs := t.regs, inp := t.inp, out := t.out, stalled := t.stalled, reads := t.reads } ∧
      ((∀ off width data, e ≠ .write off width data) → t.regs = s.regs) ∧
      ((∀ bytes, e ≠ .deliver bytes) → e ≠ .endInput → e ≠ .rewind → e ≠ .connectIn → t.inp = s.inp) ∧
      ((∀ n, e ≠ .sinkRoom n) → e ≠ .connectOut → t.out = s.out) ∧
      ((∀ on, e ≠ .stall on) → t.stalled = s.stalled) ∧
      ((∀ off width, e ≠ .read off width) → e ≠ .poll → t.reads = s.reads))

/-- R67, R68, R201: a command that waits on `IN` or `OUT` stays `BUSY` and nothing changes until an event of the environment; with the
byte, the end-marker or the room it waits for, and time (log 3), it goes on. That a wait is a step to the same state is the model's
choice (log 21). -/
def Obligations.WaitingCommandStandsStill : Prop :=
  ∀ s : State,
    (s.events = [] →
      (((∃ frames want, s.prog = .deser frames want) ∨ ((∃ n, s.prog = .decode n []) ∧ s.ubits = 0)) →
        s.inp.avail = [] → s.inp.ended = false → step s = .next s) ∧
      (((∃ bytes, s.prog = .emit bytes) ∨ s.prog = .pack ∨ s.prog = .flush ∨ (∃ n b bytes, s.prog = .decode n (b :: bytes))) →
        s.out.room = some 0 → step s = .next s)) ∧
    (s.stalled = false →
      (((∃ frames want, s.prog = .deser frames want) ∨ (∃ n, s.prog = .decode n [])) →
        (s.inp.avail ≠ [] ∨ s.inp.ended = true) → step s = resume s) ∧
      ((∃ n, s.prog = .decode n []) → 0 < s.ubits → step s = resume s) ∧
      (((∃ bytes, s.prog = .emit bytes) ∨ s.prog = .pack ∨ s.prog = .flush ∨ (∃ n b bytes, s.prog = .decode n (b :: bytes))) →
        s.out.room ≠ some 0 → step s = resume s))

/-! ### The register window (10_state.md section 2, 20_memory.md section 3) -/

/-- R64, R65: a host read returns the register's value and changes nothing of the core; only a result register of the running
command reads as a free value (R27(d), log 5). That `STATUS` and every other register read exactly while `BUSY` = 1 is the model's
reading of R27(d) (log 4). R89: a `wait` reads `STATUS` and ends when `BUSY` reads 0; until then nothing of the host's own program is
taken, and what is not the host's goes first (log 20). -/
def Obligations.HostReads : Prop :=
  (∀ (s : State) (off : Nat) (rest : List Event), s.coreMoves = false → s.events = .read off 4 :: rest → off % 4 = 0 → off < 0x100 →
    (s.unsettled off = false → step s = .next { s with events := rest, reads := s.reads ++ [s.regValue off] }) ∧
    (s.unsettled off = true →
      ∃ v, step s = .next { s with events := rest, reads := s.reads ++ [v], draws := s.draws + 1 })) ∧
  (∀ (s : State) (rest : List Event), s.coreMoves = false → s.events = .poll :: rest →
    ((s.regValue 0x0C).getLsbD 0 = false → step s = .next { s with events := rest, reads := s.reads ++ [s.regValue 0x0C] }) ∧
    ((s.regValue 0x0C).getLsbD 0 = true →
      ((∀ e ∈ rest, e.ofHost = true) → step s = .next { s with reads := s.reads ++ [s.regValue 0x0C] }) ∧
      (∀ host e later, rest = host ++ e :: later → (∀ x ∈ host, x.ofHost = true) → e.ofHost = false →
        step s = .next { s with events := e :: .poll :: (host ++ later), reads := s.reads ++ [s.regValue 0x0C] })))

/-- R64: an access of another width, at an unaligned offset or outside the window is refused (log 10). -/
def Obligations.AccessOutsideInterfaceRefused : Prop :=
  ∀ (s : State) (off width : Nat) (data : Word) (rest : List Event), s.coreMoves = false →
    (width ≠ 4 ∨ off % 4 ≠ 0 ∨ 0x100 ≤ off) →
    (s.events = .write off width data :: rest ∨ s.events = .read off width :: rest) →
    step s = .refused .accessOutsideInterface

/-- R23, R24, R25: the constant registers, readable at all times. -/
def Obligations.ConstantRegisters : Prop :=
  ∀ s : State,
    s.regValue 0x00 = 0x48554631#32 ∧
    (s.regValue 0x04).toNat % 2 ^ 8 = 16 ∧ (s.regValue 0x04).toNat / 2 ^ 8 % 2 ^ 8 = 64 ∧
    (s.regValue 0x04).toNat / 2 ^ 16 % 2 ^ 8 = min s.cfg.accCap 255 ∧ (s.regValue 0x04).toNat / 2 ^ 24 = 0 ∧
    (s.cfg.accCap = 64 → s.regValue 0x04 = 0x00404010#32) ∧
    (s.cfg.wf = true → (s.regValue 0x08).toNat = s.cfg.leafMax) ∧
    (s.cfg = Config.reference → s.regValue 0x08 = 0x00020000#32) ∧
    s.unsettled 0x00 = false ∧ s.unsettled 0x04 = false ∧ s.unsettled 0x08 = false

/-- R22: the fields of `STATUS`. `PEND` and `UBITS` fit their fields in every state whose accumulator and unpacker do. -/
def Obligations.StatusFields : Prop :=
  ∀ s : State, s.pend < 2 ^ 7 → s.ubits < 2 ^ 4 →
    (s.regValue 0x0C).getLsbD 0 = s.busy ∧ (s.regValue 0x0C).getLsbD 1 = s.err ∧ (s.regValue 0x0C).getLsbD 2 = s.tree ∧
    (s.regValue 0x0C).getLsbD 3 = s.codes ∧ (s.regValue 0x0C).getLsbD 4 = s.eos ∧ (s.regValue 0x0C).getLsbD 5 = s.drop ∧
    (s.regValue 0x0C).extractLsb' 6 2 = 0 ∧ (s.regValue 0x0C).extractLsb' 8 4 = s.errcode ∧
    (s.regValue 0x0C).extractLsb' 12 4 = 0 ∧ ((s.regValue 0x0C).extractLsb' 16 7).toNat = s.pend ∧
    (s.regValue 0x0C).getLsbD 23 = false ∧ ((s.regValue 0x0C).extractLsb' 24 4).toNat = s.ubits ∧
    (s.regValue 0x0C).extractLsb' 28 4 = 0

/-- R26, R29 to R32, R66: `CMD` and the reserved offsets read 0; `NLEAF`, `QLEN`, `TOTAL` and `MAXLEN` read what their rules
say, in every state of a safe run. -/
def Obligations.InformationRegisters : Prop :=
  ∀ s : State, Inv s →
    s.regValue 0x10 = 0 ∧ (∀ off, 0x50 ≤ off → s.regValue off = 0) ∧
    (s.regValue 0x3C).toNat = s.leaves.length ∧
    (s.regValue 0x40).toNat = s.q.length ∧
    (s.prog = .idle → s.tree = false → s.regValue 0x40 = s.regValue 0x3C) ∧
    (s.tree = true → s.regValue 0x40 = 0) ∧
    (s.tree = false → s.regValue 0x44 = 0 ∧ s.regValue 0x48 = 0) ∧
    (s.tree = true → ∃ r, s.root = some r ∧
      (s.regValue 0x48).toNat * 2 ^ 32 + (s.regValue 0x44).toNat = (nodeAt s.nodes r).count ∧
      (nodeAt s.nodes r).count = (s.leaves.map fun k => (nodeAt s.nodes k).count).sum) ∧
    (s.codes = false → s.regValue 0x4C = 0) ∧
    (s.codes = true → (∀ k ∈ s.leaves, (nodeAt s.nodes k).clen ≤ (s.regValue 0x4C).toNat) ∧
      ∃ k ∈ s.leaves, (nodeAt s.nodes k).clen = (s.regValue 0x4C).toNat)

/-- R27: (a) an operand write stores the defined bits and touches no other register; (b) a write while `BUSY` = 1 is ignored, as is
one to a read-only or reserved offset; (c) only `LEAF_READ` writes operand registers; (d) nothing is unsettled once `BUSY` = 0. -/
def Obligations.OperandRegisters : Prop :=
  (∀ (s : State) (off : Nat) (v : Word) (rest : List Event), s.coreMoves = false → s.events = .write off 4 v :: rest →
    off % 4 = 0 → off < 0x100 → off ≠ 0x10 →
    (s.busy = true → step s = .next { s with events := rest }) ∧
    (s.busy = false → (off < 0x14 ∨ 0x38 < off) → step s = .next { s with events := rest }) ∧
    (s.busy = false → 0x14 ≤ off → off ≤ 0x38 →
      ∃ r : Operands, step s = .next { s with events := rest, regs := r } ∧
        ({ s with regs := r }.regValue off).toNat = (if off = 0x18 ∨ off = 0x38 then v.toNat % 2 ^ 8 else v.toNat) ∧
        ∀ other, other ≠ off → { s with regs := r }.regValue other = s.regValue other)) ∧
  (∀ (i : Instr) (s t : State), i ≠ .leafRead → exec i s = .next t → t.regs = s.regs) ∧
  (∀ (s t : State), s.prog ≠ .start → resume s = .next t → t.regs = s.regs) ∧
  (∀ (s : State) (off : Nat), s.busy = false → s.unsettled off = false)

/-- R28: the operand functions. -/
def Obligations.OperandAssembly : Prop :=
  ∀ r : Operands,
    (∀ i < 16, ∀ j < 8,
      (r.symbyte i).getLsbD j = ([r.sym0, r.sym1, r.sym2, r.sym3].getD (i / 4) 0).getLsbD (8 * (i % 4) + j)) ∧
    r.symlenOp = r.symlen.toNat ∧ r.countOp = r.count.toNat ∧
    r.codeOp.toNat = r.codeHi.toNat * 2 ^ 32 + r.codeLo.toNat ∧ r.codelenOp = r.codelen.toNat ∧ r.argOp = r.arg.toNat

/-! ### Reset, CLEAR and NOP (70_reset_and_hazards.md section 1, 40_control.md) -/

/-- R230: reset sets every register and internal element to its reset value, abandons a running command and leaves the streams
alone; the state after reset has those values. That the model's own fields outlive a reset, and that it falls only where the core
cannot move, is the model's reading (logs 1, 23, 24). -/
def Obligations.Reset : Prop :=
  (∀ (s : State) (rest : List Event), s.coreMoves = false → s.events = .reset :: rest →
    ∃ t, step s = .next t ∧ t.Cleared ∧ t.cur = 0 ∧ t.regs = ⟨0, 0, 0, 0, 0, 0, 0, 0, 0, 0⟩ ∧ t.cfg = s.cfg ∧
      t.inp = s.inp ∧ t.out = s.out ∧ t.stalled = s.stalled ∧ t.events = rest ∧ t.reads = s.reads ∧ t.draws = s.draws ∧
      t.regValue 0x00 = 0x48554631#32 ∧ t.regValue 0x0C = 0) ∧
  State.reset.Cleared ∧ State.reset.cur = 0 ∧ State.reset.regs = ⟨0, 0, 0, 0, 0, 0, 0, 0, 0, 0⟩ ∧
  State.reset.cfg = { accCap := 64, leafMax := 131072 }

/-- R100: `CLEAR` completes from every state; the operation state is cleared, the operand registers and the streams stay, and the
status and information registers read 0. -/
def Obligations.ClearStartsNewOperation : Prop :=
  ∀ s : State, ∃ t, exec .clear s = .next t ∧
    t = { s with nodes := [], nint := 0, q := [], leaves := [], root := none, nextSeq := 0, acc := 0, pend := 0, ubyte := 0,
                 ubits := 0, tree := false, codes := false, eos := false, drop := false, err := false, errcode := 0,
                 prog := .idle } ∧
    t.Cleared ∧ ∀ off ∈ [0x0C, 0x3C, 0x40, 0x44, 0x48, 0x4C], t.regValue off = 0

/-- R231: reset zeroes the operand registers, which `CLEAR` keeps; reset ends a running command, where a `CLEAR` word is dropped;
after either, the status and information registers read 0. That one step takes a `CLEAR` write and completes it is the model's
choice (logs 1, 3). -/
def Obligations.ResetAndClearDiffer : Prop :=
  ∀ (s : State) (rest : List Event), s.coreMoves = false →
    (s.events = .reset :: rest → ∃ t, step s = .next t ∧ t.regs = ⟨0, 0, 0, 0, 0, 0, 0, 0, 0, 0⟩ ∧ t.busy = false ∧
      ∀ off ∈ [0x0C, 0x3C, 0x40, 0x44, 0x48, 0x4C], t.regValue off = 0) ∧
    (s.busy = true → s.events = .write 0x10 4 0x00000001#32 :: rest → step s = .next { s with events := rest, drop := true }) ∧
    (s.busy = false → s.stalled = false → s.events = .write 0x10 4 0x00000001#32 :: rest →
      ∃ t, step s = .next t ∧ t.regs = s.regs ∧ t.busy = false ∧
        ∀ off ∈ [0x0C, 0x3C, 0x40, 0x44, 0x48, 0x4C], t.regValue off = 0)

/-- R101: `NOP` completes from every state with nothing changed. -/
def Obligations.NopChangesNothing : Prop :=
  ∀ s : State, exec .nop s = .next { s with prog := .idle }

/-! ### Errors (60_exceptions.md sections 2 to 4) -/

/-- R203: a command whose precondition fails raises `SequenceError` (code 9) and has no other effect; one whose precondition holds
never raises it. -/
def Obligations.PhasePreconditions : Prop :=
  ∀ (i : Instr) (s : State),
    (phaseOk i s = false → exec i s = .next (s.failed 9#4)) ∧
    (phaseOk i s = true → s.err = false → ∀ t, exec i s = .next t → t.err = true → t.errcode ≠ 9#4)

/-- R202: the error codes each command can raise, from its start or after a wait. -/
def Obligations.ErrorCodes : Prop :=
  (∀ (i : Instr) (s t : State), s.err = false → exec i s = .next t → t.err = true →
    t.errcode ∈ (match i with
      | .nop | .clear | .flush => []
      | .leafPush => [9#4, 4#4, 10#4]
      | .build => [9#4, 1#4]
      | .leafRead => [11#4]
      | .assign => [9#4, 2#4]
      | .serialize => [9#4]
      | .deserialize => [9#4, 3#4, 4#4, 10#4, 1#4]
      | .push => [2#4]
      | .pushLeaf => [9#4, 11#4, 2#4]
      | .decode => [9#4, 5#4])) ∧
  (∀ (s t : State), s.err = false → s.prog ≠ .start → resume s = .next t → t.err = true →
    t.errcode ∈ (match s.prog with
      | .deser _ _ => [3#4, 4#4, 10#4, 1#4]
      | .decode _ _ => [5#4]
      | _ => []))

/-- R207: only an accepted `CLEAR` and reset lead out of `ERR` = 1, and both return all operation state to its reset value. -/
def Obligations.OnlyClearAndResetLeaveError : Prop :=
  ∀ s t : State, s.err = true → step s = .next t → t.err = false →
    t.Cleared ∧
    ((∃ rest, s.events = .reset :: rest) ∨ (∃ rest, s.events = .write 0x10 4 0x00000001#32 :: rest) ∨
      (s.prog = .start ∧ s.cur = 0x00000001#32))

/-- R208: while `ERR` = 1 no step changes `ERRCODE`, and none sets `DROP` while `BUSY` = 0. -/
def Obligations.ErrorCodeHolds : Prop :=
  ∀ s t : State, Inv s → s.err = true → step s = .next t → t.err = true →
    t.errcode = s.errcode ∧ (s.busy = false → t.drop = s.drop)

/-- R33, R60 and each rule's "Writes": what a command, started and answered with a next state, leaves unchanged. Each line names
the commands that may change the element. -/
def Obligations.CommandFrame : Prop :=
  ∀ (i : Instr) (s t : State), exec i s = .next t →
    t.cfg = s.cfg ∧ t.cur = s.cur ∧ t.stalled = s.stalled ∧ t.events = s.events ∧ t.reads = s.reads ∧
    (i ∉ [.assign] → t.draws = s.draws) ∧
    (i ∉ [.leafRead] → t.regs = s.regs) ∧
    (t.regs.arg = s.regs.arg) ∧
    (i ∉ [.clear] → t.drop = s.drop) ∧
    (i ∉ [.clear, .build, .deserialize] → t.tree = s.tree ∧ t.root = s.root ∧ t.nint = s.nint) ∧
    (s.tree = true → t.tree = false → i = .clear) ∧
    (i ∉ [.clear, .build, .assign, .deserialize] → t.codes = s.codes) ∧
    (t.codes = true → s.codes = false → i = .assign) ∧
    (i ∉ [.clear, .decode] → t.eos = s.eos ∧ t.ubyte = s.ubyte ∧ t.ubits = s.ubits) ∧
    (i ∉ [.clear, .leafPush, .build] → t.nextSeq = s.nextSeq ∧ t.q = s.q) ∧
    (i ∉ [.clear, .leafPush, .deserialize] → t.leaves = s.leaves) ∧
    (i ∉ [.clear, .leafPush, .build, .assign, .deserialize] → t.nodes = s.nodes) ∧
    (i ∉ [.clear, .push, .pushLeaf, .flush] → t.acc = s.acc ∧ t.pend = s.pend) ∧
    (i ∉ [.deserialize, .decode] → t.inp = s.inp) ∧
    (i ∉ [.serialize, .push, .pushLeaf, .flush, .decode] → t.out = s.out) ∧
    (t.err = false → i ≠ .clear → s.err = false ∧ t.errcode = s.errcode)

/-! ### Tree builder (41_tree_builder.md) -/

/-- R110: `LEAF_PUSH`, its leaf and its errors in order. -/
def Obligations.LeafPush : Prop :=
  ∀ s : State,
    (s.tree = true → exec .leafPush s = .next (s.failed 9#4)) ∧
    (s.tree = false → 16 < s.regs.symlen.toNat → exec .leafPush s = .next (s.failed 4#4)) ∧
    (s.tree = false → s.regs.symlen.toNat ≤ 16 → s.leaves.length = s.cfg.leafMax →
      exec .leafPush s = .next (s.failed 10#4)) ∧
    (s.tree = false → s.regs.symlen.toNat ≤ 16 → s.leaves.length ≠ s.cfg.leafMax →
      ∃ nd : Node,
        exec .leafPush s = .next
          { s with nodes := s.nodes ++ [nd], leaves := s.leaves ++ [s.nodes.length], q := s.q ++ [s.nodes.length]
                   nextSeq := s.nextSeq + 1, prog := .idle } ∧
        nd.kind = .leaf ∧ nd.sym.length = s.regs.symlen.toNat ∧
        (∀ i < s.regs.symlen.toNat, nd.sym[i]? = some (s.regs.symbyte i)) ∧
        nd.count = s.regs.count.toNat ∧ nd.seq = s.nextSeq ∧ nd.left = none ∧ nd.right = none ∧ nd.code = 0 ∧ nd.clen = 0)

/-- R37: `Q.extractMin()` removes and returns the index with the least key, which is unique where sequence numbers are. -/
def Obligations.ExtractMinLeast : Prop :=
  ∀ s : State, s.q ≠ [] →
    ∃ k ∈ s.q, extractMin s = some (k, { s with q := s.q.erase k }) ∧ (∀ j ∈ s.q, s.keyAtMost k j) ∧
      ((∀ a ∈ s.q, ∀ b ∈ s.q, (nodeAt s.nodes a).seq = (nodeAt s.nodes b).seq → a = b) →
        ∀ j ∈ s.q, (∀ l ∈ s.q, s.keyAtMost j l) → j = k)

/-- R111: `BUILD`, its errors in order and one turn of its loop: the node extracted first becomes left, the second right, and
with a single node left that node is the root. -/
def Obligations.BuildLoop : Prop :=
  ∀ s : State,
    (s.tree = true → exec .build s = .next (s.failed 9#4)) ∧
    (s.tree = false → s.q.length < 2 → exec .build s = .next (s.failed 1#4)) ∧
    (s.tree = false → 2 ≤ s.q.length →
      ∃ a ∈ s.q, (∀ j ∈ s.q, s.keyAtMost a j) ∧ ∃ b ∈ s.q.erase a, (∀ j ∈ s.q.erase a, s.keyAtMost b j) ∧
        ∃ s1 : State,
          s1 = { s with
            nodes := s.nodes ++
              [{ kind := .internal, sym := [], left := some a, right := some b, seq := s.nextSeq, code := 0, clen := 0
                 count := (nodeAt s.nodes a).count + (nodeAt s.nodes b).count }]
            nint := s.nint + 1, nextSeq := s.nextSeq + 1, q := (s.q.erase a).erase b ++ [s.nodes.length] } ∧
          (2 < s.q.length → exec .build s = exec .build s1) ∧
          (s.q.length = 2 → exec .build s = .next
            { s1 with q := [], root := some s.nodes.length, tree := true, codes := false, prog := .idle }))

/-- R111: `BUILD` completes from every state with `TREE` = 0 and two nodes on the queue; it adds records after the old ones and
leaves `NLEAF` and the rest alone. -/
def Obligations.BuildCompletes : Prop :=
  ∀ s : State, s.tree = false → 2 ≤ s.q.length →
    ∃ (more : List Node) (nint nextSeq root : Nat),
      exec .build s = .next
        { s with nodes := s.nodes ++ more, nint := nint, nextSeq := nextSeq, q := [], root := some root, tree := true
                 codes := false, prog := .idle } ∧
      ∀ nd ∈ more, nd.kind = .internal

/-- R114: the tree `BUILD` makes from pushed leaves: full, over every pushed leaf once, with NLEAF - 1 internal nodes, each count
the sum of its children's, and the root's the sum of all leaves'. -/
def Obligations.BuiltTreeProperties : Prop :=
  ∀ s : State, Inv s → s.prog = .start → s.tree = false → 2 ≤ s.leaves.length →
    ∃ (t : State) (T : Tree), exec .build s = .next t ∧ t.HasTree T ∧ T.isNode = true ∧ T.Sums t.nodes ∧
      T.leafIdx.Perm s.leaves ∧ T.leafIdx.Nodup ∧ t.nint + 1 = s.leaves.length ∧
      t.nodes.length = 2 * s.leaves.length - 1 ∧
      (nodeAt t.nodes T.idx).count = (s.leaves.map fun k => (nodeAt s.nodes k).count).sum ∧
      (∀ k ∈ s.leaves, nodeAt t.nodes k = nodeAt s.nodes k) ∧ t.leaves = s.leaves

/-- R114(e): the tree is a function of the sequence of (symbol, count) pairs in push order. -/
def Obligations.BuildDependsOnPushSequence : Prop :=
  ∀ s s' t t' : State, Inv s → Inv s' → s.prog = .start → s'.prog = .start → s.tree = false → s'.tree = false →
    (s.nodes.map fun nd => (nd.sym, nd.count)) = (s'.nodes.map fun nd => (nd.sym, nd.count)) →
    exec .build s = .next t → exec .build s' = .next t' →
    t.nodes.map Node.place = t'.nodes.map Node.place ∧ t.root = t'.root ∧ t.leaves = t'.leaves

/-- R113: `LEAF_READ` copies leaf `ARG` into the operand registers, or raises `IndexOutOfRange` (code 11). -/
def Obligations.LeafRead : Prop :=
  ∀ s : State,
    (s.leaves.length ≤ s.regs.arg.toNat → exec .leafRead s = .next (s.failed 11#4)) ∧
    (∀ k nd, s.leaves[s.regs.arg.toNat]? = some k → s.nodes[k]? = some nd → NodeOk nd → nd.kind = .leaf →
      ∃ r : Operands, exec .leafRead s = .next { s with regs := r, prog := .idle } ∧
        r.arg = s.regs.arg ∧ r.symlen.toNat = nd.sym.length ∧ (∀ i < 16, r.symbyte i = nd.sym.getD i 0) ∧
        r.count.toNat = nd.count ∧
        (s.codes = true → r.codeOp = nd.code ∧ r.codelen.toNat = nd.clen) ∧
        (s.codes = false → r.codeLo = 0 ∧ r.codeHi = 0 ∧ r.codelen = 0))

/-! ### Code assigner (42_code_assigner.md) -/

/-- R130, R131: `ASSIGN` gives every node of a tree no deeper than 64 the code of its path, the first branch most significant, and
`MAXLEN` then reads the tree's depth. -/
def Obligations.AssignGivesPathCodes : Prop :=
  ∀ (s : State) (T : Tree), s.tree = true → s.HasTree T → T.depth ≤ 64 →
    ∃ nodes : List Node, exec .assign s = .next { s with nodes := nodes, codes := true, prog := .idle } ∧
      nodes.length = s.nodes.length ∧
      (∀ (k : Nat) (nd : Node), s.nodes[k]? = some nd → ∃ c l, nodes[k]? = some { nd with code := c, clen := l }) ∧
      (∀ e ∈ T.paths, (nodeAt nodes e.1).clen = e.2.length ∧ (nodeAt nodes e.1).code.toNat = pathValue e.2 ∧
        codeBits nodes e.1 = e.2) ∧
      ({ s with nodes := nodes, codes := true, prog := .idle }.regValue 0x4C).toNat = T.depth

/-- R130, R206: `ASSIGN` on a tree deeper than 64 raises `CodeOverflow` (code 2); `CODES` and `MAXLEN` are 0, the tree is
unchanged, and the nodes' codes are any value (free values, log 6). -/
def Obligations.AssignOverflow : Prop :=
  ∀ (s : State) (T : Tree), s.tree = true → s.HasTree T → 64 < T.depth →
    ∃ nodes : List Node,
      exec .assign s = .next ({ s with nodes := nodes, codes := false, draws := s.draws + 1 }.failed 2#4) ∧
      nodes.length = s.nodes.length ∧
      (∀ (k : Nat) (nd : Node), s.nodes[k]? = some nd → ∃ c l, nodes[k]? = some { nd with code := c, clen := l }) ∧
      ({ s with nodes := nodes, codes := false, draws := s.draws + 1 }.failed 2#4).regValue 0x4C = 0

/-- R132: after `ASSIGN`, no leaf's code is a prefix of another leaf's code. -/
def Obligations.PrefixFreeCodes : Prop :=
  ∀ s t : State, Inv s → s.prog = .start → s.err = false → exec .assign s = .next t → t.err = false →
    ∀ a ∈ t.leaves, ∀ b ∈ t.leaves, a ≠ b → ¬ codeBits t.nodes a <+: codeBits t.nodes b

/-- R133: after `BUILD` of two leaves and `ASSIGN`, the leaf extracted first has code (0, 1) and the other (1, 1). -/
def Obligations.TwoLeafCodes : Prop :=
  ∀ (s : State) (a b : Nat), Inv s → s.prog = .start → s.err = false → s.tree = false → s.q = [a, b] →
    ∃ t u, exec .build s = .next t ∧ exec .assign t = .next u ∧ u.codes = true ∧
      ∃ first ∈ [a, b], ∃ other ∈ [a, b], first ≠ other ∧ s.keyAtMost first other ∧
        (nodeAt u.nodes first).code = 0 ∧ (nodeAt u.nodes first).clen = 1 ∧
        (nodeAt u.nodes other).code = 1 ∧ (nodeAt u.nodes other).clen = 1

/-! ### Tree codec (43_tree_codec.md) -/

/-- R140: `SERIALIZE` appends exactly the tree's pre-order bytes to `OUT`, changing nothing else; while the sink makes it wait, the
accepted bytes are on `OUT` and the rest is still to offer. -/
def Obligations.Serialize : Prop :=
  ∀ s : State,
    (s.tree = false → exec .serialize s = .next (s.failed 9#4)) ∧
    (∀ T : Tree, s.tree = true → s.HasTree T →
      T.ser.length + 1 = 2 * s.leaves.length + (s.leaves.map fun k => (nodeAt s.nodes k).sym.length).sum ∧
      (s.out.room = none →
        exec .serialize s = .next { s with out := { bytes := s.out.bytes ++ T.ser, room := none }, prog := .idle }) ∧
      (∀ n, s.out.room = some n → T.ser.length ≤ n →
        exec .serialize s =
          .next { s with out := { bytes := s.out.bytes ++ T.ser, room := some (n - T.ser.length) }, prog := .idle }) ∧
      (∀ n, s.out.room = some n → n < T.ser.length →
        exec .serialize s =
          .next { s with out := { bytes := s.out.bytes ++ T.ser.take n, room := some 0 }, prog := .emit (T.ser.drop n) }))

/-- R141: `DESERIALIZE` of the bytes of a tree within capacity makes that tree the current one, its leaves in pre-order, every count
0, and consumes exactly its bytes. -/
def Obligations.DeserializeReadsTree : Prop :=
  ∀ (s : State) (T : Tree) (more : List Byte), Inv s → s.prog = .start → s.err = false → phaseOk .deserialize s = true →
    T.isNode = true → T.symbolsFit = true → T.leafIdx.length ≤ s.cfg.leafMax → s.inp.avail = T.ser ++ more →
    ∃ (nodes : List Node) (leaves : List Nat) (nint : Nat) (T' : Tree),
      exec .deserialize s = .next
        { s with nodes := nodes, leaves := leaves, nint := nint, root := some T'.idx, tree := true, codes := false, prog := .idle
                 inp := { s.inp with taken := s.inp.taken ++ T.ser, avail := more } } ∧
      { s with nodes := nodes, leaves := leaves, nint := nint, root := some T'.idx, tree := true }.HasTree T' ∧
      T.sameShape T' = true ∧ T'.indices = List.range nodes.length ∧ leaves = T'.leafIdx ∧ ∀ nd ∈ nodes, nd.count = 0

/-- R141: malformed input. An illegal length byte raises `SymbolTooLarge` (code 4) and nothing after it is read; a single leaf
raises `InsufficientAlphabet` (code 1); more than LEAF_MAX - 1 internal nodes raise `CapacityExceeded` (code 10). -/
def Obligations.DeserializeMalformed : Prop :=
  ∀ (s : State) (more : List Byte), Inv s → s.prog = .start → s.err = false → phaseOk .deserialize s = true →
    (∀ (n : Nat) (b : Byte), n < s.cfg.leafMax → 0x11 ≤ b.toNat → b.toNat ≤ 0xFE →
      s.inp.avail = List.replicate n 0xFF#8 ++ b :: more →
      exec .deserialize s = .next ({ s with
        inp := { s.inp with taken := s.inp.taken ++ (List.replicate n 0xFF#8 ++ [b]), avail := more } }.failed 4#4)) ∧
    (∀ (L : Tree) (b : Byte), L.symbolsFit = true → L.leafIdx.length < s.cfg.leafMax → 0x11 ≤ b.toNat → b.toNat ≤ 0xFE →
      s.inp.avail = 0xFF#8 :: (L.ser ++ b :: more) →
      exec .deserialize s = .next ({ s with
        inp := { s.inp with taken := s.inp.taken ++ 0xFF#8 :: (L.ser ++ [b]), avail := more } }.failed 4#4)) ∧
    (∀ sym : List Byte, sym.length ≤ 16 → s.inp.avail = BitVec.ofNat 8 sym.length :: (sym ++ more) →
      exec .deserialize s = .next ({ s with
        inp := { s.inp with taken := s.inp.taken ++ BitVec.ofNat 8 sym.length :: sym, avail := more } }.failed 1#4)) ∧
    (s.inp.avail = List.replicate s.cfg.leafMax 0xFF#8 ++ more →
      exec .deserialize s = .next ({ s with
        inp := { s.inp with taken := s.inp.taken ++ List.replicate s.cfg.leafMax 0xFF#8, avail := more } }.failed 10#4))

/-- R141, R67: on a part of a tree's bytes, `DESERIALIZE` raises `TruncatedTree` (code 3) when the source has ended, and waits with
every byte consumed when it has not. -/
def Obligations.DeserializeTruncatedOrWaiting : Prop :=
  ∀ (s : State) (T : Tree) (part rest : List Byte), Inv s → s.prog = .start → s.err = false → phaseOk .deserialize s = true →
    T.symbolsFit = true → T.leafIdx.length ≤ s.cfg.leafMax → T.ser = part ++ rest → rest ≠ [] → s.inp.avail = part →
    (s.inp.ended = true →
      exec .deserialize s = .next ({ s with
        inp := { s.inp with taken := s.inp.taken ++ part, avail := [] } }.failed 3#4)) ∧
    (s.inp.ended = false →
      ∃ nodes leaves nint frames want,
        exec .deserialize s = .next { s with
          nodes := nodes, leaves := leaves, nint := nint, prog := .deser frames want
          inp := { s.inp with taken := s.inp.taken ++ part, avail := [] } })

/-- R206: after any error of `DESERIALIZE`, at its start or after a wait, the node store, `LEAVES`, `NINT` and `ROOT` are empty,
`TREE` and `CODES` are 0, the bytes read stay consumed and nothing else changes. -/
def Obligations.DeserializeErrorState : Prop :=
  ∀ s t : State, Inv s →
    (s.prog = .start ∧ s.err = false ∧ s.cur = 0x00000031#32 ∧ phaseOk .deserialize s = true) ∨
      (∃ frames want, s.prog = .deser frames want) →
    resume s = .next t → t.err = true →
    ∃ consumed rest, s.inp.avail = consumed ++ rest ∧
      t = { s with nodes := [], nint := 0, leaves := [], root := none, tree := false, codes := false
                   inp := { s.inp with taken := s.inp.taken ++ consumed, avail := rest } }.failed t.errcode ∧
      t.errcode ∈ [1#4, 3#4, 4#4, 10#4]

/-- R142: the round trip. `SERIALIZE`, `CLEAR`, `DESERIALIZE` gives a tree of the same shape and symbols, every count 0, leaf indices
in pre-order and `CODES` = 0, and `ASSIGN` then gives corresponding leaves equal codes. -/
def Obligations.CodecRoundTrip : Prop :=
  ∀ (s : State) (T : Tree) (more : List Byte) (ended : Bool), Inv s → s.prog = .start → s.err = false → s.tree = true → s.HasTree T →
    s.out.room = none →
    ∃ (S : List Byte) (t u v : State) (T' : Tree),
      exec .serialize s = .next t ∧ t.out.bytes = s.out.bytes ++ S ∧ exec .clear t = .next u ∧
      exec .deserialize { u with inp := { taken := [], avail := S ++ more, ended := ended } } = .next v ∧
      v.err = false ∧ v.tree = true ∧ v.codes = false ∧ v.inp = { taken := S, avail := more, ended := ended } ∧
      v.HasTree T' ∧ T.sameShape T' = true ∧ v.leaves = T'.leafIdx ∧ (∀ nd ∈ v.nodes, nd.count = 0) ∧
      ∀ a, exec .assign s = .next a → a.err = false →
        ∃ b, exec .assign v = .next b ∧ b.err = false ∧
          T.leafIdx.map (codeBits a.nodes) = T'.leafIdx.map (codeBits b.nodes)

/-- R143: no well-formed serialization is a proper prefix of another. -/
def Obligations.SerializedFormSelfDelimiting : Prop :=
  ∀ T U : Tree, T.symbolsFit = true → U.symbolsFit = true → T.ser <+: U.ser → T.ser = U.ser ∧ T.sameShape U = true

/-! ### Bit packer (44_bit_packer.md) -/

/-- R160: `PUSH` appends the low `CODELEN` bits of the code, most significant first, emits every complete byte, and leaves fewer
than 8 bits pending; a length above 64 or beyond the capacity raises `CodeOverflow` (code 2). -/
def Obligations.Push : Prop :=
  ∀ s : State,
    (64 < s.regs.codelen.toNat → exec .push s = .next (s.failed 2#4)) ∧
    (s.regs.codelen.toNat ≤ 64 → s.cfg.accCap < s.pend + s.regs.codelen.toNat → exec .push s = .next (s.failed 2#4)) ∧
    (s.regs.codelen.toNat ≤ 64 → s.pend + s.regs.codelen.toNat ≤ s.cfg.accCap → s.acc < 2 ^ s.pend → s.out.room = none →
      ∃ bytes acc pend,
        exec .push s = .next
          { s with acc := acc, pend := pend, out := { bytes := s.out.bytes ++ bytes, room := none }, prog := .idle } ∧
        streamBits bytes ++ bitsOf pend acc = s.pendingBits ++ bitsOf s.regs.codelen.toNat s.regs.codeOp.toNat ∧
        pend < 8 ∧ acc < 2 ^ pend ∧ bytes.length = (s.pend + s.regs.codelen.toNat) / 8)

/-- R161: `PUSH_LEAF` appends the assigned code of leaf `ARG` as `PUSH` does, with its errors in order. -/
def Obligations.PushLeaf : Prop :=
  ∀ s : State,
    (s.codes = false → exec .pushLeaf s = .next (s.failed 9#4)) ∧
    (s.codes = true → s.leaves.length ≤ s.regs.arg.toNat → exec .pushLeaf s = .next (s.failed 11#4)) ∧
    (∀ k nd, s.codes = true → s.leaves[s.regs.arg.toNat]? = some k → s.nodes[k]? = some nd →
      (s.cfg.accCap < s.pend + nd.clen → exec .pushLeaf s = .next (s.failed 2#4)) ∧
      (s.pend + nd.clen ≤ s.cfg.accCap → s.acc < 2 ^ s.pend → s.out.room = none →
        ∃ bytes acc pend,
          exec .pushLeaf s = .next
            { s with acc := acc, pend := pend, out := { bytes := s.out.bytes ++ bytes, room := none }, prog := .idle } ∧
          streamBits bytes ++ bitsOf pend acc = s.pendingBits ++ bitsOf nd.clen nd.code.toNat ∧
          pend < 8 ∧ acc < 2 ^ pend ∧ bytes.length = (s.pend + nd.clen) / 8))

/-- R163: at `ACC_CAP` = 64 a push of length L fails exactly when `PEND` + L > 64, so lengths 0 to 57 never fail; with
`ACC_CAP` at least 71 no legal length fails. -/
def Obligations.CapacityCheckReachability : Prop :=
  ∀ (i : Instr) (s t : State) (len : Nat), s.pend ≤ 7 → s.err = false → len ≤ 64 →
    ((i = .push ∧ len = s.regs.codelen.toNat) ∨
      (i = .pushLeaf ∧ s.codes = true ∧
        ∃ k nd, s.leaves[s.regs.arg.toNat]? = some k ∧ s.nodes[k]? = some nd ∧ len = nd.clen)) →
    exec i s = .next t →
    (s.cfg.accCap = 64 → (t.err = true ↔ 64 < s.pend + len)) ∧
    (s.cfg.accCap = 64 → len ≤ 57 → t.err = false) ∧
    (71 ≤ s.cfg.accCap → t.err = false)

/-- R162: `FLUSH` emits the pending bits as one byte, zeros below them, if any are pending, and resets the accumulator. -/
def Obligations.Flush : Prop :=
  ∀ s : State, s.pend ≤ 7 → s.out.room = none →
    (s.pend = 0 → exec .flush s = .next { s with acc := 0, pend := 0, prog := .idle }) ∧
    (0 < s.pend → ∃ b : Byte,
      exec .flush s = .next
        { s with acc := 0, pend := 0, out := { bytes := s.out.bytes ++ [b], room := none }, prog := .idle } ∧
      bitsOf 8 b.toNat = s.pendingBits ++ List.replicate (8 - s.pend) false)

/-- R164: the stream law. Codes pushed from an empty accumulator and then flushed are on `OUT`, in order, in the fewest bytes that
hold them, followed by 0 to 7 zero bits. -/
def Obligations.StreamLaw : Prop :=
  ∀ (codes : List (List Bool)) (s t : State), s.pend = 0 → s.acc = 0 → s.out.room = none → Packs codes s t →
    ∃ (u : State) (bytes : List Byte) (padding : Nat), exec .flush t = .next u ∧ u.out.bytes = s.out.bytes ++ bytes ∧
      streamBits bytes = codes.flatten ++ List.replicate padding false ∧ padding ≤ 7 ∧
      bytes.length = (codes.flatten.length + 7) / 8 ∧ u.pend = 0 ∧ u.prog = .idle

/-! ### Bit unpacker and decoder (45_bit_unpacker.md) -/

/-- R180: `DECODE` walks the tree along the bits, writes each non-sentinel leaf's symbol and ends at the first sentinel, the rest of
its byte discarded, the bytes after it unread. -/
def Obligations.DecodeFollowsPaths : Prop :=
  ∀ (s : State) (T : Tree) (leaves : List (Nat × List Byte × List Bool)) (z : Nat × List Byte × List Bool)
    (bytes more : List Byte) (padding : List Bool),
    s.tree = true → s.HasTree T → T.isNode = true → s.ubits ≤ 8 → s.out.room = none →
    (∀ e ∈ leaves, e ∈ T.entries ∧ e.2.1 ≠ []) → z ∈ T.entries → z.2.1 = [] →
    s.unreadBits ++ streamBits bytes = entryPaths leaves ++ z.2.2 ++ padding → padding.length < 8 →
    s.inp.avail = bytes ++ more →
    ∃ ubyte, exec .decode s = .next
      { s with eos := true, ubyte := ubyte, ubits := 0, prog := .idle
               inp := { s.inp with taken := s.inp.taken ++ bytes, avail := more }
               out := { bytes := s.out.bytes ++ entrySymbols leaves, room := none } }

/-- R180, R206: when the bits run out before a sentinel, `DECODE` raises `UnexpectedEndOfInput` (code 5) if the source has ended,
and waits if it has not; the symbols decoded so far are on `OUT`. -/
def Obligations.DecodeOutOfBits : Prop :=
  ∀ (s : State) (T : Tree) (leaves : List (Nat × List Byte × List Bool)) (walk : List Bool),
    s.tree = true → s.HasTree T → T.isNode = true → s.ubits ≤ 8 → s.out.room = none →
    (∀ e ∈ leaves, e ∈ T.entries ∧ e.2.1 ≠ []) → (∃ e ∈ T.entries, walk <+: e.2.2 ∧ walk ≠ e.2.2) →
    s.unreadBits ++ streamBits s.inp.avail = entryPaths leaves ++ walk →
    ∃ ubyte,
      (s.inp.ended = true →
        exec .decode s = .next ({ s with
          eos := false, ubyte := ubyte, ubits := 0
          inp := { s.inp with taken := s.inp.taken ++ s.inp.avail, avail := [] }
          out := { bytes := s.out.bytes ++ entrySymbols leaves, room := none } }.failed 5#4)) ∧
      (s.inp.ended = false →
        ∃ n, (n, walk) ∈ T.paths ∧ exec .decode s = .next { s with
          eos := false, ubyte := ubyte, ubits := 0, prog := .decode n []
          inp := { s.inp with taken := s.inp.taken ++ s.inp.avail, avail := [] }
          out := { bytes := s.out.bytes ++ entrySymbols leaves, room := none } })

/-- R182: decode inverts encode. The codes of non-sentinel leaves and then of a sentinel, packed and flushed, are decoded on a tree of
the same shape and symbols to those leaves' symbols, ending with `EOS` = 1 and exactly those bytes consumed. -/
def Obligations.DecodeInvertsEncode : Prop :=
  ∀ (e f g d : State) (T T' : Tree) (leaves : List Nat) (z : Nat) (bytes more : List Byte),
    Inv e → e.prog = .idle → e.codes = true → e.HasTree T → e.pend = 0 → e.out.room = none →
    (∀ k ∈ leaves, k ∈ e.leaves ∧ (nodeAt e.nodes k).sym ≠ []) → z ∈ e.leaves → (nodeAt e.nodes z).sym = [] →
    Packs (leaves.map (codeBits e.nodes) ++ [codeBits e.nodes z]) e f → exec .flush f = .next g →
    g.out.bytes = e.out.bytes ++ bytes →
    d.tree = true → d.HasTree T' → T.sameShape T' = true → d.ubits = 0 → d.out.room = none → d.inp.avail = bytes ++ more →
    ∃ ubyte, exec .decode d = .next
      { d with eos := true, ubyte := ubyte, ubits := 0, prog := .idle
               inp := { d.inp with taken := d.inp.taken ++ bytes, avail := more }
               out := { bytes := d.out.bytes ++ (leaves.flatMap fun k => (nodeAt e.nodes k).sym), room := none } }

/-! ### Waits and the whole machine (20_memory.md sections 4 and 5, 10_state.md section 3) -/

/-- R67: the pace of the source decides nothing. A command that waited for input and then receives more bytes, and perhaps the
end-marker, ends up where it would be had they been there from the start. -/
def Obligations.SourcePaceIrrelevant : Prop :=
  ∀ (i : Instr) (s t : State) (more : List Byte) (ended : Bool), s.inp.ended = false → exec i s = .next t → t.busy = true →
    i = .deserialize ∨ i = .decode →
    resume { t with inp := { t.inp with avail := t.inp.avail ++ more, ended := ended } } =
      exec i { s with inp := { s.inp with avail := s.inp.avail ++ more, ended := ended } }

/-- R68: the pace of the sink decides nothing. A command that waited, and then finds any room in the sink, ends up where it would be
had the sink had that much more room from the start; so a sink that gives room again and again decides nothing either. -/
def Obligations.SinkPaceIrrelevant : Prop :=
  ∀ (i : Instr) (s t : State), exec i s = .next t → t.busy = true →
    ∃ sent : List Byte, t.out.bytes = s.out.bytes ++ sent ∧
      ∀ room : Option Nat,
        resume { t with out := { t.out with room := room } } =
          exec i { s with out := { s.out with room := room.map (sent.length + ·) } }

/-- R67, R68, R69, R244: what each move of the environment does to the streams' ports, the model's refusals among them (logs 11, 22,
26, 27); and in a step `IN` is taken from its front and `OUT` only grows, but where the host rewinds or swaps an endpoint. The parameters
never change. -/
def Obligations.StreamsMoveForward : Prop :=
  (∀ (s : State) (rest : List Event), s.coreMoves = false →
    (∀ bytes, s.events = .deliver bytes :: rest →
      (s.inp.ended = false →
        step s = .next { s with events := rest, inp := { s.inp with avail := s.inp.avail ++ bytes } }) ∧
      (s.inp.ended = true → step s = .refused .deliveryAfterEnd)) ∧
    (s.events = .endInput :: rest → step s = .next { s with events := rest, inp := { s.inp with ended := true } }) ∧
    (s.events = .rewind :: rest →
      (s.busy = true ∧ (s.cur = 0x00000031#32 ∨ s.cur = 0x00000050#32) → step s = .refused .streamChangeWhileBusy) ∧
      (¬ (s.busy = true ∧ (s.cur = 0x00000031#32 ∨ s.cur = 0x00000050#32)) →
        step s = .next { s with events := rest, inp := ⟨[], s.inp.taken ++ s.inp.avail, s.inp.ended⟩ })) ∧
    (s.events = .connectIn :: rest →
      (s.busy = true → step s = .refused .streamChangeWhileBusy) ∧
      (s.busy = false → step s = .next { s with events := rest, inp := ⟨[], [], false⟩ })) ∧
    (s.events = .connectOut :: rest →
      (s.busy = true → step s = .refused .streamChangeWhileBusy) ∧
      (s.busy = false → step s = .next { s with events := rest, out := ⟨[], none⟩ })) ∧
    (∀ n, s.events = .sinkRoom n :: rest → step s = .next { s with events := rest, out := { s.out with room := n } }) ∧
    (∀ on, s.events = .stall on :: rest → step s = .next { s with events := rest, stalled := on })) ∧
  (∀ s t : State, step s = .next t →
    t.cfg = s.cfg ∧
    ((s.coreMoves = false ∧ ∃ rest, s.events = .rewind :: rest ∨ s.events = .connectIn :: rest) ∨
      ∃ taken delivered, s.inp.avail ++ delivered = taken ++ t.inp.avail ∧ t.inp.taken = s.inp.taken ++ taken) ∧
    ((s.coreMoves = false ∧ ∃ rest, s.events = .connectOut :: rest) ∨ ∃ bytes, t.out.bytes = s.out.bytes ++ bytes))

/-- R34: `CUR` holds the word of the running command; every step keeps that. -/
def Obligations.StepKeepsCurrentWord : Prop :=
  State.reset.curNamesCommand = true ∧
    ∀ s t : State, s.curNamesCommand = true → step s = .next t → t.curNamesCommand = true

/-- R42: the phase invariants, in every state of a safe run with `BUSY` = 0 and `ERR` = 0. -/
def Obligations.PhaseInvariants : Prop :=
  ∀ s : State, Inv s → s.busy = false → s.err = false →
    (s.tree = false → s.root = none ∧ s.nint = 0 ∧ s.nodes.length = s.leaves.length ∧ s.q = s.leaves ∧ s.codes = false ∧
      s.eos = false) ∧
    (s.tree = true → s.q = [] ∧ s.nint + 1 = s.leaves.length ∧ 2 ≤ s.leaves.length ∧
      ∃ T : Tree, s.HasTree T ∧ T.isNode = true) ∧
    (s.codes = true → s.tree = true) ∧ (s.tree = false → s.ubits = 0) ∧ s.pend ≤ 7

/-- From a state of a safe run, every command answers a next state, and with a source that has ended and a sink that accepts every
byte it completes (R181, R201, R247). -/
def Obligations.EveryCommandCompletes : Prop :=
  ∀ (i : Instr) (s : State), Inv s → s.prog = .start → s.err = false →
    ∃ t, exec i s = .next t ∧ (s.inp.ended = true → s.out.room = none → t.prog = .idle)

/-- The state after reset meets the invariant of a safe run. -/
def Obligations.ResetMeetsInvariant : Prop := Inv State.reset

/-- Every step keeps the invariant of a safe run (R35 to R42, R202, R208). -/
def Obligations.StepKeepsInvariant : Prop := ∀ s t : State, Inv s → step s = .next t → Inv t

/-- No step from a state of a safe run faults: the model's four faults (log 15) are raised in no run. -/
def Obligations.NoFaultFromInvariant : Prop := ∀ s : State, Inv s → ∀ r, step s ≠ .fault r
end

