-- ==== Sys2Proof/Laws/Bits.lean ====
section
/-! SUPPORT. Bit strings (R13): splitting, joining and reading them off stream bytes. -/

namespace Sys2Proof.Machine

@[simp] theorem bitsOf_length (n v : Nat) : (bitsOf n v).length = n := by
  induction n with
  | zero => rfl
  | succ n ih => simp [bitsOf, ih]

theorem bitsOf_congr (n v w : Nat) (h : ∀ i < n, v.testBit i = w.testBit i) : bitsOf n v = bitsOf n w := by
  induction n with
  | zero => rfl
  | succ n ih => simp [bitsOf, h n (by omega), ih fun i hi => h i (by omega)]

/-- The high and the low part of a bit string. -/
theorem bitsOf_add (a b v : Nat) : bitsOf (a + b) v = bitsOf a (v >>> b) ++ bitsOf b v := by
  induction a with
  | zero => simp [bitsOf]
  | succ a ih =>
    rw [show a + 1 + b = (a + b) + 1 by omega]
    simp [bitsOf, ← ih, Nat.testBit_shiftRight, Nat.add_comm]

/-- Appending `b` bits below a bit string (R160). -/
theorem bitsOf_shift_or (a b x y : Nat) (hy : y < 2 ^ b) :
    bitsOf (a + b) ((x <<< b) ||| y) = bitsOf a x ++ bitsOf b y := by
  rw [bitsOf_add]
  congr 1
  · apply bitsOf_congr
    intro i _
    have : y.testBit (b + i) = false := Nat.testBit_lt_two_pow (lt_of_lt_of_le hy (Nat.pow_le_pow_right (by omega) (by omega)))
    simp [Nat.testBit_shiftRight, Nat.testBit_shiftLeft, this]
  · apply bitsOf_congr
    intro i hi
    simp [Nat.testBit_shiftLeft, Nat.not_le.mpr hi]

theorem bitsOf_mod (n v : Nat) : bitsOf n (v % 2 ^ n) = bitsOf n v := by
  apply bitsOf_congr
  intro i hi
  simp [Nat.testBit_mod_two_pow, hi]

@[simp] theorem streamBits_nil : streamBits [] = [] := rfl

@[simp] theorem streamBits_append (a b : List Byte) : streamBits (a ++ b) = streamBits a ++ streamBits b := by
  simp [streamBits]

@[simp] theorem streamBits_cons (b : Byte) (bs : List Byte) : streamBits (b :: bs) = bitsOf 8 b.toNat ++ streamBits bs := by
  simp [streamBits]

/-- Eight bits a byte (R63). -/
theorem streamBits_length (bs : List Byte) : (streamBits bs).length = 8 * bs.length := by
  induction bs with
  | nil => rfl
  | cons b bs ih => rw [streamBits_cons, List.length_append, ih, bitsOf_length, List.length_cons]; omega

/-- A value below 2^a shifted up and joined with a value below 2^b stays below 2^(a+b). -/
theorem shift_or_lt (a b x y : Nat) (hx : x < 2 ^ a) (hy : y < 2 ^ b) : (x <<< b) ||| y < 2 ^ (a + b) := by
  apply Nat.or_lt_two_pow
  · rw [Nat.shiftLeft_eq, Nat.pow_add]
    exact Nat.mul_lt_mul_of_pos_right hx (by positivity)
  · exact lt_of_lt_of_le hy (Nat.pow_le_pow_right (by omega) (by omega))

end Sys2Proof.Machine
end

