-- ==== Sys2Proof/Laws/Packer.lean ====
section
/-! SUPPORT. The bit packer: what the emission loop, `append` and `FLUSH` can do (R160 to R164). -/

namespace Sys2Proof.Machine

/-- What `OutWrite` does when the sink accepts (R68). -/
theorem outWrite_some {b : Byte} {s t : State} (h : outWrite b s = some t) :
    ∃ room, t = { s with out := { bytes := s.out.bytes ++ [b], room := room } } ∧ (s.out.room = none → room = none) := by
  unfold outWrite at h
  split at h
  · rename_i hr
    cases h
    exact ⟨none, by simp [hr], fun _ => rfl⟩
  · simp at h
  · rename_i n hr
    cases h
    exact ⟨some n, rfl, by simp [hr]⟩

theorem outWrite_none {b : Byte} {s : State} (h : outWrite b s = none) : s.out.room = some 0 := by
  unfold outWrite at h
  split at h <;> simp_all

theorem outWrite_open (b : Byte) (s : State) (h : s.out.room = none) :
    outWrite b s = some { s with out := { s.out with bytes := s.out.bytes ++ [b] } } := by
  simp [outWrite, h]

/-- The 8 oldest pending bits as a byte (R160). -/
theorem oldestByte_bits (s : State) (h : 8 ≤ s.pend) :
    bitsOf s.pend s.acc = bitsOf 8 (oldestByte s).toNat ++ bitsOf (s.pend - 8) (s.acc % 2 ^ (s.pend - 8)) := by
  rw [show s.pend = 8 + (s.pend - 8) by omega, bitsOf_add, bitsOf_mod, ← show s.pend = 8 + (s.pend - 8) by omega]
  congr 1
  rw [← bitsOf_mod]
  simp [oldestByte, BitVec.toNat_ofNat]

/-- Everything the emission loop can do (R160, R68): it keeps the bit string "bytes on `OUT`, then pending bits", and ends with fewer
than 8 bits pending or waits for the sink. -/
theorem packLoop_spec (fuel : Nat) (s : State) (hf : s.pend ≤ fuel) (hacc : s.acc < 2 ^ s.pend) :
    ∃ bs room prog pend acc,
      packLoop fuel s = { s with prog := prog, pend := pend, acc := acc, out := { bytes := s.out.bytes ++ bs, room := room } } ∧
      streamBits bs ++ bitsOf pend acc = bitsOf s.pend s.acc ∧ acc < 2 ^ pend ∧ pend ≤ s.pend ∧
      ((prog = .idle ∧ pend < 8) ∨ (prog = .pack ∧ room = some 0)) ∧ (s.out.room = none → room = none) := by
  induction fuel generalizing s with
  | zero =>
    refine ⟨[], s.out.room, .idle, s.pend, s.acc, ?_, by simp, hacc, le_rfl, .inl ⟨rfl, by omega⟩, id⟩
    simp [packLoop, finish]
  | succ n ih =>
    rw [packLoop]
    split
    · rename_i h8
      split
      · rename_i hw
        refine ⟨[], s.out.room, .pack, s.pend, s.acc, by simp, by simp, hacc, le_rfl, .inr ⟨rfl, outWrite_none hw⟩, id⟩
      · rename_i s1 hw
        obtain ⟨room1, rfl, hroom1⟩ := outWrite_some hw
        obtain ⟨bs, room, prog, pend, acc, heq, hbits, hacc', hp, hend, hroom⟩ :=
          ih { s with out := { bytes := s.out.bytes ++ [oldestByte s], room := room1 }
                      pend := s.pend - 8, acc := s.acc % 2 ^ (s.pend - 8) }
            (by show s.pend - 8 ≤ n; omega) (Nat.mod_lt _ (by positivity))
        refine ⟨oldestByte s :: bs, room, prog, pend, acc, ?_, ?_, hacc', ?_, hend, fun h => hroom (hroom1 h)⟩
        · rw [heq]; simp
        · rw [oldestByte_bits s h8, streamBits_cons, List.append_assoc, hbits]
        · simp only at hp; omega
    · rename_i h8
      refine ⟨[], s.out.room, .idle, s.pend, s.acc, ?_, by simp, hacc, le_rfl, .inl ⟨rfl, by omega⟩, id⟩
      simp [finish]

/-- `append`'s accumulator holds the old bits and then the new ones (R160). -/
theorem appendBits_spec (c : Code) (len : Nat) (s : State) (hacc : s.acc < 2 ^ s.pend) :
    bitsOf (appendBits c len s).pend (appendBits c len s).acc = bitsOf s.pend s.acc ++ bitsOf len c.toNat ∧
      (appendBits c len s).acc < 2 ^ (appendBits c len s).pend := by
  have hlt : c.toNat % 2 ^ len < 2 ^ len := Nat.mod_lt _ (by positivity)
  refine ⟨?_, shift_or_lt _ _ _ _ hacc hlt⟩
  rw [show (appendBits c len s).pend = s.pend + len from rfl, show (appendBits c len s).acc = (s.acc <<< len) ||| (c.toNat % 2 ^ len) from rfl,
    bitsOf_shift_or _ _ _ _ hlt, bitsOf_mod]

/-- Everything `append` can do (R160): `CodeOverflow` with nothing changed, or the new bits join the bit string. -/
theorem append_spec (c : Code) (len : Nat) (s : State) (hacc : s.acc < 2 ^ s.pend) :
    (s.cfg.accCap < s.pend + len ∧ append c len s = .next (raise .codeOverflow s)) ∨
    (s.pend + len ≤ s.cfg.accCap ∧ ∃ bs room prog pend acc,
      append c len s = .next { s with prog := prog, pend := pend, acc := acc, out := { bytes := s.out.bytes ++ bs, room := room } } ∧
      streamBits bs ++ bitsOf pend acc = bitsOf s.pend s.acc ++ bitsOf len c.toNat ∧ acc < 2 ^ pend ∧ pend ≤ s.pend + len ∧
      ((prog = .idle ∧ pend < 8) ∨ (prog = .pack ∧ room = some 0)) ∧ (s.out.room = none → room = none)) := by
  unfold append
  split
  · exact .inl ⟨‹_›, rfl⟩
  · refine .inr ⟨by omega, ?_⟩
    obtain ⟨hb, hlt⟩ := appendBits_spec c len s hacc
    obtain ⟨bs, room, prog, pend, acc, heq, hbits, hacc', hp, hend, hroom⟩ :=
      packLoop_spec (appendBits c len s).pend (appendBits c len s) le_rfl hlt
    refine ⟨bs, room, prog, pend, acc, ?_, ?_, hacc', hp, hend, hroom⟩
    · rw [packRun, heq]; rfl
    · rw [hbits, hb]

/-- The pending bits and zeros below them make `FLUSH`'s byte (R162). -/
theorem paddedByte_bits (s : State) (h : s.pend ≤ 7) :
    bitsOf 8 (paddedByte s).toNat = bitsOf s.pend s.acc ++ List.replicate (8 - s.pend) false := by
  have hz : ∀ n, bitsOf n 0 = List.replicate n false := by
    intro n
    induction n with
    | zero => rfl
    | succ n ih => simp [bitsOf, ih, List.replicate_succ]
  rw [← hz, ← bitsOf_shift_or _ _ _ 0 (by positivity), show s.pend + (8 - s.pend) = 8 by omega, ← bitsOf_mod 8 (_ ||| 0)]
  simp [paddedByte, BitVec.toNat_ofNat]

end Sys2Proof.Machine
end

