-- ==== Sys2Proof/Laws/Store.lean ====
section
/-! SUPPORT. The tree a node store holds (R35, R42): what keeps it, and what reading it gives. -/

namespace Sys2Proof.Machine

/-- Two records agree on what makes up a tree: kind, symbol and children. -/
def Node.SameTree (a b : Node) : Prop := b.kind = a.kind ∧ b.sym = a.sym ∧ b.left = a.left ∧ b.right = a.right

/-- Every record of the list survives in the other store with the same place in the tree. -/
def KeepsTree (nodes nodes' : List Node) (ks : List Nat) : Prop :=
  ∀ k ∈ ks, ∀ nd, nodes[k]? = some nd → ∃ nd', nodes'[k]? = some nd' ∧ nd.SameTree nd'

@[simp] theorem Tree.idx_leaf (k : Nat) (sym : List Byte) : (Tree.leaf k sym).idx = k := rfl

@[simp] theorem Tree.idx_node (k : Nat) (l r : Tree) : (Tree.node k l r).idx = k := rfl

theorem Tree.idx_mem_indices (T : Tree) : T.idx ∈ T.indices := by
  cases T <;> simp [Tree.idx, Tree.indices]

theorem Tree.leafIdx_sub (T : Tree) : ∀ k ∈ T.leafIdx, k ∈ T.indices := by
  induction T with
  | leaf k sym => simp [Tree.leafIdx, Tree.indices]
  | node k l r ihl ihr =>
    simp only [Tree.leafIdx, Tree.indices, List.mem_append, List.mem_cons]
    rintro x (h | h)
    · exact .inr (.inl (ihl x h))
    · exact .inr (.inr (ihr x h))

theorem Tree.entries_idx (T : Tree) : T.entries.map (fun e => e.1) = T.leafIdx := by
  induction T with
  | leaf k sym => rfl
  | node k l r ihl ihr => simp [Tree.entries, Tree.leafIdx, ← ihl, ← ihr, Function.comp_def]

theorem Tree.paths_idx (T : Tree) : T.paths.map (fun e => e.1) = T.indices := by
  induction T with
  | leaf k sym => rfl
  | node k l r ihl ihr => simp [Tree.paths, Tree.indices, ← ihl, ← ihr, Function.comp_def]

/-- A leaf's entry names a node's path. -/
theorem Tree.entries_paths (T : Tree) : ∀ e ∈ T.entries, (e.1, e.2.2) ∈ T.paths := by
  induction T with
  | leaf k sym => simp [Tree.entries, Tree.paths]
  | node k l r ihl ihr =>
    intro e he
    simp only [Tree.entries, List.mem_append, List.mem_map] at he
    simp only [Tree.paths, List.mem_cons, List.mem_append, List.mem_map]
    rcases he with ⟨e', he', rfl⟩ | ⟨e', he', rfl⟩
    · exact .inr (.inl ⟨_, ihl e' he', rfl⟩)
    · exact .inr (.inr ⟨_, ihr e' he', rfl⟩)

/-- A tree is kept by a store that keeps its records. -/
theorem Tree.Holds.keep {nodes nodes' : List Node} {T : Tree} (h : T.Holds nodes)
    (k : KeepsTree nodes nodes' T.indices) : T.Holds nodes' := by
  induction T with
  | leaf i sym =>
    obtain ⟨nd, hnd, hk, hs⟩ := h
    obtain ⟨nd', h', hk', hs', -, -⟩ := k i (by simp [Tree.indices]) nd hnd
    exact ⟨nd', h', by rw [hk', hk], by rw [hs', hs]⟩
  | node i l r ihl ihr =>
    obtain ⟨⟨nd, hnd, hk, hl, hr⟩, hL, hR⟩ := h
    obtain ⟨nd', h', hk', -, hl', hr'⟩ := k i (by simp [Tree.indices]) nd hnd
    refine ⟨⟨nd', h', by rw [hk', hk], by rw [hl', hl], by rw [hr', hr]⟩, ihl hL ?_, ihr hR ?_⟩
    · exact fun j hj => k j (by simp [Tree.indices, hj])
    · exact fun j hj => k j (by simp [Tree.indices, hj])

/-- Every node of a held tree is allocated. -/
theorem Tree.Holds.lt {nodes : List Node} {T : Tree} (h : T.Holds nodes) : ∀ k ∈ T.indices, k < nodes.length := by
  induction T with
  | leaf i sym =>
    obtain ⟨nd, hnd, -, -⟩ := h
    simp only [Tree.indices, List.mem_singleton]
    rintro k rfl
    exact (List.getElem?_eq_some_iff.mp hnd).1
  | node i l r ihl ihr =>
    obtain ⟨⟨nd, hnd, -⟩, hL, hR⟩ := h
    simp only [Tree.indices, List.mem_cons, List.mem_append]
    rintro k (rfl | hk | hk)
    · exact (List.getElem?_eq_some_iff.mp hnd).1
    · exact ihl hL k hk
    · exact ihr hR k hk

/-- Rewriting a record outside the list, or inside it without touching its place in the tree, keeps the list's records. -/
theorem KeepsTree.modify {nodes : List Node} {ks : List Nat} (i : Nat) (f : Node → Node)
    (h : i ∈ ks → ∀ nd, nodes[i]? = some nd → nd.SameTree (f nd)) : KeepsTree nodes (nodes.modify i f) ks := by
  intro k hk nd hnd
  rw [List.getElem?_modify]
  by_cases hik : i = k
  · subst hik
    exact ⟨f nd, by simp [hnd], h hk nd hnd⟩
  · exact ⟨nd, by simp [hnd, hik], rfl, rfl, rfl, rfl⟩

theorem KeepsTree.append {nodes : List Node} {ks : List Nat} (more : List Node) : KeepsTree nodes (nodes ++ more) ks := by
  intro k _ nd hnd
  exact ⟨nd, by rw [List.getElem?_append_left (List.getElem?_eq_some_iff.mp hnd).1, hnd], rfl, rfl, rfl, rfl⟩

theorem KeepsTree.trans {a b c : List Node} {ks : List Nat} (h₁ : KeepsTree a b ks) (h₂ : KeepsTree b c ks) :
    KeepsTree a c ks := by
  intro k hk nd hnd
  obtain ⟨nd', h', e⟩ := h₁ k hk nd hnd
  obtain ⟨nd'', h'', e'⟩ := h₂ k hk nd' h'
  exact ⟨nd'', h'', by rw [e'.1, e.1], by rw [e'.2.1, e.2.1], by rw [e'.2.2.1, e.2.2.1], by rw [e'.2.2.2, e.2.2.2]⟩

theorem KeepsTree.mono {a b : List Node} {ks ks' : List Nat} (h : KeepsTree a b ks) (sub : ∀ k ∈ ks', k ∈ ks) :
    KeepsTree a b ks' := fun k hk => h k (sub k hk)

theorem nodeAt_of_some {nodes : List Node} {k : Nat} {nd : Node} (h : nodes[k]? = some nd) : nodeAt nodes k = nd := by
  simp [nodeAt, List.getD, h]

theorem nodeAt_modify (nodes : List Node) (i k : Nat) (f : Node → Node) (hk : k < nodes.length) :
    nodeAt (nodes.modify i f) k = if i = k then f (nodeAt nodes k) else nodeAt nodes k := by
  simp only [nodeAt, List.getD, List.getElem?_modify, List.getElem?_eq_getElem hk]
  split <;> simp

theorem nodeAt_append_left (nodes more : List Node) (k : Nat) (hk : k < nodes.length) :
    nodeAt (nodes ++ more) k = nodeAt nodes k := by
  simp [nodeAt, List.getD, List.getElem?_append_left hk]

theorem nodeAt_append_new (nodes : List Node) (nd : Node) : nodeAt (nodes ++ [nd]) nodes.length = nd := by
  simp [nodeAt, List.getD]

/-! ### Size and depth -/

theorem Tree.depth_lt_length (T : Tree) : T.depth < T.indices.length := by
  induction T with
  | leaf k sym => simp [Tree.depth, Tree.indices]
  | node k l r ihl ihr => simp only [Tree.depth, Tree.indices, List.length_cons, List.length_append]; omega

theorem State.HasTree.depth_lt {s : State} {T : Tree} (h : s.HasTree T) : T.depth < s.nodes.length := by
  have := h.nodes.length_eq
  rw [List.length_range] at this
  exact this ▸ T.depth_lt_length

theorem State.HasTree.nodup {s : State} {T : Tree} (h : s.HasTree T) : T.indices.Nodup :=
  h.nodes.nodup_iff.mpr List.nodup_range

/-! ### Serializing a held tree (R140) -/

theorem serBytes_of_holds {nodes : List Node} {T : Tree} (h : T.Holds nodes) (fuel : Nat) (hf : T.depth < fuel) :
    serBytes fuel nodes T.idx = some T.ser := by
  induction T generalizing fuel with
  | leaf k sym =>
    obtain ⟨nd, hnd, hk, hs⟩ := h
    obtain ⟨n, rfl⟩ : ∃ n, fuel = n + 1 := ⟨fuel - 1, by omega⟩
    simp [serBytes, hnd, hk, hs, Tree.ser, Node.symlen]
  | node k l r ihl ihr =>
    obtain ⟨⟨nd, hnd, hk, hl, hr⟩, hL, hR⟩ := h
    obtain ⟨n, rfl⟩ : ∃ n, fuel = n + 1 := ⟨fuel - 1, by omega⟩
    simp only [Tree.depth] at hf
    simp [serBytes, hnd, hk, hl, hr, Tree.ser, ihl hL n (by omega), ihr hR n (by omega)]

/-! ### Assigning codes to a held tree (R130, R131) -/

/-- What `ASSIGN` may change of a record: its code and code length. -/
def Node.SameButCode (a b : Node) : Prop := ∃ c l, b = { a with code := c, clen := l } ∧ (a.clen ≤ codeMax → l ≤ codeMax)

theorem Node.SameButCode.sameTree {a b : Node} (h : a.SameButCode b) : a.SameTree b := by
  obtain ⟨c, l, rfl, -⟩ := h
  exact ⟨rfl, rfl, rfl, rfl⟩

/-- Two stores with the same records but for codes and code lengths. -/
def SameButCodes (nodes nodes' : List Node) : Prop :=
  nodes'.length = nodes.length ∧ ∀ (k : Nat) (nd : Node), nodes[k]? = some nd → ∃ nd' : Node, nodes'[k]? = some nd' ∧ Node.SameButCode nd nd'

theorem SameButCodes.refl (nodes : List Node) : SameButCodes nodes nodes :=
  ⟨rfl, fun _ nd h => ⟨nd, h, nd.code, nd.clen, rfl, id⟩⟩

theorem SameButCodes.trans {a b c : List Node} (h₁ : SameButCodes a b) (h₂ : SameButCodes b c) : SameButCodes a c := by
  refine ⟨h₂.1.trans h₁.1, fun k nd h => ?_⟩
  obtain ⟨nd', h', c₁, l₁, rfl, hb₁⟩ := h₁.2 k nd h
  obtain ⟨nd'', h'', c₂, l₂, rfl, hb₂⟩ := h₂.2 k _ h'
  exact ⟨_, h'', c₂, l₂, rfl, fun hl => hb₂ (hb₁ hl)⟩

theorem SameButCodes.keeps {a b : List Node} (h : SameButCodes a b) (ks : List Nat) : KeepsTree a b ks := by
  intro k _ nd hnd
  obtain ⟨nd', h', e⟩ := h.2 k nd hnd
  exact ⟨nd', h', e.sameTree⟩

theorem SameButCodes.modify (nodes : List Node) (k : Nat) (c : Code) (l : Nat) (hl : l ≤ codeMax) :
    SameButCodes nodes (nodes.modify k fun nd => { nd with code := c, clen := l }) := by
  refine ⟨by simp, fun i nd h => ?_⟩
  rw [List.getElem?_modify, h]
  by_cases hik : k = i
  · exact ⟨_, by simp [hik], c, l, rfl, fun _ => hl⟩
  · exact ⟨nd, by simp [hik], nd.code, nd.clen, rfl, id⟩

theorem SameButCodes.freeCodes (n : Nat) (nodes : List Node) : SameButCodes nodes (freeCodes n nodes) := by
  refine ⟨by simp [Machine.freeCodes], fun k nd h => ?_⟩
  refine ⟨{ nd with code := Config.freeCode n k, clen := (Config.freeLen n k).val }, by simp [Machine.freeCodes, h], _, _, rfl,
    fun _ => ?_⟩
  have := (Config.freeLen n k).isLt
  simp only [codeMax]; omega

theorem pathValue_cons (b : Bool) (p : List Bool) : pathValue (b :: p) = b.toNat * 2 ^ p.length + pathValue p := by
  have gen : ∀ (p : List Bool) (x : Nat), p.foldl (fun c side => 2 * c + side.toNat) x = x * 2 ^ p.length + pathValue p := by
    intro p
    induction p with
    | nil => intro x; simp [pathValue]
    | cons d p ih =>
      intro x
      simp only [List.foldl_cons, List.length_cons, pathValue, ih (2 * x + d.toNat), ih (2 * 0 + d.toNat)]
      ring
  simp only [pathValue, List.foldl_cons]
  rw [gen]
  simp [pathValue]

/-- The code a child gets (R130). -/
theorem child_code (c : Code) (l : Nat) (side : Bool) (hc : c.toNat < 2 ^ l) (hl : l < 64) :
    (if side then c <<< 1 ||| 1 else c <<< 1 : Code).toNat = 2 * c.toNat + side.toNat ∧
      (if side then c <<< 1 ||| 1 else c <<< 1 : Code).toNat < 2 ^ (l + 1) := by
  have h63 : c.toNat < 2 ^ 63 := lt_of_lt_of_le hc (Nat.pow_le_pow_right (by omega) (by omega))
  have hs : (c <<< 1).toNat = 2 * c.toNat := by
    simp only [BitVec.toNat_shiftLeft, Nat.shiftLeft_eq]
    omega
  have hor : (c <<< 1 ||| 1 : Code).toNat = 2 * c.toNat + 1 := by
    rw [BitVec.toNat_or, hs]
    have := Nat.two_pow_add_eq_or_of_lt (i := 1) (b := 1) (by omega) c.toNat
    simpa using this.symm
  have hp : 2 ^ (l + 1) = 2 * 2 ^ l := by ring
  cases side
  · simp only [Bool.false_eq_true, if_false, hs, hp, Bool.toNat_false, Nat.add_zero, true_and]; exact Nat.mul_lt_mul_of_pos_left hc (by omega)
  · simp only [if_true, hor, hp, Bool.toNat_true, true_and]; linarith [Nat.succ_le_of_lt hc]

/-- The traversal of `ASSIGN` over a held tree within the code width (R130): every record keeps its place, records outside the tree
are untouched, and each node carries the code of its path below the code the traversal started with (R131). -/
theorem visit_done {nodes : List Node} {T : Tree} (h : T.Holds nodes) (nd : T.indices.Nodup) (c : Code) (l : Nat)
    (hc : c.toNat < 2 ^ l) (hd : l + T.depth ≤ 64) :
    ∃ nodes', visit (65 - l) nodes T.idx c l = .done nodes' ∧ SameButCodes nodes nodes' ∧
      (∀ k, k ∉ T.indices → nodes'[k]? = nodes[k]?) ∧
      ∀ e ∈ T.paths, (nodeAt nodes' e.1).code.toNat = c.toNat * 2 ^ e.2.length + pathValue e.2 ∧
        (nodeAt nodes' e.1).clen = l + e.2.length := by
  induction T generalizing nodes c l with
  | leaf k sym =>
    obtain ⟨n, hnk, hk, hs⟩ := h
    have hlev : 65 - l = (64 - l) + 1 := by simp only [Tree.depth] at hd; omega
    refine ⟨nodes.modify k fun nd => { nd with code := c, clen := l }, ?_, SameButCodes.modify _ _ _ _ (by simp only [codeMax]; omega), ?_, ?_⟩
    · simp [hlev, visit, hnk, hk]
    · intro i hi
      simp only [Tree.indices, List.mem_singleton] at hi
      rw [List.getElem?_modify]
      simp [Ne.symm hi]
    · have hlt := (List.getElem?_eq_some_iff.mp hnk).1
      simp [Tree.paths, nodeAt_modify _ _ _ _ hlt, pathValue]
  | node k L R ihl ihr =>
    obtain ⟨⟨n, hnk, hk, hl, hr⟩, hL, hR⟩ := h
    simp only [Tree.depth] at hd
    simp only [Tree.indices, List.nodup_cons, List.mem_append, List.nodup_append, not_or] at nd
    obtain ⟨⟨hkL, hkR⟩, ndL, ndR, disj⟩ := nd
    have hlev : 65 - l = (65 - (l + 1)) + 1 := by omega
    set nodes1 := nodes.modify k fun nd => { nd with code := c, clen := l } with h1
    have s1 : SameButCodes nodes nodes1 := SameButCodes.modify _ _ _ _ (by simp only [codeMax]; omega)
    obtain ⟨cl, clt⟩ := child_code c l false hc (by omega)
    obtain ⟨cr, crt⟩ := child_code c l true hc (by omega)
    simp only [Bool.false_eq_true, if_false, if_true] at cl clt cr crt
    obtain ⟨nodes2, hv2, s2, out2, e2⟩ := ihl (hL.keep (s1.keeps _)) ndL (c <<< 1) (l + 1) clt (by omega)
    obtain ⟨nodes3, hv3, s3, out3, e3⟩ :=
      ihr (hR.keep ((s1.trans s2).keeps _)) ndR (c <<< 1 ||| 1) (l + 1) crt (by omega)
    refine ⟨nodes3, ?_, (s1.trans s2).trans s3, ?_, ?_⟩
    · rw [hlev, visit, Tree.idx_node, hnk]
      simp only [hk, hl, hr]
      rw [← h1, hv2]
      exact hv3
    · intro i hi
      simp only [Tree.indices, List.mem_cons, List.mem_append, not_or] at hi
      rw [out3 i hi.2.2, out2 i hi.2.1, h1, List.getElem?_modify]
      simp [Ne.symm hi.1]
    · intro e he
      simp only [Tree.paths, List.mem_cons, List.mem_append, List.mem_map] at he
      rcases he with rfl | ⟨e', he', rfl⟩ | ⟨e', he', rfl⟩
      · have hlt := (List.getElem?_eq_some_iff.mp hnk).1
        have hsame : nodeAt nodes3 k = nodeAt nodes1 k := by simp [nodeAt, List.getD, out3 _ hkR, out2 _ hkL]
        simp [hsame, h1, nodeAt_modify _ _ _ _ hlt, pathValue]
      · have hmem : e'.1 ∈ L.indices := by rw [← L.paths_idx]; exact List.mem_map_of_mem he'
        have hnot : e'.1 ∉ R.indices := fun hR' => disj _ hmem _ hR' rfl
        have hsame : nodeAt nodes3 e'.1 = nodeAt nodes2 e'.1 := by simp [nodeAt, List.getD, out3 _ hnot]
        obtain ⟨a, b⟩ := e2 e' he'
        refine ⟨?_, ?_⟩
        · simp only [hsame, a, cl, pathValue_cons, List.length_cons, Bool.toNat_false]
          ring
        · simp only [hsame, b, List.length_cons]; omega
      · obtain ⟨a, b⟩ := e3 e' he'
        refine ⟨?_, ?_⟩
        · simp only [a, cr, pathValue_cons, List.length_cons, Bool.toNat_true]
          ring
        · simp only [b, List.length_cons]; omega

/-- The traversal of `ASSIGN` over a held tree deeper than the code width (R130). -/
theorem visit_overflow {nodes : List Node} {T : Tree} (h : T.Holds nodes) (nd : T.indices.Nodup) (c : Code) (l : Nat)
    (hc : c.toNat < 2 ^ l) (hl : l ≤ 65) (hd : 64 < l + T.depth) : visit (65 - l) nodes T.idx c l = .overflow := by
  rcases Nat.lt_or_ge l 65 with hl65 | hl65
  swap
  · rw [show 65 - l = 0 by omega, visit]
  induction T generalizing nodes c l with
  | leaf k sym => simp only [Tree.depth] at hd; omega
  | node k L R ihl ihr =>
    obtain ⟨⟨n, hnk, hk, hl', hr⟩, hL, hR⟩ := h
    simp only [Tree.depth] at hd
    simp only [Tree.indices, List.nodup_cons, List.mem_append, List.nodup_append, not_or] at nd
    obtain ⟨⟨hkL, hkR⟩, ndL, ndR, disj⟩ := nd
    have hlev : 65 - l = (65 - (l + 1)) + 1 := by omega
    have s1 : SameButCodes nodes (nodes.modify k fun nd => { nd with code := c, clen := l }) :=
      SameButCodes.modify _ _ _ _ (by simp only [codeMax]; omega)
    rw [hlev, visit, Tree.idx_node, hnk]
    simp only [hk, hl', hr]
    rcases Nat.eq_or_lt_of_le (show l + 1 ≤ 65 by omega) with h65 | h65
    · rw [h65]; simp [visit]
    obtain ⟨cl, clt⟩ := child_code c l false hc (by omega)
    obtain ⟨cr, crt⟩ := child_code c l true hc (by omega)
    simp only [Bool.false_eq_true, if_false, if_true] at cl clt cr crt
    by_cases hLd : 64 < l + 1 + L.depth
    · rw [ihl (hL.keep (s1.keeps _)) ndL (c <<< 1) (l + 1) clt (by omega) hLd h65]
    · obtain ⟨nodes2, hv2, s2, -, -⟩ := visit_done (hL.keep (s1.keeps _)) ndL (c <<< 1) (l + 1) clt (by omega)
      rw [hv2]
      exact ihr (hR.keep ((s1.trans s2).keeps _)) ndR (c <<< 1 ||| 1) (l + 1) crt (by omega) (by omega) h65

end Sys2Proof.Machine
end

