-- ==== Sys2Proof/Laws/Queue.lean ====
section
/-! SUPPORT. The priority queue (R36, R37) and the merge loop of `BUILD` (R111, R114). -/

namespace Sys2Proof.Machine

/-- `a` is at most `b` in the order of keys: `b` is not before `a` (R37). -/
def keyLe (a b : Nat × Nat) : Prop := keyLt b a = false

theorem keyLe_iff (a b : Nat × Nat) : keyLe a b ↔ a.1 < b.1 ∨ (a.1 = b.1 ∧ a.2 ≤ b.2) := by
  simp only [keyLe, keyLt, Bool.or_eq_false_iff, Bool.and_eq_false_iff, decide_eq_false_iff_not]
  omega

theorem keyLe_trans {a b c : Nat × Nat} (h₁ : keyLe a b) (h₂ : keyLe b c) : keyLe a c := by
  rw [keyLe_iff] at *; omega

theorem keyLe_refl (a : Nat × Nat) : keyLe a a := by rw [keyLe_iff]; omega

theorem leastOf_mem (nodes : List Node) (m : Nat) (ks : List Nat) : leastOf nodes m ks ∈ m :: ks := by
  induction ks generalizing m with
  | nil => simp [leastOf]
  | cons k ks ih =>
    rw [leastOf]
    split
    · have := ih k; simp only [List.mem_cons] at this ⊢; tauto
    · have := ih m; simp only [List.mem_cons] at this ⊢; tauto

theorem leastOf_le (nodes : List Node) (m : Nat) (ks : List Nat) :
    ∀ j ∈ m :: ks, keyLe (key nodes (leastOf nodes m ks)) (key nodes j) := by
  induction ks generalizing m with
  | nil =>
    simp only [List.mem_singleton, leastOf]
    rintro j rfl
    exact keyLe_refl _
  | cons k ks ih =>
    intro j hj
    rw [leastOf]
    by_cases hlt : keyLt (key nodes k) (key nodes m) = true
    · simp only [hlt, if_true]
      rcases List.mem_cons.mp hj with rfl | hj
      · refine keyLe_trans (ih k k (by simp)) ?_
        rw [keyLe_iff]
        simp only [keyLt, Bool.or_eq_true, Bool.and_eq_true, decide_eq_true_eq] at hlt
        omega
      · exact ih k j hj
    · simp only [Bool.not_eq_true] at hlt
      simp only [hlt, Bool.false_eq_true, if_false]
      rcases List.mem_cons.mp hj with rfl | hj
      · exact ih j j (by simp)
      · rcases List.mem_cons.mp hj with rfl | hj
        · exact keyLe_trans (ih m m (by simp)) hlt
        · exact ih m j (by simp [hj])

/-- Everything `extractMin` can do (R37): it answers on a non-empty queue, with a member of least key, and removes it. -/
theorem extractMin_spec (s : State) :
    (s.q = [] ∧ extractMin s = none) ∨
    ∃ k, k ∈ s.q ∧ (∀ j ∈ s.q, keyLe (key s.nodes k) (key s.nodes j)) ∧ extractMin s = some (k, { s with q := s.q.erase k }) := by
  unfold extractMin
  cases hq : s.q with
  | nil => exact .inl ⟨rfl, rfl⟩
  | cons k ks => exact .inr ⟨_, leastOf_mem s.nodes k ks, leastOf_le s.nodes k ks, rfl⟩

theorem erase_length {q : List Nat} {k : Nat} (h : k ∈ q) : (q.erase k).length + 1 = q.length := by
  rw [List.length_erase_of_mem h]
  have := List.length_pos_of_mem h
  omega

/-! ### The forest on the queue while `BUILD` runs -/

/-- The sum of the counts of the listed records. -/
def countSum (nodes : List Node) (ks : List Nat) : Nat := (ks.map fun k => (nodeAt nodes k).count).sum

/-- The trees are a forest of all allocated nodes over all leaves, `nint` of them internal (R111, R114). -/
structure Forest (nodes : List Node) (leaves : List Nat) (nint : Nat) (Ts : List Tree) : Prop where
  holds : ∀ T ∈ Ts, T.Holds nodes
  allNodes : (Ts.flatMap Tree.indices).Perm (List.range nodes.length)
  allLeaves : (Ts.flatMap Tree.leafIdx).Perm leaves
  sums : ∀ T ∈ Ts, T.Sums nodes
  total : ∀ T ∈ Ts, (nodeAt nodes T.idx).count = countSum nodes T.leafIdx
  size : nint + Ts.length = leaves.length

/-- A member of the queue is the root of a tree of the forest. -/
theorem forest_pick {Ts : List Tree} {q : List Nat} {k : Nat} (hr : Ts.map Tree.idx = q) (hk : k ∈ q) :
    ∃ T Us, T.idx = k ∧ Ts.Perm (T :: Us) ∧ Us.map Tree.idx = q.erase k := by
  induction Ts generalizing q with
  | nil => subst hr; simp at hk
  | cons T Ts ih =>
    subst hr
    by_cases h : T.idx = k
    · exact ⟨T, Ts, h, .refl _, by simp [h]⟩
    · simp only [List.map_cons, List.mem_cons] at hk
      obtain ⟨U, Us, hU, hp, hm⟩ := ih rfl (hk.resolve_left (Ne.symm h))
      exact ⟨U, T :: Us, hU, (hp.cons T).trans (.swap U T Us), by simp [List.erase_cons_tail, h, hm]⟩

theorem Tree.Sums.keep {nodes nodes' : List Node} {T : Tree} (h : T.Sums nodes)
    (k : ∀ i ∈ T.indices, (nodeAt nodes' i).count = (nodeAt nodes i).count) : T.Sums nodes' := by
  induction T with
  | leaf i sym => trivial
  | node i l r ihl ihr =>
    obtain ⟨hs, hl, hr⟩ := h
    have hml : l.idx ∈ (Tree.node i l r).indices := by simp [Tree.indices, l.idx_mem_indices]
    have hmr : r.idx ∈ (Tree.node i l r).indices := by simp [Tree.indices, r.idx_mem_indices]
    refine ⟨by rw [k i (by simp [Tree.indices]), k _ hml, k _ hmr, hs], ihl hl ?_, ihr hr ?_⟩
    · exact fun j hj => k j (by simp [Tree.indices, hj])
    · exact fun j hj => k j (by simp [Tree.indices, hj])

theorem countSum_congr {nodes nodes' : List Node} {ks : List Nat}
    (h : ∀ k ∈ ks, (nodeAt nodes' k).count = (nodeAt nodes k).count) : countSum nodes' ks = countSum nodes ks := by
  unfold countSum
  rw [List.map_congr_left h]

/-- The record `BUILD` makes over `a` and `b` (R111). -/
def parentOf (nodes : List Node) (seq a b : Nat) : Node :=
  { kind := .internal, sym := [], count := (nodeAt nodes a).count + (nodeAt nodes b).count
    left := some a, right := some b, seq := seq, code := 0, clen := 0 }

theorem mergePair_eq (a b : Nat) (s : State) :
    mergePair a b s =
      { s with
        nodes := s.nodes ++ [parentOf s.nodes s.nextSeq a b], nint := s.nint + 1, nextSeq := s.nextSeq + 1
        q := s.q ++ [s.nodes.length] } := by
  simp only [mergePair, insertQ, State.mk.injEq, true_and, and_true]
  apply List.ext_getElem?
  intro i
  rw [List.getElem?_modify]
  rcases Nat.lt_trichotomy i s.nodes.length with h | h | h
  · simp [List.getElem?_append_left h, h.ne']
  · subst h; simp [parentOf, Node.blank]
  · rw [List.getElem?_eq_none (by simp; omega), List.getElem?_eq_none (by simp; omega)]
    rfl

/-- One merge keeps the forest (R111). -/
theorem Forest.merge {nodes : List Node} {leaves : List Nat} {nint seq : Nat} {A B : Tree} {Us : List Tree}
    (h : Forest nodes leaves nint (A :: B :: Us)) :
    Forest (nodes ++ [parentOf nodes seq A.idx B.idx]) leaves (nint + 1) (Us ++ [.node nodes.length A B]) := by
  set nodes' := nodes ++ [parentOf nodes seq A.idx B.idx] with hn
  have hlt : ∀ T ∈ A :: B :: Us, ∀ k ∈ T.indices, k < nodes.length := fun T hT => (h.holds T hT).lt
  have old : ∀ k < nodes.length, nodeAt nodes' k = nodeAt nodes k := fun k hk => nodeAt_append_left _ _ _ hk
  have new : nodeAt nodes' nodes.length = parentOf nodes seq A.idx B.idx := nodeAt_append_new _ _
  have keep : ∀ T ∈ A :: B :: Us, T.Holds nodes' := fun T hT => (h.holds T hT).keep (KeepsTree.append _)
  have keepSums : ∀ T ∈ A :: B :: Us, T.Sums nodes' :=
    fun T hT => (h.sums T hT).keep fun i hi => by rw [old i (hlt T hT i hi)]
  have keepSum : ∀ T ∈ A :: B :: Us, countSum nodes' T.leafIdx = countSum nodes T.leafIdx :=
    fun T hT => countSum_congr fun i hi => by rw [old i (hlt T hT i (T.leafIdx_sub i hi))]
  have ltA := hlt A (by simp) _ A.idx_mem_indices
  have ltB := hlt B (by simp) _ B.idx_mem_indices
  refine ⟨?_, ?_, ?_, ?_, ?_, ?_⟩
  · intro T hT
    rcases List.mem_append.mp hT with hT | hT
    · exact keep T (by simp [hT])
    · obtain rfl := List.mem_singleton.mp hT
      exact ⟨⟨parentOf nodes seq A.idx B.idx, by simp [hn], rfl, rfl, rfl⟩, keep A (by simp), keep B (by simp)⟩
  · have hp := h.allNodes
    simp only [List.flatMap_cons] at hp
    simp only [List.flatMap_append, List.flatMap_cons, List.flatMap_nil, Tree.indices, List.append_nil, hn,
      List.length_append, List.length_singleton, List.range_succ]
    refine List.Perm.trans ?_ (hp.append_right [nodes.length])
    refine List.perm_append_comm.trans ?_
    refine (List.perm_append_singleton _ _).symm.trans ?_
    simp [List.append_assoc]
  · have hp := h.allLeaves
    simp only [List.flatMap_cons] at hp
    simp only [List.flatMap_append, List.flatMap_cons, List.flatMap_nil, Tree.leafIdx, List.append_nil]
    exact (List.perm_append_comm.trans (by simp [List.append_assoc])).trans hp
  · intro T hT
    rcases List.mem_append.mp hT with hT | hT
    · exact keepSums T (by simp [hT])
    · obtain rfl := List.mem_singleton.mp hT
      exact ⟨by rw [new, old _ ltA, old _ ltB]; rfl, keepSums A (by simp), keepSums B (by simp)⟩
  · intro T hT
    rcases List.mem_append.mp hT with hT | hT
    · rw [keepSum T (by simp [hT]), old _ (hlt T (by simp [hT]) _ T.idx_mem_indices)]
      exact h.total T (by simp [hT])
    · obtain rfl := List.mem_singleton.mp hT
      have hA := keepSum A (by simp)
      have hB := keepSum B (by simp)
      simp only [Tree.idx_node, new, Tree.leafIdx, parentOf, h.total A (by simp), h.total B (by simp), ← hA, ← hB]
      simp [countSum]
  · have := h.size
    simp only [List.length_cons, List.length_append, List.length_nil] at this ⊢
    omega

theorem Forest.perm {nodes : List Node} {leaves : List Nat} {nint : Nat} {Ts Us : List Tree}
    (h : Forest nodes leaves nint Ts) (p : Ts.Perm Us) : Forest nodes leaves nint Us where
  holds T hT := h.holds T (p.mem_iff.mpr hT)
  allNodes := (p.flatMap_right _).symm.trans h.allNodes
  allLeaves := (p.flatMap_right _).symm.trans h.allLeaves
  sums T hT := h.sums T (p.mem_iff.mpr hT)
  total T hT := h.total T (p.mem_iff.mpr hT)
  size := by rw [← p.length_eq]; exact h.size

/-- What a run of the merge loop changes (R111): records are added after the old ones, and `NINT`, `NEXTSEQ` and `Q` move. -/
def MergedFrom (s t : State) : Prop :=
  ∃ more nint seq q, t = { s with nodes := s.nodes ++ more, nint := nint, nextSeq := seq, q := q } ∧
    ∀ nd ∈ more, nd.kind = .internal ∧ nd.sym = [] ∧ nd.clen = 0

theorem mergedFrom_refl (s : State) : MergedFrom s s := ⟨[], s.nint, s.nextSeq, s.q, by simp, by simp⟩

/-- The merge loop always ends with at most one node on the queue, on any state. -/
theorem mergeLoop_total (n : Nat) (s : State) (hn : s.q.length ≤ n + 1) :
    ∃ t, mergeLoop n s = some t ∧ MergedFrom s t ∧ t.q.length ≤ 1 ∧ (s.q ≠ [] → t.q ≠ []) := by
  induction n generalizing s with
  | zero => exact ⟨s, rfl, mergedFrom_refl s, hn, id⟩
  | succ n ih =>
    rw [mergeLoop]
    split
    · rename_i h1
      rcases extractMin_spec s with ⟨hq, -⟩ | ⟨a, ha, -, he⟩
      · simp [hq] at h1
      rw [he]
      simp only
      have la := erase_length ha
      rcases extractMin_spec { s with q := s.q.erase a } with ⟨hq, -⟩ | ⟨b, hb, -, he'⟩
      · simp only at hq; rw [hq] at la; simp at la; omega
      rw [he']
      simp only at hb ⊢
      have lb := erase_length hb
      obtain ⟨t, ht, ⟨more, nint, seq, q, rfl, hm⟩, hl, hne⟩ :=
        ih (mergePair a b { s with q := (s.q.erase a).erase b }) (by rw [mergePair_eq]; simp; omega)
      refine ⟨_, ht, ?_, hl, fun _ => hne (by rw [mergePair_eq]; simp)⟩
      rw [mergePair_eq]
      refine ⟨_ :: more, nint, seq, q, by simp; rfl, ?_⟩
      intro nd hnd
      rcases List.mem_cons.mp hnd with rfl | hnd
      · exact ⟨rfl, rfl, rfl⟩
      · exact hm nd hnd
    · rename_i h1
      exact ⟨s, rfl, mergedFrom_refl s, by omega, id⟩

/-- The merge loop turns a forest into one tree (R111, R114). -/
theorem mergeLoop_forest (n : Nat) (s t : State) (Ts : List Tree) (hf : Forest s.nodes s.leaves s.nint Ts)
    (hr : Ts.map Tree.idx = s.q) (ht : mergeLoop n s = some t) :
    ∃ Us, Forest t.nodes t.leaves t.nint Us ∧ Us.map Tree.idx = t.q := by
  induction n generalizing s Ts with
  | zero => cases ht; exact ⟨Ts, hf, hr⟩
  | succ n ih =>
    rw [mergeLoop] at ht
    split at ht
    · rename_i h1
      rcases extractMin_spec s with ⟨hq, -⟩ | ⟨a, ha, -, he⟩
      · simp [hq] at h1
      rw [he] at ht
      simp only at ht
      rcases extractMin_spec { s with q := s.q.erase a } with ⟨-, he'⟩ | ⟨b, hb, -, he'⟩
      · rw [he'] at ht; simp at ht
      rw [he'] at ht
      simp only at ht hb
      obtain ⟨A, Vs, rfl, pA, mA⟩ := forest_pick hr ha
      obtain ⟨B, Us, rfl, pB, mB⟩ := forest_pick mA hb
      rw [mergePair_eq] at ht
      exact ih _ _ ((hf.perm (pA.trans (pB.cons A))).merge (seq := s.nextSeq)) (by simp [mB]) ht
    · cases ht; exact ⟨Ts, hf, hr⟩

/-- The leaves of a store, as trees. -/
def leafTrees (nodes : List Node) : List Tree := (List.range nodes.length).map fun k => .leaf k (nodeAt nodes k).sym

/-- A store of leaves is a forest of single leaves (R42(a)). -/
theorem LeavesOnly.forest {s : State} (h : LeavesOnly s) :
    Forest s.nodes s.leaves s.nint (leafTrees s.nodes) ∧ (leafTrees s.nodes).map Tree.idx = s.q := by
  have hq : s.q = List.range s.nodes.length := h.q.trans h.leaves
  refine ⟨⟨?_, ?_, ?_, ?_, ?_, ?_⟩, by simp [leafTrees, hq, Function.comp_def]⟩
  · intro T hT
    obtain ⟨k, hk, rfl⟩ := List.mem_map.mp hT
    have hk := List.mem_range.mp hk
    refine ⟨s.nodes[k], List.getElem?_eq_getElem hk, h.kind _ (List.getElem_mem hk), ?_⟩
    rw [nodeAt_of_some (List.getElem?_eq_getElem hk)]
  · simp [leafTrees, List.flatMap_map, Tree.indices, List.flatMap_singleton']
  · rw [h.leaves]; simp [leafTrees, List.flatMap_map, Tree.leafIdx, List.flatMap_singleton']
  · intro T hT
    obtain ⟨k, -, rfl⟩ := List.mem_map.mp hT
    trivial
  · intro T hT
    obtain ⟨k, -, rfl⟩ := List.mem_map.mp hT
    simp [countSum, Tree.leafIdx]
  · rw [h.nint, h.leaves]; simp [leafTrees]

end Sys2Proof.Machine
end

