-- ==== Sys2Proof/Laws/Invariant.lean ====
section
/-! SUPPORT. The invariant of a safe run, command by command: each meaning, from a state that meets the invariant, answers a next
state that meets it (R35 to R42). -/

namespace Sys2Proof.Machine

/-- The states agree on the node store and its bookkeeping. -/
structure SameStore (s t : State) : Prop where
  nodes : t.nodes = s.nodes
  nint : t.nint = s.nint
  nextSeq : t.nextSeq = s.nextSeq
  q : t.q = s.q
  leaves : t.leaves = s.leaves
  root : t.root = s.root
  tree : t.tree = s.tree

theorem State.HasTree.congr {s t : State} {T : Tree} (h : s.HasTree T) (hr : t.root = s.root) (hn : t.nodes = s.nodes)
    (hl : t.leaves = s.leaves) : t.HasTree T :=
  ⟨hr ▸ h.root, hn ▸ h.holds, hn ▸ h.nodes, hl ▸ h.leaves⟩

theorem TreeStands.congr {s t : State} (h : TreeStands s) (e : SameStore s t) (hc : t.codes = true → s.codes = true) :
    TreeStands t := by
  obtain ⟨hq, hi, T, hT, hN, hS, hC⟩ := h
  refine ⟨e.q ▸ hq, ?_, T, hT.congr e.root e.nodes e.leaves, hN, e.nodes ▸ hS, fun h => e.nodes ▸ hC (hc h)⟩
  rw [e.nint, e.leaves, hi]

theorem LeavesOnly.congr {s t : State} (h : LeavesOnly s) (e : SameStore s t) : LeavesOnly t :=
  ⟨by rw [e.q, e.leaves, h.q], by rw [e.leaves, e.nodes, h.leaves], e.nint ▸ h.nint, e.nodes ▸ h.kind, e.nodes ▸ h.seqs,
    by rw [e.nodes, e.nextSeq]; exact h.next⟩

theorem PartialTree.congr {s t : State} {fs : List Frame} {w : Want} (h : PartialTree s fs w) (e : SameStore s t) :
    PartialTree t fs w := by
  unfold PartialTree at *
  rw [e.q, e.nodes, e.leaves, e.nint]
  exact h

/-- The store of a state in which no tree is being read (R42). -/
def StoreOk (s : State) : Prop := if s.tree = true then TreeStands s else s.root = none ∧ LeavesOnly s

theorem StoreOk.congr {s t : State} (h : StoreOk s) (e : SameStore s t) (hc : t.codes = true → s.codes = true) : StoreOk t := by
  unfold StoreOk at *
  rw [e.tree]
  split <;> rename_i ht
  · rw [if_pos ht] at h
    exact h.congr e hc
  · rw [if_neg ht] at h
    exact ⟨e.root ▸ h.1, h.2.congr e⟩

/-- No tree is being read. -/
def Progress.plain : Progress → Bool
  | .deser _ _ => false
  | _ => true

/-- Neither reading a tree nor decoding. -/
def Progress.simple : Progress → Bool
  | .deser _ _ => false
  | .decode _ _ => false
  | _ => true

theorem Progress.simple_plain {p : Progress} (h : p.simple = true) : p.plain = true := by
  cases p <;> simp_all [Progress.simple, Progress.plain]

theorem store_iff {s : State} (h : s.prog.plain = true) :
    (if s.tree = true then TreeStands s
      else s.root = none ∧ match s.prog with | .deser frames want => PartialTree s frames want | _ => LeavesOnly s) ↔ StoreOk s := by
  unfold StoreOk
  cases hp : s.prog <;> simp_all [Progress.plain]

theorem Inv.storeOk {s : State} (h : Inv s) (hp : s.prog.plain = true) : StoreOk s := (store_iff hp).mp h.store

theorem progress_simple {s : State} (h : s.prog.simple = true) :
    (match s.prog with
      | .decode n _ => s.tree = true ∧ ∃ nd, s.nodes[n]? = some nd ∧ nd.kind = .internal
      | .deser _ _ => s.tree = false
      | _ => True) := by
  cases hp : s.prog <;> simp_all [Progress.simple]

/-- Changing nothing but streams, flags of no weight, `CUR`, progress to an inactive one and the model's own fields keeps the
invariant. -/
theorem Inv.idle_of {s t : State} (h : Inv s) (hs : s.prog.plain = true) (e : SameStore s t) (cfg : t.cfg = s.cfg)
    (errcode : if t.err = true then ∃ e : Err, t.errcode = e.code else t.errcode = 0)
    (errIdle : t.err = true → t.prog = .idle ∨ (t.prog = .start ∧ t.cur = encode .clear))
    (codes : t.codes = s.codes) (eos : t.eos = true → s.tree = true) (ubits : t.ubits ≤ 8)
    (ubitsTree : s.tree = false → t.ubits = 0) (acc : t.acc < 2 ^ t.pend) (pend : t.pend ≤ s.cfg.accCap)
    (pendIdle : t.prog ≠ .pack → t.pend ≤ 7) (ht : t.prog.simple = true) : Inv t where
  params := cfg ▸ h.params
  errcode := errcode
  errIdle := errIdle
  codesTree hc := e.tree ▸ h.codesTree (codes ▸ hc)
  eosTree he := e.tree ▸ eos he
  unread := ubits
  unreadTree h' := ubitsTree (e.tree ▸ h')
  acc := acc
  pendCap := cfg ▸ pend
  pendIdle := pendIdle
  leafCap := by rw [e.leaves, cfg]; exact h.leafCap
  nintCap := by rw [e.nint, cfg]; exact h.nintCap
  records := e.nodes ▸ h.records
  store := (store_iff (Progress.simple_plain ht)).mpr ((h.storeOk hs).congr e (fun hc => codes ▸ hc))
  progress := progress_simple ht

/-- `return` with nothing else changed. -/
theorem Inv.finish {s : State} (h : Inv s) (hs : s.prog.plain = true) (hp : s.prog ≠ .pack) : Inv (finish s) :=
  h.idle_of hs ⟨rfl, rfl, rfl, rfl, rfl, rfl, rfl⟩ rfl h.errcode (fun _ => .inl rfl) rfl h.eosTree h.unread h.unreadTree h.acc
    h.pendCap (fun _ => h.pendIdle hp) rfl

/-- `raise` with nothing else changed (R206, "unchanged"). -/
theorem Inv.raise {s : State} (h : Inv s) (e : Err) (hs : s.prog.plain = true) (hp : s.prog ≠ .pack) : Inv (raise e s) :=
  h.idle_of hs ⟨rfl, rfl, rfl, rfl, rfl, rfl, rfl⟩ rfl (by simp only [Machine.raise, if_true]; exact ⟨e, rfl⟩)
    (fun _ => .inl rfl) rfl h.eosTree h.unread h.unreadTree h.acc h.pendCap (fun _ => h.pendIdle hp) rfl

theorem leavesOnly_empty {s : State} (hq : s.q = []) (hl : s.leaves = []) (hn : s.nodes = []) (hi : s.nint = 0) : LeavesOnly s :=
  ⟨by rw [hq, hl], by simp [hl, hn], hi, by simp [hn], by simp [hn], by simp [hn]⟩

/-- Any state whose operation state is cleared and whose parameters are in range meets the invariant (R42, R100, R230). -/
theorem inv_of_cleared {t : State} (params : t.cfg.wf = true) (herr : t.err = false) (hcode : t.errcode = 0) (htree : t.tree = false)
    (hcodes : t.codes = false) (heos : t.eos = false) (hub : t.ubits = 0) (hacc : t.acc = 0) (hpend : t.pend = 0)
    (hq : t.q = []) (hl : t.leaves = []) (hn : t.nodes = []) (hi : t.nint = 0) (hr : t.root = none) (hp : t.prog = .idle) : Inv t where
  params := params
  errcode := by simp [herr, hcode]
  errIdle := by simp [herr]
  codesTree := by simp [hcodes]
  eosTree := by simp [heos]
  unread := by omega
  unreadTree _ := hub
  acc := by simp [hacc, hpend]
  pendCap := by omega
  pendIdle _ := by omega
  leafCap := by simp [hl]
  nintCap := by omega
  records := by simp [hn]
  store := by simp [htree, hr, hp, leavesOnly_empty hq hl hn hi]
  progress := by simp [hp]

theorem execNop_inv {s : State} (h : Inv s) (hp : s.prog = .start) : Inv (finish s) :=
  h.finish (by simp [hp, Progress.plain]) (by simp [hp])

theorem execClear_inv {s : State} (h : Inv s) : Inv (finish (clearOperation s)) :=
  inv_of_cleared h.params rfl rfl rfl rfl rfl rfl rfl rfl rfl rfl rfl rfl rfl rfl

theorem coreReset_inv {s : State} (h : Inv s) : Inv (coreReset s) :=
  inv_of_cleared h.params rfl rfl rfl rfl rfl rfl rfl rfl rfl rfl rfl rfl rfl rfl

/-! ### LEAF_PUSH -/

/-- The record `LEAF_PUSH` adds (R110). -/
def newLeaf (s : State) : Node :=
  { kind := .leaf, sym := s.regs.symbol s.regs.symlenOp, count := s.regs.countOp, left := none, right := none, seq := s.nextSeq
    code := 0, clen := 0 }

theorem addLeaf_eq (s : State) :
    addLeaf s =
      { s with
        nodes := s.nodes ++ [newLeaf s], leaves := s.leaves ++ [s.nodes.length], nextSeq := s.nextSeq + 1
        q := s.q ++ [s.nodes.length] } := by
  simp only [addLeaf, insertQ, State.mk.injEq, true_and, and_true]
  apply List.ext_getElem?
  intro i
  rw [List.getElem?_modify]
  rcases Nat.lt_trichotomy i s.nodes.length with h | h | h
  · simp [List.getElem?_append_left h, h.ne']
  · subst h; simp [newLeaf, Node.blank]
  · rw [List.getElem?_eq_none (by simp; omega), List.getElem?_eq_none (by simp; omega)]
    rfl

theorem newLeaf_ok {s : State} (h : ¬ maxSymbolLen < s.regs.symlenOp) : NodeOk (newLeaf s) where
  sym := by simp only [newLeaf, Operands.symbol, List.length_map, List.length_range]; omega
  leafCount _ := s.regs.count.isLt
  count := lt_trans s.regs.count.isLt (by norm_num)
  clen := by simp [newLeaf]

theorem LeavesOnly.addLeaf {s : State} (h : LeavesOnly s) : LeavesOnly (addLeaf s) := by
  rw [addLeaf_eq]
  refine ⟨by simp [h.q], by simp [List.range_succ, h.leaves], h.nint, ?_, ?_, ?_⟩
  · intro nd hnd
    rcases List.mem_append.mp hnd with hnd | hnd
    · exact h.kind nd hnd
    · obtain rfl := List.mem_singleton.mp hnd; rfl
  · simp only [List.map_append, List.map_cons, List.map_nil, List.pairwise_append, List.pairwise_cons, List.not_mem_nil,
      false_implies, implies_true, List.Pairwise.nil, and_self, List.mem_map, List.mem_singleton, true_and]
    refine ⟨h.seqs, ?_⟩
    rintro _ ⟨nd, hnd, rfl⟩ _ rfl
    exact h.next nd hnd
  · intro nd hnd
    rcases List.mem_append.mp hnd with hnd | hnd
    · exact Nat.lt_succ_of_lt (h.next nd hnd)
    · obtain rfl := List.mem_singleton.mp hnd; simp [newLeaf]

theorem execLeafPush_inv {s t : State} (h : Inv s) (hp : s.prog = .start) (ht : execLeafPush s = .next t) : Inv t := by
  have pl : s.prog.plain = true := by simp [hp, Progress.plain]
  have np : s.prog ≠ .pack := by simp [hp]
  unfold execLeafPush at ht
  split at ht
  · cases ht; exact h.raise _ pl np
  rename_i htree
  simp only [Bool.not_eq_true] at htree
  split at ht
  · cases ht; exact h.raise _ pl np
  rename_i hlen
  split at ht
  · cases ht; exact h.raise _ pl np
  rename_i hcap
  cases ht
  have hst := h.storeOk pl
  simp only [StoreOk, htree, Bool.false_eq_true, if_false] at hst
  have hadd := hst.2.addLeaf
  have hcap' := h.leafCap
  rw [addLeaf_eq] at hadd ⊢
  exact
    { h with
      errIdle := fun _ => .inl rfl
      pendIdle := fun _ => h.pendIdle np
      leafCap := by simp only [State.nleaf] at hcap; simp [Machine.finish]; omega
      records := by
        intro nd hnd
        rcases List.mem_append.mp hnd with hnd | hnd
        · exact h.records nd hnd
        · obtain rfl := List.mem_singleton.mp hnd; exact newLeaf_ok hlen
      store := by
        simp only [Machine.finish, htree, Bool.false_eq_true, if_false]
        exact ⟨hst.1, hadd.congr ⟨rfl, rfl, rfl, rfl, rfl, rfl, htree.symm⟩⟩
      progress := trivial }

/-! ### BUILD -/

theorem countSum_lt {nodes : List Node} {n : Nat} (hok : ∀ nd ∈ nodes, NodeOk nd) (hn : n ≤ 2 ^ 32 - 1) (ks : List Nat)
    (hks : ∀ k ∈ ks, k < nodes.length ∧ (nodeAt nodes k).kind = .leaf) (hl : ks.length ≤ n) : countSum nodes ks < 2 ^ 64 := by
  have hle : countSum nodes ks ≤ ks.length * (2 ^ 32 - 1) := by
    clear hl
    induction ks with
    | nil => simp [countSum]
    | cons k ks ih =>
      obtain ⟨hk, hkind⟩ := hks k (by simp)
      have hmem : nodeAt nodes k ∈ nodes := by
        rw [nodeAt_of_some (List.getElem?_eq_getElem hk)]; exact List.getElem_mem hk
      have := (hok _ hmem).leafCount hkind
      have := ih fun j hj => hks j (by simp [hj])
      simp only [countSum, List.map_cons, List.sum_cons, List.length_cons] at *
      rw [Nat.add_mul]
      omega
  have : ks.length * (2 ^ 32 - 1) ≤ (2 ^ 32 - 1) * (2 ^ 32 - 1) := Nat.mul_le_mul_right _ (by omega)
  omega

theorem Tree.Holds.leaf_kind {nodes : List Node} {T : Tree} (h : T.Holds nodes) :
    ∀ k ∈ T.leafIdx, k < nodes.length ∧ (nodeAt nodes k).kind = .leaf := by
  induction T with
  | leaf i sym =>
    obtain ⟨nd, hnd, hk, -⟩ := h
    simp only [Tree.leafIdx, List.mem_singleton]
    rintro k rfl
    exact ⟨(List.getElem?_eq_some_iff.mp hnd).1, by rw [nodeAt_of_some hnd, hk]⟩
  | node i l r ihl ihr =>
    simp only [Tree.leafIdx, List.mem_append]
    rintro k (hk | hk)
    · exact ihl h.2.1 k hk
    · exact ihr h.2.2 k hk

theorem Tree.Holds.isNode_iff {nodes : List Node} {T : Tree} (h : T.Holds nodes) :
    T.isNode = true ↔ (nodeAt nodes T.idx).kind = .internal := by
  cases T with
  | leaf i sym => obtain ⟨nd, hnd, hk, -⟩ := h; simp [Tree.isNode, nodeAt_of_some hnd, hk]
  | node i l r => obtain ⟨⟨nd, hnd, hk, -⟩, -⟩ := h; simp [Tree.isNode, nodeAt_of_some hnd, hk]

/-- Every subtree's count in a forest is the sum of its leaves' counts. -/
theorem Tree.Sums.count_eq {nodes : List Node} {T : Tree} (h : T.Sums nodes) :
    (nodeAt nodes T.idx).count = countSum nodes T.leafIdx := by
  induction T with
  | leaf i sym => simp [countSum, Tree.leafIdx]
  | node i l r ihl ihr =>
    obtain ⟨hs, hl, hr⟩ := h
    simp only [Tree.idx_node, Tree.leafIdx, hs, ihl hl, ihr hr]
    simp [countSum]

/-- Every node of a held tree whose counts add up has a subtree. -/
theorem Tree.subtree {nodes : List Node} {T : Tree} (h : T.Holds nodes) (hs : T.Sums nodes) :
    ∀ k ∈ T.indices, ∃ U : Tree, U.idx = k ∧ U.Holds nodes ∧ U.Sums nodes ∧ (∀ j ∈ U.leafIdx, j ∈ T.leafIdx) ∧
      U.leafIdx.length ≤ T.leafIdx.length := by
  induction T with
  | leaf i sym =>
    intro k hk
    simp only [Tree.indices, List.mem_singleton] at hk
    exact ⟨.leaf i sym, hk.symm, h, hs, fun _ h => h, le_rfl⟩
  | node i l r ihl ihr =>
    intro k hk
    simp only [Tree.indices, List.mem_cons, List.mem_append] at hk
    rcases hk with rfl | hk | hk
    · exact ⟨.node k l r, rfl, h, hs, fun _ h => h, le_rfl⟩
    · obtain ⟨U, hU, hh, hss, hl, hle⟩ := ihl h.2.1 hs.2.1 k hk
      refine ⟨U, hU, hh, hss, fun j hj => by simp [Tree.leafIdx, hl j hj], ?_⟩
      simp only [Tree.leafIdx, List.length_append]; omega
    · obtain ⟨U, hU, hh, hss, hl, hle⟩ := ihr h.2.2 hs.2.2 k hk
      refine ⟨U, hU, hh, hss, fun j hj => by simp [Tree.leafIdx, hl j hj], ?_⟩
      simp only [Tree.leafIdx, List.length_append]; omega

/-- Everything `BUILD` can do (R111): an error with nothing changed, or one tree over all pushed leaves. -/
theorem execBuild_cases (s : State) :
    (s.tree = true ∧ execBuild s = .next (raise .sequenceError s)) ∨
    (s.tree = false ∧ s.q.length < 2 ∧ execBuild s = .next (raise .insufficientAlphabet s)) ∨
    (s.tree = false ∧ 2 ≤ s.q.length ∧ ∃ u r, mergeLoop s.q.length s = some u ∧ u.q = [r] ∧ MergedFrom s u ∧
      execBuild s = .next (finish { u with q := [], root := some r, tree := true, codes := false })) := by
  unfold execBuild
  split
  · rename_i ht; exact .inl ⟨ht, rfl⟩
  rename_i ht
  simp only [Bool.not_eq_true] at ht
  split
  · rename_i h2; exact .inr (.inl ⟨ht, h2, rfl⟩)
  rename_i h2
  refine .inr (.inr ⟨ht, by omega, ?_⟩)
  obtain ⟨u, hu, hm, hl, hne⟩ := mergeLoop_total s.q.length s (by omega)
  have hne' : u.q ≠ [] := hne (by rintro h; rw [h] at h2; simp at h2)
  obtain ⟨r, hr⟩ : ∃ r, u.q = [r] := by
    match hq' : u.q, hne', hl with
    | [r], _, _ => exact ⟨r, rfl⟩
    | _ :: _ :: _, _, hl => simp at hl
  refine ⟨u, r, hu, hr, hm, ?_⟩
  rw [hu]
  simp [extractMin, hr, leastOf]

theorem execBuild_inv {s t : State} (h : Inv s) (hp : s.prog = .start) (ht : execBuild s = .next t) : Inv t := by
  have pl : s.prog.plain = true := by simp [hp, Progress.plain]
  have np : s.prog ≠ .pack := by simp [hp]
  rcases execBuild_cases s with ⟨-, he⟩ | ⟨-, -, he⟩ | ⟨htree, h2, u, r, hu, hr, hm, he⟩
  · rw [he] at ht; cases ht; exact h.raise _ pl np
  · rw [he] at ht; cases ht; exact h.raise _ pl np
  rw [he] at ht
  cases ht
  have hst := h.storeOk pl
  simp only [StoreOk, htree, Bool.false_eq_true, if_false] at hst
  obtain ⟨hf, hroots⟩ := hst.2.forest
  obtain ⟨Us, hUs, hidx⟩ := mergeLoop_forest _ s u _ hf hroots hu
  rw [hr] at hidx
  obtain ⟨T, rfl, hT⟩ : ∃ T, Us = [T] ∧ T.idx = r := by
    match Us, hidx with
    | [T], hidx => exact ⟨T, rfl, by simpa using hidx⟩
  obtain ⟨more, nint, seq, q, rfl, hmore⟩ := hm
  have hcfg := h.params
  simp only [Config.wf, Bool.and_eq_true, decide_eq_true_eq] at hcfg
  have hhold := hUs.holds T (by simp)
  have hsums := hUs.sums T (by simp)
  have hsize := hUs.size
  have hnodes := hUs.allNodes
  have hleaves := hUs.allLeaves
  simp only [List.flatMap_cons, List.flatMap_nil, List.append_nil, List.length_singleton] at hhold hsums hsize hnodes hleaves
  have hll : s.leaves.length = s.q.length := by rw [hst.2.q]
  have hcap := h.leafCap
  have hlen : T.leafIdx.length = s.leaves.length := hleaves.length_eq
  have hok : ∀ nd ∈ s.nodes ++ more, NodeOk nd := by
    intro nd hnd
    have hcount : nd.count < 2 ^ 64 := by
      obtain ⟨k, hk, rfl⟩ := List.getElem_of_mem hnd
      have hkT : k ∈ T.indices := hnodes.mem_iff.mpr (List.mem_range.mpr hk)
      obtain ⟨U, rfl, hUh, hUs', hUl, hUlen⟩ := T.subtree hhold hsums k hkT
      rw [← nodeAt_of_some (List.getElem?_eq_getElem hk), hUs'.count_eq]
      have old : ∀ j ∈ U.leafIdx, j < s.nodes.length ∧ (nodeAt (s.nodes ++ more) j).count = (nodeAt s.nodes j).count ∧
          (nodeAt s.nodes j).kind = .leaf := by
        intro j hj
        have hj' : j ∈ s.leaves := hleaves.mem_iff.mp (hUl j hj)
        rw [hst.2.leaves, List.mem_range] at hj'
        refine ⟨hj', by rw [nodeAt_append_left _ _ _ hj'], hst.2.kind _ ?_⟩
        rw [nodeAt_of_some (List.getElem?_eq_getElem hj')]; exact List.getElem_mem hj'
      rw [countSum_congr fun j hj => (old j hj).2.1]
      exact countSum_lt h.records hcfg.2 _ (fun j hj => ⟨(old j hj).1, (old j hj).2.2⟩) (by omega)
    rcases List.mem_append.mp hnd with hnd' | hnd'
    · exact h.records nd hnd'
    · obtain ⟨hk, hsym, hc⟩ := hmore nd hnd'
      exact ⟨by simp [hsym], by simp [hk], hcount, by simp [hc]⟩
  have hisNode : T.isNode = true := by
    cases T with
    | leaf k sym => simp [Tree.leafIdx] at hlen; omega
    | node k l r => rfl
  exact
    { h with
      errIdle := fun _ => .inl rfl
      codesTree := fun _ => rfl
      eosTree := fun _ => rfl
      unreadTree := fun hf => by simp [Machine.finish] at hf
      pendIdle := fun _ => h.pendIdle np
      nintCap := by simp only [Machine.finish]; omega
      records := hok
      store := by
        simp only [Machine.finish, if_true]
        exact ⟨rfl, by simpa using hsize, T, ⟨by simp [hT], hhold, hnodes, hleaves⟩, hisNode, hsums, by simp⟩
      progress := trivial }

/-! ### LEAF_READ, ASSIGN, SERIALIZE -/

theorem execLeafRead_inv {s t : State} (h : Inv s) (hp : s.prog = .start) (ht : execLeafRead s = .next t) : Inv t := by
  have pl : s.prog.plain = true := by simp [hp, Progress.plain]
  have np : s.prog ≠ .pack := by simp [hp]
  unfold execLeafRead at ht
  split at ht
  · cases ht; exact h.raise _ pl np
  split at ht
  · cases ht
  cases ht
  exact h.idle_of pl ⟨rfl, rfl, rfl, rfl, rfl, rfl, rfl⟩ rfl h.errcode (fun _ => .inl rfl) rfl h.eosTree h.unread h.unreadTree h.acc
    h.pendCap (fun _ => h.pendIdle np) rfl

theorem NodeOk.sameButCode {a b : Node} (h : NodeOk a) (e : a.SameButCode b) : NodeOk b := by
  obtain ⟨c, l, rfl, hl⟩ := e
  exact ⟨h.sym, h.leafCount, h.count, hl h.clen⟩

theorem SameButCodes.records {a b : List Node} (e : SameButCodes a b) (h : ∀ nd ∈ a, NodeOk nd) : ∀ nd ∈ b, NodeOk nd := by
  intro nd hnd
  obtain ⟨k, hk, rfl⟩ := List.getElem_of_mem hnd
  have hk' : k < a.length := e.1 ▸ hk
  obtain ⟨nd', h', hs⟩ := e.2 k _ (List.getElem?_eq_getElem hk')
  rw [List.getElem?_eq_getElem hk, Option.some_inj] at h'
  exact h' ▸ (h _ (List.getElem_mem hk')).sameButCode hs

theorem SameButCodes.count {a b : List Node} (e : SameButCodes a b) (k : Nat) : (nodeAt b k).count = (nodeAt a k).count := by
  by_cases hk : k < a.length
  · obtain ⟨nd', h', c, l, rfl, -⟩ := e.2 k _ (List.getElem?_eq_getElem hk)
    rw [nodeAt_of_some h', nodeAt_of_some (List.getElem?_eq_getElem hk)]
  · simp [nodeAt, List.getD, List.getElem?_eq_none (Nat.le_of_not_lt hk), List.getElem?_eq_none (e.1 ▸ Nat.le_of_not_lt hk)]

theorem State.HasTree.sameButCodes {s t : State} {T : Tree} (h : s.HasTree T) (e : SameButCodes s.nodes t.nodes)
    (hr : t.root = s.root) (hl : t.leaves = s.leaves) : t.HasTree T :=
  ⟨hr ▸ h.root, h.holds.keep (e.keeps _), by rw [e.1]; exact h.nodes, hl ▸ h.leaves⟩

theorem execAssign_inv {s t : State} (h : Inv s) (hp : s.prog = .start) (ht : execAssign s = .next t) : Inv t := by
  have pl : s.prog.plain = true := by simp [hp, Progress.plain]
  have np : s.prog ≠ .pack := by simp [hp]
  unfold execAssign at ht
  split at ht
  · cases ht; exact h.raise _ pl np
  rename_i htree
  simp only [Bool.not_eq_true', Bool.not_eq_false] at htree
  have hst := h.storeOk pl
  simp only [StoreOk, htree, if_true] at hst
  obtain ⟨hq, hi, T, hT, hN, hS, -⟩ := hst
  rw [hT.root] at ht
  simp only at ht
  by_cases hd : T.depth ≤ 64
  · obtain ⟨nodes', hv, hsame, -, hcodes⟩ := visit_done hT.holds hT.nodup 0 0 (by simp) (by omega)
    rw [show codeMax + 1 = 65 - 0 from rfl, hv] at ht
    cases ht
    exact
      { h with
        errIdle := fun _ => .inl rfl
        codesTree := fun _ => htree
        pendIdle := fun _ => h.pendIdle np
        records := hsame.records h.records
        store := by
          simp only [Machine.finish, htree, if_true]
          refine ⟨hq, hi, T, hT.sameButCodes hsame hT.root.symm rfl, hN, hS.keep fun k _ => hsame.count k, ?_⟩
          intro _ e he
          obtain ⟨a, b⟩ := hcodes _ (T.entries_paths e he)
          exact ⟨by simpa using a, by simpa using b⟩
        progress := trivial }
  · rw [show codeMax + 1 = 65 - 0 from rfl, visit_overflow hT.holds hT.nodup 0 0 (by simp) (by omega) (by omega)] at ht
    cases ht
    have hsame := SameButCodes.freeCodes s.draws s.nodes
    exact
      { h with
        errcode := by simp only [Machine.raise, if_true]; exact ⟨_, rfl⟩
        errIdle := fun _ => .inl rfl
        codesTree := fun hc => by simp [Machine.raise] at hc
        pendIdle := fun _ => h.pendIdle np
        records := hsame.records h.records
        store := by
          simp only [Machine.raise, htree, if_true]
          exact ⟨hq, hi, T, hT.sameButCodes hsame hT.root.symm rfl, hN, hS.keep fun k _ => hsame.count k, by simp⟩
        progress := trivial }

/-- Everything `offer` can do (R68, R70): a first part of the bytes is accepted, the rest is left only when the sink makes the core
wait. -/
theorem offer_spec (bs : List Byte) (s : State) :
    ∃ done rest room, bs = done ++ rest ∧ offer bs s = ({ s with out := { bytes := s.out.bytes ++ done, room := room } }, rest) ∧
      (rest ≠ [] → room = some 0) ∧ (s.out.room = none → room = none) := by
  induction bs generalizing s with
  | nil => exact ⟨[], [], s.out.room, rfl, by simp [offer], by simp, id⟩
  | cons b bs ih =>
    rw [offer]
    split
    · rename_i s1 hw
      obtain ⟨room1, rfl, hroom1⟩ := outWrite_some hw
      obtain ⟨done, rest, room, rfl, he, hr, hn⟩ := ih { s with out := { bytes := s.out.bytes ++ [b], room := room1 } }
      exact ⟨b :: done, rest, room, rfl, by rw [he]; simp, hr, fun h => hn (hroom1 h)⟩
    · rename_i hw
      exact ⟨[], b :: bs, s.out.room, rfl, by simp, fun _ => outWrite_none hw, id⟩

theorem emitBytes_inv {s t : State} {bs : List Byte} (h : Inv s) (hs : s.prog.plain = true) (hp : s.prog ≠ .pack)
    (herr : s.err = false) (ht : emitBytes bs s = .next t) : Inv t := by
  unfold emitBytes at ht
  obtain ⟨done, rest, room, -, he, -, -⟩ := offer_spec bs s
  rw [he] at ht
  cases rest with
  | nil =>
    cases ht
    exact h.idle_of hs ⟨rfl, rfl, rfl, rfl, rfl, rfl, rfl⟩ rfl h.errcode (fun _ => .inl rfl) rfl h.eosTree h.unread h.unreadTree h.acc
      h.pendCap (fun _ => h.pendIdle hp) rfl
  | cons b rest =>
    cases ht
    exact h.idle_of hs ⟨rfl, rfl, rfl, rfl, rfl, rfl, rfl⟩ rfl h.errcode (fun he => by simp [herr] at he) rfl h.eosTree h.unread
      h.unreadTree h.acc h.pendCap (fun _ => h.pendIdle hp) rfl

theorem execSerialize_inv {s t : State} (h : Inv s) (hp : s.prog = .start) (herr : s.err = false)
    (ht : execSerialize s = .next t) : Inv t := by
  have pl : s.prog.plain = true := by simp [hp, Progress.plain]
  have np : s.prog ≠ .pack := by simp [hp]
  unfold execSerialize at ht
  split at ht
  · cases ht; exact h.raise _ pl np
  split at ht
  · cases ht
  split at ht
  · cases ht
  · exact emitBytes_inv h pl np herr ht

/-! ### PUSH, PUSH_LEAF, FLUSH -/

theorem packRun_inv {s : State} (h : Inv s) (hs : s.prog.plain = true) (herr : s.err = false) (acc pend : Nat)
    (hacc : acc < 2 ^ pend) (hcap : pend ≤ s.cfg.accCap) : ∃ t, packRun { s with acc := acc, pend := pend } = .next t ∧ Inv t := by
  obtain ⟨bs, room, prog, pend', acc', heq, -, hacc', hle, hend, -⟩ :=
    packLoop_spec pend { s with acc := acc, pend := pend } le_rfl hacc
  refine ⟨_, by rw [packRun, heq], ?_⟩
  simp only at hle
  refine h.idle_of hs ⟨rfl, rfl, rfl, rfl, rfl, rfl, rfl⟩ rfl h.errcode (fun he => by simp [herr] at he) rfl h.eosTree h.unread
    h.unreadTree hacc' (le_trans hle hcap) ?_ ?_
  · rcases hend with ⟨rfl, hl⟩ | ⟨rfl, -⟩
    · exact fun _ => by simpa using Nat.le_of_lt_succ hl
    · simp
  · rcases hend with ⟨rfl, -⟩ | ⟨rfl, -⟩ <;> rfl

theorem append_inv {s t : State} {c : Code} {len : Nat} (h : Inv s) (hs : s.prog.plain = true) (hp : s.prog ≠ .pack)
    (herr : s.err = false) (ht : append c len s = .next t) : Inv t := by
  unfold append at ht
  split at ht
  · cases ht; exact h.raise _ hs hp
  · rename_i hcap
    obtain ⟨-, hlt⟩ := appendBits_spec c len s h.acc
    obtain ⟨u, hu, hi⟩ := packRun_inv h hs herr _ _ hlt (by simp only [appendBits]; omega)
    rw [show appendBits c len s = { s with acc := (appendBits c len s).acc, pend := (appendBits c len s).pend } from rfl, hu] at ht
    cases ht
    exact hi

theorem execPush_inv {s t : State} (h : Inv s) (hp : s.prog = .start) (herr : s.err = false) (ht : execPush s = .next t) : Inv t := by
  have pl : s.prog.plain = true := by simp [hp, Progress.plain]
  have np : s.prog ≠ .pack := by simp [hp]
  unfold execPush at ht
  split at ht
  · cases ht; exact h.raise _ pl np
  · exact append_inv h pl np herr ht

theorem execPushLeaf_inv {s t : State} (h : Inv s) (hp : s.prog = .start) (herr : s.err = false)
    (ht : execPushLeaf s = .next t) : Inv t := by
  have pl : s.prog.plain = true := by simp [hp, Progress.plain]
  have np : s.prog ≠ .pack := by simp [hp]
  unfold execPushLeaf at ht
  split at ht
  · cases ht; exact h.raise _ pl np
  split at ht
  · cases ht; exact h.raise _ pl np
  split at ht
  · cases ht
  · exact append_inv h pl np herr ht

theorem flushRun_inv {s t : State} (h : Inv s) (hs : s.prog.plain = true) (herr : s.err = false)
    (ht : flushRun s = .next t) : Inv t := by
  unfold flushRun at ht
  split at ht
  · cases ht
  rename_i h7
  split at ht
  · split at ht
    · cases ht
      exact h.idle_of hs ⟨rfl, rfl, rfl, rfl, rfl, rfl, rfl⟩ rfl h.errcode (fun he => by simp [herr] at he) rfl h.eosTree h.unread
        h.unreadTree h.acc h.pendCap (fun _ => by show s.pend ≤ 7; omega) rfl
    · rename_i s1 hw
      obtain ⟨room, rfl, -⟩ := outWrite_some hw
      cases ht
      exact h.idle_of hs ⟨rfl, rfl, rfl, rfl, rfl, rfl, rfl⟩ rfl h.errcode (fun _ => .inl rfl) rfl h.eosTree h.unread h.unreadTree
        (by simp [Machine.finish]) (by simp [Machine.finish]) (fun _ => by simp [Machine.finish]) rfl
  · cases ht
    exact h.idle_of hs ⟨rfl, rfl, rfl, rfl, rfl, rfl, rfl⟩ rfl h.errcode (fun _ => .inl rfl) rfl h.eosTree h.unread h.unreadTree
      (by simp [Machine.finish]) (by simp [Machine.finish]) (fun _ => by simp [Machine.finish]) rfl

end Sys2Proof.Machine
end

