-- ==== Sys2Proof/Laws/Deserializer.lean ====
section
/-! SUPPORT. The deserializer (R141): what one byte does to the partial tree, and that the whole loop keeps the invariant and never
faults. -/

namespace Sys2Proof.Machine

theorem FramesHold.keep {nodes nodes' : List Node} {fs : List Frame} {order leaves : List Nat}
    (h : FramesHold nodes fs order leaves) (k : KeepsTree nodes nodes' order) : FramesHold nodes' fs order leaves := by
  induction h with
  | nil => exact .nil
  | left i nd fs order leaves hi hk _ ih =>
    obtain ⟨nd', h', e⟩ := k i (by simp) nd hi
    exact .left i nd' fs order leaves h' (e.1.trans hk) (ih (k.mono (by simp +contextual)))
  | right i nd T fs order leaves hi hk hT _ ih =>
    obtain ⟨nd', h', e⟩ := k i (by simp) nd hi
    exact .right i nd' T fs order leaves h' (e.1.trans hk) (hT.keep (k.mono (by simp +contextual)))
      (ih (k.mono (by simp +contextual)))

/-- Only the node store, the leaf list, `NINT` and the input port differ. -/
def DesFrom (s t : State) : Prop :=
  ∃ nodes leaves nint inp, t = { s with nodes := nodes, leaves := leaves, nint := nint, inp := inp }

theorem DesFrom.refl (s : State) : DesFrom s s := ⟨s.nodes, s.leaves, s.nint, s.inp, rfl⟩

theorem DesFrom.trans {s t u : State} (h₁ : DesFrom s t) (h₂ : DesFrom t u) : DesFrom s u := by
  obtain ⟨a, b, c, d, rfl⟩ := h₁
  obtain ⟨a', b', c', d', rfl⟩ := h₂
  exact ⟨a', b', c', d', rfl⟩

/-- The bounds on the store (R35, R38, R39) while a tree is read, every count being 0 (D21). -/
structure DesBounds (s : State) : Prop where
  q : s.q = []
  size : s.nodes.length = s.leaves.length + s.nint
  zero : ∀ nd ∈ s.nodes, nd.count = 0
  records : ∀ nd ∈ s.nodes, NodeOk nd
  leafCap : s.leaves.length ≤ s.cfg.leafMax
  nintCap : s.nint ≤ s.cfg.leafMax - 1

/-- A complete tree stands in the store, its nodes and leaves in pre-order (R141). -/
def ReadTree (s : State) (r : Nat) : Prop :=
  ∃ U : Tree, U.idx = r ∧ U.Holds s.nodes ∧ U.indices = List.range s.nodes.length ∧ U.leafIdx = s.leaves

theorem modify_mem {nodes : List Node} {k : Nat} {f : Node → Node} {nd : Node} (h : nd ∈ nodes.modify k f) :
    nd ∈ nodes ∨ ∃ nd', nodes[k]? = some nd' ∧ nd = f nd' := by
  obtain ⟨i, hi, rfl⟩ := List.getElem_of_mem h
  rw [List.length_modify] at hi
  rw [List.getElem_modify]
  split
  · rename_i hk; subst hk; exact .inr ⟨_, List.getElem?_eq_getElem hi, rfl⟩
  · exact .inl (List.getElem_mem hi)

theorem DesBounds.modify {s : State} (h : DesBounds s) (k : Nat) (f : Node → Node)
    (hf : ∀ nd, s.nodes[k]? = some nd → (f nd).count = 0 ∧ NodeOk (f nd)) : DesBounds (setNode k f s) := by
  refine ⟨h.q, by simpa [setNode] using h.size, ?_, ?_, h.leafCap, h.nintCap⟩
  · intro nd hnd
    rcases modify_mem hnd with hnd | ⟨nd', hk, rfl⟩
    · exact h.zero nd hnd
    · exact (hf nd' hk).1
  · intro nd hnd
    rcases modify_mem hnd with hnd | ⟨nd', hk, rfl⟩
    · exact h.records nd hnd
    · exact (hf nd' hk).2

/-- Everything `closeNode` can do when the node just read completes the pre-order (R141): either an open node's right subtree is next,
or the whole tree is read. -/
theorem closeNode_spec (fs : List Frame) (s : State) (T : Tree) (order leaves : List Nat) (hT : T.Holds s.nodes)
    (hF : FramesHold s.nodes fs order leaves) (ho : order ++ T.indices = List.range s.nodes.length)
    (hl : s.leaves = leaves ++ T.leafIdx) (hb : DesBounds s) :
    ∃ t, DesFrom s t ∧ DesBounds t ∧
      ((∃ fs', closeNode T.idx fs s = .more fs' .marker t ∧ PartialTree t fs' .marker) ∨
       (∃ r, closeNode T.idx fs s = .done r t ∧ ReadTree t r)) := by
  induction fs generalizing s T order leaves with
  | nil =>
    cases hF
    refine ⟨s, DesFrom.refl s, hb, .inr ⟨T.idx, rfl, T, rfl, hT, by simpa using ho, by simpa using hl.symm⟩⟩
  | cons fr fs ih =>
  cases hF with
  | left k nd fs order leaves hk hkind hF =>
    refine ⟨s, DesFrom.refl s, hb, .inl ⟨_, rfl, hb.q, hb.size, hb.zero, order ++ k :: T.indices, leaves ++ T.leafIdx, ?_, ?_, hl⟩⟩
    · exact .right k nd T fs order leaves hk hkind hT hF
    · simpa using ho
  | right k nd A fs order leaves hk hkind hA hF =>
    have hnd : (order ++ k :: (A.indices ++ T.indices)).Nodup := by
      have : (order ++ k :: A.indices ++ T.indices) = order ++ k :: (A.indices ++ T.indices) := by simp
      rw [← this, ho]; exact List.nodup_range
    rw [List.nodup_append] at hnd
    obtain ⟨-, hkn, hdis⟩ := hnd
    rw [List.nodup_cons, List.mem_append, not_or] at hkn
    have hko : k ∉ order := fun h => hdis k h k (by simp) rfl
    set f : Node → Node := fun nd => { nd with left := some A.idx, right := some T.idx, count := 0 } with hf
    set s1 := setNode k f s with hs1
    have keepA : KeepsTree s.nodes s1.nodes A.indices := KeepsTree.modify k f fun h => absurd h hkn.1.1
    have keepT : KeepsTree s.nodes s1.nodes T.indices := KeepsTree.modify k f fun h => absurd h hkn.1.2
    have keepO : KeepsTree s.nodes s1.nodes order := KeepsTree.modify k f fun h => absurd h hko
    have hb1 : DesBounds s1 := hb.modify k f fun nd' hnd' => by
      have hok := hb.records nd' (List.mem_of_getElem? hnd')
      have hz := hb.zero nd' (List.mem_of_getElem? hnd')
      exact ⟨rfl, hok.sym, fun _ => by simp [hf], by simp [hf], hok.clen⟩
    have hnode : (Tree.node k A T).Holds s1.nodes :=
      ⟨⟨f nd, by simp [hs1, setNode, hk], hkind, rfl, rfl⟩, hA.keep keepA, hT.keep keepT⟩
    obtain ⟨t, hfrom, hbt, hres⟩ := ih s1 (.node k A T) order leaves hnode (hF.keep keepO)
      (by simpa [Tree.indices, hs1, setNode] using ho) (by simpa [Tree.leafIdx, hs1, setNode] using hl) hb1
    refine ⟨t, DesFrom.trans ⟨s1.nodes, s.leaves, s.nint, s.inp, rfl⟩ hfrom, hbt, ?_⟩
    simpa only [closeNode, Tree.idx_node] using hres

/-- Everything one byte can do to the partial tree (R141, R85). -/
theorem desByte_spec (b : Byte) (fs : List Frame) (w : Want) (s : State) (hp : PartialTree s fs w) (hb : DesBounds s) :
    ∃ t, DesFrom s t ∧
      ((∃ fs' w', desByte b fs w s = .more fs' w' t ∧ PartialTree t fs' w' ∧ DesBounds t) ∨
       (∃ r, desByte b fs w s = .done r t ∧ ReadTree t r ∧ DesBounds t) ∨ (∃ e, desByte b fs w s = .fail e t)) := by
  obtain ⟨-, -, -, order, leaves, hF, hw⟩ := hp
  cases w with
  | marker =>
    obtain ⟨ho, hl⟩ := hw
    simp only [desByte, desMarker]
    split
    · split
      · exact ⟨s, DesFrom.refl s, .inr (.inr ⟨_, rfl⟩)⟩
      · rename_i hcap
        have hblank : NodeOk (Node.blank .internal) := ⟨by simp [Node.blank], by simp [Node.blank], by simp [Node.blank], by simp [Node.blank]⟩
        have hb' : DesBounds { alloc .internal s with nint := s.nint + 1 } := by
          refine ⟨hb.q, ?_, ?_, ?_, hb.leafCap, ?_⟩
          · have := hb.size; simp only [alloc, List.length_append, List.length_singleton]; omega
          · intro nd hnd
            rcases List.mem_append.mp hnd with h | h
            · exact hb.zero nd h
            · obtain rfl := List.mem_singleton.mp h; rfl
          · intro nd hnd
            rcases List.mem_append.mp hnd with h | h
            · exact hb.records nd h
            · obtain rfl := List.mem_singleton.mp h; exact hblank
          · have := hb.nintCap; simp only [alloc]; omega
        refine ⟨_, ⟨_, s.leaves, s.nint + 1, s.inp, rfl⟩, .inl ⟨_, _, rfl, ⟨hb'.q, hb'.size, hb'.zero, order ++ [s.nodes.length], leaves, ?_, ?_, hl⟩, hb'⟩⟩
        · exact .left _ (Node.blank .internal) fs order leaves (by simp [alloc]) rfl (hF.keep (KeepsTree.append _))
        · simp [alloc, List.range_succ, ho]
    · split
      · exact ⟨s, DesFrom.refl s, .inr (.inr ⟨_, rfl⟩)⟩
      · rename_i hlen
        split
        · exact ⟨s, DesFrom.refl s, .inr (.inr ⟨_, rfl⟩)⟩
        · rename_i hcap
          have hblank : NodeOk (Node.blank .leaf) := ⟨by simp [Node.blank], by simp [Node.blank], by simp [Node.blank], by simp [Node.blank]⟩
          have hb' : DesBounds { alloc .leaf s with leaves := s.leaves ++ [s.nodes.length] } := by
            refine ⟨hb.q, ?_, ?_, ?_, ?_, hb.nintCap⟩
            · have := hb.size; simp only [alloc, List.length_append, List.length_singleton]; omega
            · intro nd hnd
              rcases List.mem_append.mp hnd with h | h
              · exact hb.zero nd h
              · obtain rfl := List.mem_singleton.mp h; rfl
            · intro nd hnd
              rcases List.mem_append.mp hnd with h | h
              · exact hb.records nd h
              · obtain rfl := List.mem_singleton.mp h; exact hblank
            · have := hb.leafCap; simp only [State.nleaf] at hcap; simp only [alloc, List.length_append, List.length_singleton]; omega
          have hF' : FramesHold (s.nodes ++ [Node.blank .leaf]) fs order leaves := hF.keep (KeepsTree.append _)
          split
          · obtain ⟨t, hfrom, hbt, hres⟩ := closeNode_spec fs { alloc .leaf s with leaves := s.leaves ++ [s.nodes.length] }
              (.leaf s.nodes.length []) order leaves ⟨Node.blank .leaf, by simp [alloc], rfl, rfl⟩ hF'
              (by simp [alloc, Tree.indices, List.range_succ, ho]) (by simp [Tree.leafIdx, hl]) hb'
            refine ⟨t, DesFrom.trans ⟨_, _, s.nint, s.inp, rfl⟩ hfrom, ?_⟩
            rcases hres with ⟨fs', he, hp'⟩ | ⟨r, he, hr⟩
            · exact .inl ⟨fs', _, he, hp', hbt⟩
            · exact .inr (.inl ⟨r, he, hr, hbt⟩)
          · rename_i h0
            refine ⟨_, ⟨_, _, s.nint, s.inp, rfl⟩, .inl ⟨_, _, rfl, ⟨hb'.q, hb'.size, hb'.zero, order, leaves, hF', ?_, ?_, by omega, ?_⟩, hb'⟩⟩
            · simp [alloc, List.range_succ, ho]
            · simp [hl]
            · exact ⟨Node.blank .leaf, by simp [alloc], rfl, by simp [Node.blank]; omega⟩
  | symbol k rem =>
    obtain ⟨ho, hl, hrem, nd, hk, hkind, hsym⟩ := hw
    simp only [desByte, desSymbol]
    have hko : k ∉ order := by
      have : (order ++ [k]).Nodup := by rw [ho]; exact List.nodup_range
      rw [List.nodup_append] at this
      exact fun h => this.2.2 k h k (by simp) rfl
    set f : Node → Node := fun nd => { nd with sym := nd.sym ++ [b] } with hf
    have hb' : DesBounds (setNode k f s) := hb.modify k f fun nd' hnd' => by
      rw [hk, Option.some_inj] at hnd'
      subst hnd'
      have hok := hb.records nd (List.mem_of_getElem? hk)
      exact ⟨hb.zero nd (List.mem_of_getElem? hk), by simp [hf]; omega, hok.leafCount, hok.count, hok.clen⟩
    have hF' : FramesHold (setNode k f s).nodes fs order leaves := hF.keep (KeepsTree.modify k f fun h => absurd h hko)
    have hk' : (setNode k f s).nodes[k]? = some (f nd) := by simp [setNode, hk]
    split
    · obtain ⟨t, hfrom, hbt, hres⟩ := closeNode_spec fs (setNode k f s) (.leaf k (f nd).sym) order leaves
        ⟨f nd, hk', hkind, rfl⟩ hF' (by simpa [Tree.indices, setNode] using ho) (by simpa [Tree.leafIdx, setNode] using hl) hb'
      refine ⟨t, DesFrom.trans ⟨_, s.leaves, s.nint, s.inp, rfl⟩ hfrom, ?_⟩
      rcases hres with ⟨fs', he, hp'⟩ | ⟨r, he, hr⟩
      · exact .inl ⟨fs', _, he, hp', hbt⟩
      · exact .inr (.inl ⟨r, he, hr, hbt⟩)
    · refine ⟨_, ⟨_, s.leaves, s.nint, s.inp, rfl⟩, .inl ⟨_, _, rfl, ⟨hb'.q, hb'.size, hb'.zero, order, leaves, hF', ?_, hl, by omega, f nd, hk', hkind, ?_⟩, hb'⟩⟩
      · simpa [setNode] using ho
      · simp only [hf, List.length_append, List.length_singleton]; omega

/-- The state outside the node store while a tree is read. -/
structure DesBase (s : State) : Prop where
  params : s.cfg.wf = true
  err : s.err = false
  errcode : s.errcode = 0
  tree : s.tree = false
  codes : s.codes = false
  eos : s.eos = false
  ubits : s.ubits = 0
  root : s.root = none
  acc : s.acc < 2 ^ s.pend
  pendCap : s.pend ≤ s.cfg.accCap
  pend : s.pend ≤ 7

theorem DesBase.of {s t : State} (h : DesBase s) (f : DesFrom s t) : DesBase t := by
  obtain ⟨a, b, c, d, rfl⟩ := f
  exact ⟨h.1, h.2, h.3, h.4, h.5, h.6, h.7, h.8, h.9, h.10, h.11⟩

theorem Tree.indices_length (T : Tree) : T.indices.length + 1 = 2 * T.leafIdx.length := by
  induction T with
  | leaf k sym => simp [Tree.indices, Tree.leafIdx]
  | node k l r ihl ihr => simp only [Tree.indices, Tree.leafIdx, List.length_cons, List.length_append]; omega

theorem Tree.Sums.of_zero {nodes : List Node} (h : ∀ nd ∈ nodes, nd.count = 0) (T : Tree) : T.Sums nodes := by
  have zero : ∀ k, (nodeAt nodes k).count = 0 := by
    intro k
    by_cases hk : k < nodes.length
    · rw [nodeAt_of_some (List.getElem?_eq_getElem hk)]; exact h _ (List.getElem_mem hk)
    · simp [nodeAt, List.getD, List.getElem?_eq_none (Nat.le_of_not_lt hk), Node.blank]
  induction T with
  | leaf k sym => trivial
  | node k l r ihl ihr => exact ⟨by simp [zero], ihl, ihr⟩

theorem desFail_inv {s : State} (e : Err) (h : DesBase s) (hq : s.q = []) : Inv (desFail e s) where
  params := h.params
  errcode := by simp only [desFail, raise, if_true]; exact ⟨e, rfl⟩
  errIdle _ := .inl rfl
  codesTree := by simp [desFail, raise]
  eosTree := by simp [desFail, raise, h.eos]
  unread := by simp [desFail, raise, h.ubits]
  unreadTree _ := h.ubits
  acc := h.acc
  pendCap := h.pendCap
  pendIdle _ := h.pend
  leafCap := by simp [desFail, raise]
  nintCap := by simp [desFail, raise]
  records := by simp [desFail, raise]
  store := by
    simp only [desFail, raise, Bool.false_eq_true, if_false, true_and]
    exact leavesOnly_empty hq rfl rfl rfl
  progress := trivial

theorem desPause_inv {s : State} {fs : List Frame} {w : Want} (h : DesBase s) (hb : DesBounds s) (hp : PartialTree s fs w) :
    Inv { s with prog := .deser fs w } where
  params := h.params
  errcode := by simp [h.err, h.errcode]
  errIdle := by simp [h.err]
  codesTree := by simp [h.codes]
  eosTree := by simp [h.eos]
  unread := by simp [h.ubits]
  unreadTree _ := h.ubits
  acc := h.acc
  pendCap := h.pendCap
  pendIdle _ := h.pend
  leafCap := hb.leafCap
  nintCap := hb.nintCap
  records := hb.records
  store := by
    simp only [h.tree, Bool.false_eq_true, if_false]
    exact ⟨h.root, hp⟩
  progress := h.tree

theorem desDone_inv {s : State} {r : Nat} (h : DesBase s) (hb : DesBounds s) (hr : ReadTree s r) :
    ∃ t, desDone r s = .next t ∧ Inv t := by
  obtain ⟨U, rfl, hU, ho, hl⟩ := hr
  have hlt := hU.lt _ U.idx_mem_indices
  unfold desDone
  rw [List.getElem?_eq_getElem hlt]
  simp only
  have hnode := hU.isNode_iff
  rw [nodeAt_of_some (List.getElem?_eq_getElem hlt)] at hnode
  split
  · exact ⟨_, rfl, desFail_inv _ h hb.q⟩
  · rename_i hk
    have hlen := U.indices_length
    rw [ho, hl, List.length_range] at hlen
    have := hb.size
    refine ⟨_, rfl, ⟨h.params, by simp [finish, h.err, h.errcode], fun _ => .inl rfl, by simp [finish], fun _ => rfl, by simp [finish, h.ubits], by simp [finish], h.acc, h.pendCap,
      fun _ => h.pend, hb.leafCap, hb.nintCap, hb.records, ?_, trivial⟩⟩
    simp only [finish, if_true]
    exact ⟨hb.q, by show s.nint + 1 = s.leaves.length; omega, U, ⟨rfl, hU, by rw [ho], by rw [hl]⟩, hnode.mpr hk, Tree.Sums.of_zero hb.zero U, by simp⟩

/-- The deserializer's loop answers a next state that meets the invariant. -/
theorem desLoop_inv (fuel : Nat) (fs : List Frame) (w : Want) (s : State) (h : DesBase s) (hb : DesBounds s)
    (hp : PartialTree s fs w) : ∃ t, desLoop fuel fs w s = .next t ∧ Inv t := by
  induction fuel generalizing fs w s with
  | zero => exact ⟨_, rfl, desPause_inv h hb hp⟩
  | succ n ih =>
    rw [desLoop]
    split
    · exact ⟨_, rfl, desPause_inv h hb hp⟩
    · exact ⟨_, rfl, desFail_inv _ h hb.q⟩
    · rename_i b s1 hin
      have hf1 : DesFrom s s1 := by
        unfold inRead at hin
        split at hin
        · cases hin; exact ⟨s.nodes, s.leaves, s.nint, _, rfl⟩
        · split at hin <;> cases hin
      have hsame : s1.nodes = s.nodes ∧ s1.leaves = s.leaves ∧ s1.nint = s.nint := by
        unfold inRead at hin
        split at hin
        · cases hin; exact ⟨rfl, rfl, rfl⟩
        · split at hin <;> cases hin
      have h1 := h.of hf1
      have hb1 : DesBounds s1 := by
        obtain ⟨a, b, c, d, rfl⟩ := hf1
        obtain ⟨rfl, rfl, rfl⟩ := hsame
        exact ⟨hb.q, hb.size, hb.zero, hb.records, hb.leafCap, hb.nintCap⟩
      have hp1 : PartialTree s1 fs w := by
        obtain ⟨a, b, c, d, rfl⟩ := hf1
        obtain ⟨rfl, rfl, rfl⟩ := hsame
        exact hp
      obtain ⟨t, hft, hres⟩ := desByte_spec b fs w s1 hp1 hb1
      have ht := h1.of hft
      rcases hres with ⟨fs', w', he, hp', hb'⟩ | ⟨r, he, hr, hb'⟩ | ⟨e, he⟩
      · rw [he]; exact ih fs' w' t ht hb' hp'
      · rw [he]; exact desDone_inv ht hb' hr
      · rw [he]
        refine ⟨_, rfl, desFail_inv _ ht ?_⟩
        obtain ⟨a, b, c, d, rfl⟩ := hft
        exact hb1.q

theorem desBase_of_inv {s : State} (h : Inv s) (herr : s.err = false) (htree : s.tree = false) (hp : s.prog ≠ .pack)
    (hroot : s.root = none) : DesBase s where
  params := h.params
  err := herr
  errcode := by have := h.errcode; simpa [herr] using this
  tree := htree
  codes := by have := h.codesTree; simpa [htree] using this
  eos := by have := h.eosTree; simpa [htree] using this
  ubits := h.unreadTree htree
  root := hroot
  acc := h.acc
  pendCap := h.pendCap
  pend := h.pendIdle hp

theorem execDeserialize_inv {s : State} (h : Inv s) (hp : s.prog = .start) (herr : s.err = false) :
    ∃ t, execDeserialize s = .next t ∧ Inv t := by
  have pl : s.prog.plain = true := by simp [hp, Progress.plain]
  have np : s.prog ≠ .pack := by simp [hp]
  unfold execDeserialize
  split
  · exact ⟨_, rfl, h.raise _ pl np⟩
  rename_i hc
  simp only [Bool.or_eq_true, Bool.not_eq_true', List.isEmpty_eq_false_iff, not_or, Bool.not_eq_true, not_not] at hc
  obtain ⟨htree, hl⟩ := hc
  have hl : s.leaves = [] := by simpa using hl
  have hst := h.storeOk pl
  simp only [StoreOk, htree, Bool.false_eq_true, if_false] at hst
  have hn : s.nodes = [] := by
    have := hst.2.leaves
    rw [hl] at this
    simpa using this.symm
  refine desLoop_inv _ [] .marker s (desBase_of_inv h herr htree np hst.1) ?_ ?_
  · exact ⟨by rw [hst.2.q, hl], by simp [hn, hl, hst.2.nint], by simp [hn], by simp [hn], h.leafCap, h.nintCap⟩
  · exact ⟨by rw [hst.2.q, hl], by simp [hn, hl, hst.2.nint], by simp [hn], [], [], .nil, by simp [hn], hl⟩

theorem desResume_inv {s : State} {fs : List Frame} {w : Want} (h : Inv s) (hp : s.prog = .deser fs w) :
    ∃ t, desRun fs w s = .next t ∧ Inv t := by
  have htree : s.tree = false := by have := h.progress; simpa [hp] using this
  have herr : s.err = false := by
    by_contra hne
    rcases h.errIdle (by simpa using hne) with h' | ⟨h', -⟩ <;> simp [hp] at h'
  have hst := h.store
  simp only [htree, Bool.false_eq_true, if_false, hp] at hst
  have hpt := hst.2
  obtain ⟨hq, hsize, hzero, -⟩ := hst.2
  exact desLoop_inv _ fs w s (desBase_of_inv h herr htree (by simp [hp]) hst.1) ⟨hq, hsize, hzero, h.records, h.leafCap, h.nintCap⟩ hpt

end Sys2Proof.Machine
end

