-- ==== Sys2Proof/Laws/State.lean ====
section
/-! SUPPORT. What the shared operations do to each field of the state, one lemma for each field that an operation writes and one for
each it keeps, all true by `rfl`; later proofs unfold no record update. -/

namespace Sys2Proof.Machine

/-! ### `return` (R201) -/

@[simp] theorem finish_cfg (s : State) : (finish s).cfg = s.cfg := rfl
@[simp] theorem finish_regs (s : State) : (finish s).regs = s.regs := rfl
@[simp] theorem finish_err (s : State) : (finish s).err = s.err := rfl
@[simp] theorem finish_errcode (s : State) : (finish s).errcode = s.errcode := rfl
@[simp] theorem finish_tree (s : State) : (finish s).tree = s.tree := rfl
@[simp] theorem finish_codes (s : State) : (finish s).codes = s.codes := rfl
@[simp] theorem finish_eos (s : State) : (finish s).eos = s.eos := rfl
@[simp] theorem finish_drop (s : State) : (finish s).drop = s.drop := rfl
@[simp] theorem finish_cur (s : State) : (finish s).cur = s.cur := rfl
@[simp] theorem finish_prog (s : State) : (finish s).prog = .idle := rfl
@[simp] theorem finish_nodes (s : State) : (finish s).nodes = s.nodes := rfl
@[simp] theorem finish_nint (s : State) : (finish s).nint = s.nint := rfl
@[simp] theorem finish_nextSeq (s : State) : (finish s).nextSeq = s.nextSeq := rfl
@[simp] theorem finish_q (s : State) : (finish s).q = s.q := rfl
@[simp] theorem finish_leaves (s : State) : (finish s).leaves = s.leaves := rfl
@[simp] theorem finish_root (s : State) : (finish s).root = s.root := rfl
@[simp] theorem finish_acc (s : State) : (finish s).acc = s.acc := rfl
@[simp] theorem finish_pend (s : State) : (finish s).pend = s.pend := rfl
@[simp] theorem finish_ubyte (s : State) : (finish s).ubyte = s.ubyte := rfl
@[simp] theorem finish_ubits (s : State) : (finish s).ubits = s.ubits := rfl
@[simp] theorem finish_inp (s : State) : (finish s).inp = s.inp := rfl
@[simp] theorem finish_out (s : State) : (finish s).out = s.out := rfl
@[simp] theorem finish_stalled (s : State) : (finish s).stalled = s.stalled := rfl
@[simp] theorem finish_events (s : State) : (finish s).events = s.events := rfl
@[simp] theorem finish_reads (s : State) : (finish s).reads = s.reads := rfl
@[simp] theorem finish_draws (s : State) : (finish s).draws = s.draws := rfl

/-! ### `raise` (R205) -/

@[simp] theorem raise_cfg (e : Err) (s : State) : (raise e s).cfg = s.cfg := rfl
@[simp] theorem raise_regs (e : Err) (s : State) : (raise e s).regs = s.regs := rfl
@[simp] theorem raise_err (e : Err) (s : State) : (raise e s).err = true := rfl
@[simp] theorem raise_errcode (e : Err) (s : State) : (raise e s).errcode = e.code := rfl
@[simp] theorem raise_tree (e : Err) (s : State) : (raise e s).tree = s.tree := rfl
@[simp] theorem raise_codes (e : Err) (s : State) : (raise e s).codes = s.codes := rfl
@[simp] theorem raise_eos (e : Err) (s : State) : (raise e s).eos = s.eos := rfl
@[simp] theorem raise_drop (e : Err) (s : State) : (raise e s).drop = s.drop := rfl
@[simp] theorem raise_cur (e : Err) (s : State) : (raise e s).cur = s.cur := rfl
@[simp] theorem raise_prog (e : Err) (s : State) : (raise e s).prog = .idle := rfl
@[simp] theorem raise_nodes (e : Err) (s : State) : (raise e s).nodes = s.nodes := rfl
@[simp] theorem raise_nint (e : Err) (s : State) : (raise e s).nint = s.nint := rfl
@[simp] theorem raise_nextSeq (e : Err) (s : State) : (raise e s).nextSeq = s.nextSeq := rfl
@[simp] theorem raise_q (e : Err) (s : State) : (raise e s).q = s.q := rfl
@[simp] theorem raise_leaves (e : Err) (s : State) : (raise e s).leaves = s.leaves := rfl
@[simp] theorem raise_root (e : Err) (s : State) : (raise e s).root = s.root := rfl
@[simp] theorem raise_acc (e : Err) (s : State) : (raise e s).acc = s.acc := rfl
@[simp] theorem raise_pend (e : Err) (s : State) : (raise e s).pend = s.pend := rfl
@[simp] theorem raise_ubyte (e : Err) (s : State) : (raise e s).ubyte = s.ubyte := rfl
@[simp] theorem raise_ubits (e : Err) (s : State) : (raise e s).ubits = s.ubits := rfl
@[simp] theorem raise_inp (e : Err) (s : State) : (raise e s).inp = s.inp := rfl
@[simp] theorem raise_out (e : Err) (s : State) : (raise e s).out = s.out := rfl
@[simp] theorem raise_stalled (e : Err) (s : State) : (raise e s).stalled = s.stalled := rfl
@[simp] theorem raise_events (e : Err) (s : State) : (raise e s).events = s.events := rfl
@[simp] theorem raise_reads (e : Err) (s : State) : (raise e s).reads = s.reads := rfl
@[simp] theorem raise_draws (e : Err) (s : State) : (raise e s).draws = s.draws := rfl

/-! ### `State.done` -/

@[simp] theorem done_cfg (s : State) : (s.done).cfg = s.cfg := rfl
@[simp] theorem done_regs (s : State) : (s.done).regs = s.regs := rfl
@[simp] theorem done_err (s : State) : (s.done).err = s.err := rfl
@[simp] theorem done_errcode (s : State) : (s.done).errcode = s.errcode := rfl
@[simp] theorem done_tree (s : State) : (s.done).tree = s.tree := rfl
@[simp] theorem done_codes (s : State) : (s.done).codes = s.codes := rfl
@[simp] theorem done_eos (s : State) : (s.done).eos = s.eos := rfl
@[simp] theorem done_drop (s : State) : (s.done).drop = s.drop := rfl
@[simp] theorem done_cur (s : State) : (s.done).cur = s.cur := rfl
@[simp] theorem done_prog (s : State) : (s.done).prog = .idle := rfl
@[simp] theorem done_nodes (s : State) : (s.done).nodes = s.nodes := rfl
@[simp] theorem done_nint (s : State) : (s.done).nint = s.nint := rfl
@[simp] theorem done_nextSeq (s : State) : (s.done).nextSeq = s.nextSeq := rfl
@[simp] theorem done_q (s : State) : (s.done).q = s.q := rfl
@[simp] theorem done_leaves (s : State) : (s.done).leaves = s.leaves := rfl
@[simp] theorem done_root (s : State) : (s.done).root = s.root := rfl
@[simp] theorem done_acc (s : State) : (s.done).acc = s.acc := rfl
@[simp] theorem done_pend (s : State) : (s.done).pend = s.pend := rfl
@[simp] theorem done_ubyte (s : State) : (s.done).ubyte = s.ubyte := rfl
@[simp] theorem done_ubits (s : State) : (s.done).ubits = s.ubits := rfl
@[simp] theorem done_inp (s : State) : (s.done).inp = s.inp := rfl
@[simp] theorem done_out (s : State) : (s.done).out = s.out := rfl
@[simp] theorem done_stalled (s : State) : (s.done).stalled = s.stalled := rfl
@[simp] theorem done_events (s : State) : (s.done).events = s.events := rfl
@[simp] theorem done_reads (s : State) : (s.done).reads = s.reads := rfl
@[simp] theorem done_draws (s : State) : (s.done).draws = s.draws := rfl

/-! ### `State.failed` -/

@[simp] theorem failed_cfg (s : State) (c : BitVec 4) : (s.failed c).cfg = s.cfg := rfl
@[simp] theorem failed_regs (s : State) (c : BitVec 4) : (s.failed c).regs = s.regs := rfl
@[simp] theorem failed_err (s : State) (c : BitVec 4) : (s.failed c).err = true := rfl
@[simp] theorem failed_errcode (s : State) (c : BitVec 4) : (s.failed c).errcode = c := rfl
@[simp] theorem failed_tree (s : State) (c : BitVec 4) : (s.failed c).tree = s.tree := rfl
@[simp] theorem failed_codes (s : State) (c : BitVec 4) : (s.failed c).codes = s.codes := rfl
@[simp] theorem failed_eos (s : State) (c : BitVec 4) : (s.failed c).eos = s.eos := rfl
@[simp] theorem failed_drop (s : State) (c : BitVec 4) : (s.failed c).drop = s.drop := rfl
@[simp] theorem failed_cur (s : State) (c : BitVec 4) : (s.failed c).cur = s.cur := rfl
@[simp] theorem failed_prog (s : State) (c : BitVec 4) : (s.failed c).prog = .idle := rfl
@[simp] theorem failed_nodes (s : State) (c : BitVec 4) : (s.failed c).nodes = s.nodes := rfl
@[simp] theorem failed_nint (s : State) (c : BitVec 4) : (s.failed c).nint = s.nint := rfl
@[simp] theorem failed_nextSeq (s : State) (c : BitVec 4) : (s.failed c).nextSeq = s.nextSeq := rfl
@[simp] theorem failed_q (s : State) (c : BitVec 4) : (s.failed c).q = s.q := rfl
@[simp] theorem failed_leaves (s : State) (c : BitVec 4) : (s.failed c).leaves = s.leaves := rfl
@[simp] theorem failed_root (s : State) (c : BitVec 4) : (s.failed c).root = s.root := rfl
@[simp] theorem failed_acc (s : State) (c : BitVec 4) : (s.failed c).acc = s.acc := rfl
@[simp] theorem failed_pend (s : State) (c : BitVec 4) : (s.failed c).pend = s.pend := rfl
@[simp] theorem failed_ubyte (s : State) (c : BitVec 4) : (s.failed c).ubyte = s.ubyte := rfl
@[simp] theorem failed_ubits (s : State) (c : BitVec 4) : (s.failed c).ubits = s.ubits := rfl
@[simp] theorem failed_inp (s : State) (c : BitVec 4) : (s.failed c).inp = s.inp := rfl
@[simp] theorem failed_out (s : State) (c : BitVec 4) : (s.failed c).out = s.out := rfl
@[simp] theorem failed_stalled (s : State) (c : BitVec 4) : (s.failed c).stalled = s.stalled := rfl
@[simp] theorem failed_events (s : State) (c : BitVec 4) : (s.failed c).events = s.events := rfl
@[simp] theorem failed_reads (s : State) (c : BitVec 4) : (s.failed c).reads = s.reads := rfl
@[simp] theorem failed_draws (s : State) (c : BitVec 4) : (s.failed c).draws = s.draws := rfl

/-! ### The recovery (R100, R207) -/

@[simp] theorem clearOperation_cfg (s : State) : (clearOperation s).cfg = s.cfg := rfl
@[simp] theorem clearOperation_regs (s : State) : (clearOperation s).regs = s.regs := rfl
@[simp] theorem clearOperation_err (s : State) : (clearOperation s).err = false := rfl
@[simp] theorem clearOperation_errcode (s : State) : (clearOperation s).errcode = 0 := rfl
@[simp] theorem clearOperation_tree (s : State) : (clearOperation s).tree = false := rfl
@[simp] theorem clearOperation_codes (s : State) : (clearOperation s).codes = false := rfl
@[simp] theorem clearOperation_eos (s : State) : (clearOperation s).eos = false := rfl
@[simp] theorem clearOperation_drop (s : State) : (clearOperation s).drop = false := rfl
@[simp] theorem clearOperation_cur (s : State) : (clearOperation s).cur = s.cur := rfl
@[simp] theorem clearOperation_prog (s : State) : (clearOperation s).prog = s.prog := rfl
@[simp] theorem clearOperation_nodes (s : State) : (clearOperation s).nodes = [] := rfl
@[simp] theorem clearOperation_nint (s : State) : (clearOperation s).nint = 0 := rfl
@[simp] theorem clearOperation_nextSeq (s : State) : (clearOperation s).nextSeq = 0 := rfl
@[simp] theorem clearOperation_q (s : State) : (clearOperation s).q = [] := rfl
@[simp] theorem clearOperation_leaves (s : State) : (clearOperation s).leaves = [] := rfl
@[simp] theorem clearOperation_root (s : State) : (clearOperation s).root = none := rfl
@[simp] theorem clearOperation_acc (s : State) : (clearOperation s).acc = 0 := rfl
@[simp] theorem clearOperation_pend (s : State) : (clearOperation s).pend = 0 := rfl
@[simp] theorem clearOperation_ubyte (s : State) : (clearOperation s).ubyte = 0 := rfl
@[simp] theorem clearOperation_ubits (s : State) : (clearOperation s).ubits = 0 := rfl
@[simp] theorem clearOperation_inp (s : State) : (clearOperation s).inp = s.inp := rfl
@[simp] theorem clearOperation_out (s : State) : (clearOperation s).out = s.out := rfl
@[simp] theorem clearOperation_stalled (s : State) : (clearOperation s).stalled = s.stalled := rfl
@[simp] theorem clearOperation_events (s : State) : (clearOperation s).events = s.events := rfl
@[simp] theorem clearOperation_reads (s : State) : (clearOperation s).reads = s.reads := rfl
@[simp] theorem clearOperation_draws (s : State) : (clearOperation s).draws = s.draws := rfl

/-! ### Allocation (R35) -/

@[simp] theorem alloc_cfg (k : Kind) (s : State) : (alloc k s).cfg = s.cfg := rfl
@[simp] theorem alloc_regs (k : Kind) (s : State) : (alloc k s).regs = s.regs := rfl
@[simp] theorem alloc_err (k : Kind) (s : State) : (alloc k s).err = s.err := rfl
@[simp] theorem alloc_errcode (k : Kind) (s : State) : (alloc k s).errcode = s.errcode := rfl
@[simp] theorem alloc_tree (k : Kind) (s : State) : (alloc k s).tree = s.tree := rfl
@[simp] theorem alloc_codes (k : Kind) (s : State) : (alloc k s).codes = s.codes := rfl
@[simp] theorem alloc_eos (k : Kind) (s : State) : (alloc k s).eos = s.eos := rfl
@[simp] theorem alloc_drop (k : Kind) (s : State) : (alloc k s).drop = s.drop := rfl
@[simp] theorem alloc_cur (k : Kind) (s : State) : (alloc k s).cur = s.cur := rfl
@[simp] theorem alloc_prog (k : Kind) (s : State) : (alloc k s).prog = s.prog := rfl
@[simp] theorem alloc_nodes (k : Kind) (s : State) : (alloc k s).nodes = s.nodes ++ [Node.blank k] := rfl
@[simp] theorem alloc_nint (k : Kind) (s : State) : (alloc k s).nint = s.nint := rfl
@[simp] theorem alloc_nextSeq (k : Kind) (s : State) : (alloc k s).nextSeq = s.nextSeq := rfl
@[simp] theorem alloc_q (k : Kind) (s : State) : (alloc k s).q = s.q := rfl
@[simp] theorem alloc_leaves (k : Kind) (s : State) : (alloc k s).leaves = s.leaves := rfl
@[simp] theorem alloc_root (k : Kind) (s : State) : (alloc k s).root = s.root := rfl
@[simp] theorem alloc_acc (k : Kind) (s : State) : (alloc k s).acc = s.acc := rfl
@[simp] theorem alloc_pend (k : Kind) (s : State) : (alloc k s).pend = s.pend := rfl
@[simp] theorem alloc_ubyte (k : Kind) (s : State) : (alloc k s).ubyte = s.ubyte := rfl
@[simp] theorem alloc_ubits (k : Kind) (s : State) : (alloc k s).ubits = s.ubits := rfl
@[simp] theorem alloc_inp (k : Kind) (s : State) : (alloc k s).inp = s.inp := rfl
@[simp] theorem alloc_out (k : Kind) (s : State) : (alloc k s).out = s.out := rfl
@[simp] theorem alloc_stalled (k : Kind) (s : State) : (alloc k s).stalled = s.stalled := rfl
@[simp] theorem alloc_events (k : Kind) (s : State) : (alloc k s).events = s.events := rfl
@[simp] theorem alloc_reads (k : Kind) (s : State) : (alloc k s).reads = s.reads := rfl
@[simp] theorem alloc_draws (k : Kind) (s : State) : (alloc k s).draws = s.draws := rfl

/-! ### Rewriting a record -/

@[simp] theorem setNode_cfg (k : Nat) (f : Node → Node) (s : State) : (setNode k f s).cfg = s.cfg := rfl
@[simp] theorem setNode_regs (k : Nat) (f : Node → Node) (s : State) : (setNode k f s).regs = s.regs := rfl
@[simp] theorem setNode_err (k : Nat) (f : Node → Node) (s : State) : (setNode k f s).err = s.err := rfl
@[simp] theorem setNode_errcode (k : Nat) (f : Node → Node) (s : State) : (setNode k f s).errcode = s.errcode := rfl
@[simp] theorem setNode_tree (k : Nat) (f : Node → Node) (s : State) : (setNode k f s).tree = s.tree := rfl
@[simp] theorem setNode_codes (k : Nat) (f : Node → Node) (s : State) : (setNode k f s).codes = s.codes := rfl
@[simp] theorem setNode_eos (k : Nat) (f : Node → Node) (s : State) : (setNode k f s).eos = s.eos := rfl
@[simp] theorem setNode_drop (k : Nat) (f : Node → Node) (s : State) : (setNode k f s).drop = s.drop := rfl
@[simp] theorem setNode_cur (k : Nat) (f : Node → Node) (s : State) : (setNode k f s).cur = s.cur := rfl
@[simp] theorem setNode_prog (k : Nat) (f : Node → Node) (s : State) : (setNode k f s).prog = s.prog := rfl
@[simp] theorem setNode_nodes (k : Nat) (f : Node → Node) (s : State) : (setNode k f s).nodes = s.nodes.modify k f := rfl
@[simp] theorem setNode_nint (k : Nat) (f : Node → Node) (s : State) : (setNode k f s).nint = s.nint := rfl
@[simp] theorem setNode_nextSeq (k : Nat) (f : Node → Node) (s : State) : (setNode k f s).nextSeq = s.nextSeq := rfl
@[simp] theorem setNode_q (k : Nat) (f : Node → Node) (s : State) : (setNode k f s).q = s.q := rfl
@[simp] theorem setNode_leaves (k : Nat) (f : Node → Node) (s : State) : (setNode k f s).leaves = s.leaves := rfl
@[simp] theorem setNode_root (k : Nat) (f : Node → Node) (s : State) : (setNode k f s).root = s.root := rfl
@[simp] theorem setNode_acc (k : Nat) (f : Node → Node) (s : State) : (setNode k f s).acc = s.acc := rfl
@[simp] theorem setNode_pend (k : Nat) (f : Node → Node) (s : State) : (setNode k f s).pend = s.pend := rfl
@[simp] theorem setNode_ubyte (k : Nat) (f : Node → Node) (s : State) : (setNode k f s).ubyte = s.ubyte := rfl
@[simp] theorem setNode_ubits (k : Nat) (f : Node → Node) (s : State) : (setNode k f s).ubits = s.ubits := rfl
@[simp] theorem setNode_inp (k : Nat) (f : Node → Node) (s : State) : (setNode k f s).inp = s.inp := rfl
@[simp] theorem setNode_out (k : Nat) (f : Node → Node) (s : State) : (setNode k f s).out = s.out := rfl
@[simp] theorem setNode_stalled (k : Nat) (f : Node → Node) (s : State) : (setNode k f s).stalled = s.stalled := rfl
@[simp] theorem setNode_events (k : Nat) (f : Node → Node) (s : State) : (setNode k f s).events = s.events := rfl
@[simp] theorem setNode_reads (k : Nat) (f : Node → Node) (s : State) : (setNode k f s).reads = s.reads := rfl
@[simp] theorem setNode_draws (k : Nat) (f : Node → Node) (s : State) : (setNode k f s).draws = s.draws := rfl

/-! ### `Q.insert` (R36) -/

@[simp] theorem insertQ_cfg (k : Nat) (s : State) : (insertQ k s).cfg = s.cfg := rfl
@[simp] theorem insertQ_regs (k : Nat) (s : State) : (insertQ k s).regs = s.regs := rfl
@[simp] theorem insertQ_err (k : Nat) (s : State) : (insertQ k s).err = s.err := rfl
@[simp] theorem insertQ_errcode (k : Nat) (s : State) : (insertQ k s).errcode = s.errcode := rfl
@[simp] theorem insertQ_tree (k : Nat) (s : State) : (insertQ k s).tree = s.tree := rfl
@[simp] theorem insertQ_codes (k : Nat) (s : State) : (insertQ k s).codes = s.codes := rfl
@[simp] theorem insertQ_eos (k : Nat) (s : State) : (insertQ k s).eos = s.eos := rfl
@[simp] theorem insertQ_drop (k : Nat) (s : State) : (insertQ k s).drop = s.drop := rfl
@[simp] theorem insertQ_cur (k : Nat) (s : State) : (insertQ k s).cur = s.cur := rfl
@[simp] theorem insertQ_prog (k : Nat) (s : State) : (insertQ k s).prog = s.prog := rfl
@[simp] theorem insertQ_nodes (k : Nat) (s : State) : (insertQ k s).nodes = s.nodes.modify k (fun nd => { nd with seq := s.nextSeq }) := rfl
@[simp] theorem insertQ_nint (k : Nat) (s : State) : (insertQ k s).nint = s.nint := rfl
@[simp] theorem insertQ_nextSeq (k : Nat) (s : State) : (insertQ k s).nextSeq = s.nextSeq + 1 := rfl
@[simp] theorem insertQ_q (k : Nat) (s : State) : (insertQ k s).q = s.q ++ [k] := rfl
@[simp] theorem insertQ_leaves (k : Nat) (s : State) : (insertQ k s).leaves = s.leaves := rfl
@[simp] theorem insertQ_root (k : Nat) (s : State) : (insertQ k s).root = s.root := rfl
@[simp] theorem insertQ_acc (k : Nat) (s : State) : (insertQ k s).acc = s.acc := rfl
@[simp] theorem insertQ_pend (k : Nat) (s : State) : (insertQ k s).pend = s.pend := rfl
@[simp] theorem insertQ_ubyte (k : Nat) (s : State) : (insertQ k s).ubyte = s.ubyte := rfl
@[simp] theorem insertQ_ubits (k : Nat) (s : State) : (insertQ k s).ubits = s.ubits := rfl
@[simp] theorem insertQ_inp (k : Nat) (s : State) : (insertQ k s).inp = s.inp := rfl
@[simp] theorem insertQ_out (k : Nat) (s : State) : (insertQ k s).out = s.out := rfl
@[simp] theorem insertQ_stalled (k : Nat) (s : State) : (insertQ k s).stalled = s.stalled := rfl
@[simp] theorem insertQ_events (k : Nat) (s : State) : (insertQ k s).events = s.events := rfl
@[simp] theorem insertQ_reads (k : Nat) (s : State) : (insertQ k s).reads = s.reads := rfl
@[simp] theorem insertQ_draws (k : Nat) (s : State) : (insertQ k s).draws = s.draws := rfl

/-! ### The operations as the terms of the statements -/

theorem finish_eq_done (s : State) : finish s = s.done := rfl

theorem raise_eq_failed (e : Err) (s : State) : raise e s = s.failed e.code := rfl

/-- `BUSY` is 0 exactly when no command runs (R22, log 2). -/
theorem busy_eq_false_iff (s : State) : s.busy = false ↔ s.prog = .idle := by
  unfold State.busy
  split <;> simp_all

theorem busy_eq_true_iff (s : State) : s.busy = true ↔ s.prog ≠ .idle := by
  unfold State.busy
  split <;> simp_all

end Sys2Proof.Machine
end

