-- ==== Sys2Proof/Laws/Frames.lean ====
section
/-! SUPPORT. The frame of every loop and of every command: the fields it may move, the rest unchanged (each rule's "Writes"). A frame
reads `t = { s with f := t.f, … }`, the moved fields being those named. -/

namespace Sys2Proof.Machine

theorem outWrite_frame {b : Byte} {s t : State} (h : outWrite b s = some t) : t = { s with out := t.out } := by
  unfold outWrite at h
  split at h <;> cases h <;> rfl

theorem offer_frame (bs : List Byte) (s : State) : (offer bs s).1 = { s with out := (offer bs s).1.out } := by
  induction bs generalizing s with
  | nil => rfl
  | cons b bs ih =>
    rw [offer]
    split
    · rename_i s1 hw
      have h1 := outWrite_frame hw
      have h2 := ih s1
      rw [h2]
      rw [h1]
    · rfl

theorem offer_eq {bs rest : List Byte} {s t : State} (h : offer bs s = (t, rest)) : t = { s with out := t.out } := by
  have := offer_frame bs s
  rw [h] at this
  exact this

theorem inRead_frame {s s1 : State} {b : Byte} (h : inRead s = .byte b s1) : s1 = { s with inp := s1.inp } := by
  unfold inRead at h
  split at h
  · cases h; rfl
  · split at h <;> cases h

theorem packLoop_frame (fuel : Nat) (s : State) :
    packLoop fuel s = { s with prog := (packLoop fuel s).prog, acc := (packLoop fuel s).acc, pend := (packLoop fuel s).pend
                               out := (packLoop fuel s).out } := by
  induction fuel generalizing s with
  | zero => rfl
  | succ n ih =>
    rw [packLoop]
    split
    · split
      · rfl
      · rename_i s1 hw
        rw [ih]
        rw [outWrite_frame hw]
    · rfl

theorem append_frame {c : Code} {len : Nat} {s t : State} (h : append c len s = .next t) :
    t = { s with err := t.err, errcode := t.errcode, prog := t.prog, acc := t.acc, pend := t.pend, out := t.out } := by
  unfold append at h
  split at h
  · cases h; rfl
  · unfold packRun at h
    cases h
    rw [packLoop_frame]
    rfl

theorem refill_frame {s s1 : State} {b : Byte} (h : refill s = .byte b s1) :
    s1 = { s with inp := s1.inp, ubyte := s1.ubyte, ubits := s1.ubits } := by
  unfold refill at h
  split at h
  · split at h <;> cases h
    rename_i hin
    rw [inRead_frame hin]
  · cases h; rfl

theorem decodeLoop_frame (fuel n : Nat) {s t : State} (h : decodeLoop fuel n s = .next t) :
    t = { s with err := t.err, errcode := t.errcode, eos := t.eos, ubyte := t.ubyte, ubits := t.ubits, inp := t.inp, out := t.out
                 prog := t.prog } := by
  induction fuel generalizing n s with
  | zero => cases h; rfl
  | succ k ih =>
    rw [decodeLoop] at h
    split at h
    · cases h; rfl
    · cases h; rfl
    · rename_i b s1 hr
      have h1 := refill_frame hr
      split at h
      · cases h
      split at h
      · cases h
      split at h
      · rw [ih _ h]
        rw [h1]
      · split at h
        · cases h; rw [h1]; rfl
        · split at h
          · cases h
          · simp only at h
            split at h
            · rename_i s3 ho
              have h3 := offer_eq ho
              rw [ih _ h]
              rw [h3, h1]
            · rename_i s3 rest _ ho
              have h3 := offer_eq ho
              cases h
              rw [h3, h1]

theorem decodeResume_frame {n : Nat} {outs : List Byte} {s t : State} (h : decodeResume n outs s = .next t) :
    t = { s with err := t.err, errcode := t.errcode, eos := t.eos, ubyte := t.ubyte, ubits := t.ubits, inp := t.inp, out := t.out
                 prog := t.prog } := by
  unfold decodeResume at h
  split at h
  · rename_i s1 ho
    have h1 := offer_eq ho
    rw [decodeLoop_frame _ _ h]
    rw [h1]
  · rename_i s1 rest _ ho
    have h1 := offer_eq ho
    cases h
    rw [h1]

/-- What one byte moves in the deserializer (R141). -/
def DesStep.state : DesStep → State
  | .more _ _ s => s
  | .done _ s => s
  | .fail _ s => s

theorem closeNode_frame (r : Nat) (fs : List Frame) (s : State) :
    (closeNode r fs s).state = { s with nodes := (closeNode r fs s).state.nodes } := by
  induction fs generalizing r s with
  | nil => rfl
  | cons f fs ih =>
    cases f with
    | left k => rfl
    | right k a => rw [closeNode, ih]; rfl

theorem desByte_frame (b : Byte) (fs : List Frame) (w : Want) (s : State) :
    (desByte b fs w s).state =
      { s with nodes := (desByte b fs w s).state.nodes, leaves := (desByte b fs w s).state.leaves
               nint := (desByte b fs w s).state.nint } := by
  cases w with
  | marker =>
    simp only [desByte, desMarker]
    split
    · split <;> rfl
    · split
      · rfl
      · split
        · rfl
        · split
          · rw [closeNode_frame]; rfl
          · rfl
  | symbol k rem =>
    simp only [desByte, desSymbol]
    split
    · rw [closeNode_frame]; rfl
    · rfl

theorem desLoop_frame (fuel : Nat) (fs : List Frame) (w : Want) {s t : State} (h : desLoop fuel fs w s = .next t) :
    t = { s with err := t.err, errcode := t.errcode, nodes := t.nodes, leaves := t.leaves, nint := t.nint, root := t.root
                 tree := t.tree, codes := t.codes, inp := t.inp, prog := t.prog } := by
  induction fuel generalizing fs w s with
  | zero => cases h; rfl
  | succ n ih =>
    rw [desLoop] at h
    split at h
    · cases h; rfl
    · cases h; rfl
    · rename_i b s1 hin
      have h1 := inRead_frame hin
      have hb := desByte_frame b fs w s1
      split at h
      · rename_i hd
        rw [hd] at hb
        simp only [DesStep.state] at hb
        rw [ih _ _ h]
        rw [hb, h1]
      · rename_i r s2 hd
        rw [hd] at hb
        simp only [DesStep.state] at hb
        unfold desDone at h
        split at h
        · cases h
        · split at h <;> cases h <;> rw [hb, h1] <;> rfl
      · rename_i e s2 hd
        rw [hd] at hb
        simp only [DesStep.state] at hb
        cases h
        rw [hb, h1]
        rfl

theorem emitBytes_frame {bs : List Byte} {s t : State} (h : emitBytes bs s = .next t) :
    t = { s with out := t.out, prog := t.prog } := by
  unfold emitBytes at h
  split at h
  · rename_i s1 ho
    have h1 := offer_eq ho
    cases h
    rw [h1]
    rfl
  · rename_i s1 rest _ ho
    have h1 := offer_eq ho
    cases h
    rw [h1]

theorem flushRun_frame {s t : State} (h : flushRun s = .next t) :
    t = { s with acc := t.acc, pend := t.pend, out := t.out, prog := t.prog } := by
  unfold flushRun at h
  split at h
  · cases h
  split at h
  · split at h
    · cases h; rfl
    · rename_i s1 hw
      cases h
      rw [outWrite_frame hw]
      rfl
  · cases h; rfl

/-! ### The commands -/

theorem execLeafPush_frame {s t : State} (h : execLeafPush s = .next t) :
    t = { s with err := t.err, errcode := t.errcode, prog := t.prog, nodes := t.nodes, leaves := t.leaves, nextSeq := t.nextSeq
                 q := t.q } := by
  unfold execLeafPush at h
  split at h
  · cases h; rfl
  split at h
  · cases h; rfl
  split at h <;> cases h <;> rfl

theorem execBuild_frame {s t : State} (h : execBuild s = .next t) :
    t = { s with err := t.err, errcode := t.errcode, prog := t.prog, nodes := t.nodes, nint := t.nint, nextSeq := t.nextSeq
                 q := t.q, root := t.root, tree := t.tree, codes := t.codes } := by
  rcases execBuild_cases s with ⟨-, he⟩ | ⟨-, -, he⟩ | ⟨-, -, u, r, -, -, ⟨more, nint, seq, q, rfl, -⟩, he⟩ <;>
    rw [he] at h <;> cases h <;> rfl

theorem execLeafRead_frame {s t : State} (h : execLeafRead s = .next t) :
    t = { s with err := t.err, errcode := t.errcode, prog := t.prog, regs := t.regs } := by
  unfold execLeafRead at h
  split at h
  · cases h; rfl
  · split at h <;> cases h
    rfl

theorem execAssign_frame {s t : State} (h : execAssign s = .next t) :
    t = { s with err := t.err, errcode := t.errcode, prog := t.prog, nodes := t.nodes, codes := t.codes, draws := t.draws } := by
  unfold execAssign at h
  split at h
  · cases h; rfl
  split at h
  · cases h
  split at h <;> cases h <;> rfl

theorem execSerialize_frame {s t : State} (h : execSerialize s = .next t) :
    t = { s with err := t.err, errcode := t.errcode, prog := t.prog, out := t.out } := by
  unfold execSerialize at h
  split at h
  · cases h; rfl
  split at h
  · cases h
  split at h
  · cases h
  · rw [emitBytes_frame h]

theorem execDeserialize_frame {s t : State} (h : execDeserialize s = .next t) :
    t = { s with err := t.err, errcode := t.errcode, nodes := t.nodes, leaves := t.leaves, nint := t.nint, root := t.root
                 tree := t.tree, codes := t.codes, inp := t.inp, prog := t.prog } := by
  unfold execDeserialize at h
  split at h
  · cases h; rfl
  · exact desLoop_frame _ _ _ h

theorem execPush_frame {s t : State} (h : execPush s = .next t) :
    t = { s with err := t.err, errcode := t.errcode, prog := t.prog, acc := t.acc, pend := t.pend, out := t.out } := by
  unfold execPush at h
  split at h
  · cases h; rfl
  · exact append_frame h

theorem execPushLeaf_frame {s t : State} (h : execPushLeaf s = .next t) :
    t = { s with err := t.err, errcode := t.errcode, prog := t.prog, acc := t.acc, pend := t.pend, out := t.out } := by
  unfold execPushLeaf at h
  split at h
  · cases h; rfl
  split at h
  · cases h; rfl
  split at h
  · cases h
  · exact append_frame h

theorem execDecode_frame {s t : State} (h : execDecode s = .next t) :
    t = { s with err := t.err, errcode := t.errcode, eos := t.eos, ubyte := t.ubyte, ubits := t.ubits, inp := t.inp, out := t.out
                 prog := t.prog } := by
  unfold execDecode at h
  split at h
  · cases h; rfl
  split at h
  · cases h
  · rw [decodeLoop_frame _ _ h]

end Sys2Proof.Machine
end

