-- ==== Sys2Proof/Laws/Codec.lean ====
section
/-! SUPPORT. The deserializer as a function of the bytes it is given (R141, R67): what a list of bytes does, what the bytes of a whole
tree do (R142), and that the loop of the machine follows it. -/

namespace Sys2Proof.Machine

/-! ### Feeding bytes -/

/-- Feed bytes to the deserializer until it ends; the result and the bytes not used. -/
def feed : List Byte → List Frame → Want → State → DesStep × List Byte
  | [], frames, want, s => (.more frames want s, [])
  | b :: bs, frames, want, s =>
    match desByte b frames want s with
    | .more frames1 want1 s1 => feed bs frames1 want1 s1
    | .done r s1 => (.done r s1, bs)
    | .fail e s1 => (.fail e s1, bs)

/-- Go on feeding after a first result. -/
def feedOn (r : DesStep) (bs : List Byte) : DesStep × List Byte :=
  match r with
  | .more frames want s => feed bs frames want s
  | .done k s => (.done k s, bs)
  | .fail e s => (.fail e s, bs)

@[simp] theorem feed_cons (b : Byte) (bs : List Byte) (fs : List Frame) (w : Want) (s : State) :
    feed (b :: bs) fs w s = feedOn (desByte b fs w s) bs := by
  rw [feed]; cases desByte b fs w s <;> rfl

/-- Feeding in two parts. -/
theorem feed_append (xs ys : List Byte) (fs : List Frame) (w : Want) (s : State) :
    feed (xs ++ ys) fs w s =
      match feed xs fs w s with
      | (.more fs1 w1 s1, _) => feed ys fs1 w1 s1
      | (r, rest) => (r, rest ++ ys) := by
  induction xs generalizing fs w s with
  | nil => rfl
  | cons b xs ih =>
    rw [List.cons_append, feed_cons, feed_cons]
    cases h : desByte b fs w s with
    | more fs1 w1 s1 => simp only [feedOn]; exact ih fs1 w1 s1
    | done k s1 => rfl
    | fail e s1 => rfl

/-- Bytes are left over only once the deserializer has ended. -/
theorem feed_more_rest {bs rest : List Byte} {fs fs1 : List Frame} {w w1 : Want} {s s1 : State}
    (h : feed bs fs w s = (.more fs1 w1 s1, rest)) : rest = [] := by
  induction bs generalizing fs w s with
  | nil => cases h; rfl
  | cons b bs ih =>
    rw [feed_cons] at h
    cases hd : desByte b fs w s with
    | more fs2 w2 s2 => rw [hd] at h; exact ih h
    | done k s2 => rw [hd] at h; cases h
    | fail e s2 => rw [hd] at h; cases h

theorem feed_suffix (bs : List Byte) (fs : List Frame) (w : Want) (s : State) : ∃ used, bs = used ++ (feed bs fs w s).2 := by
  induction bs generalizing fs w s with
  | nil => exact ⟨[], rfl⟩
  | cons b bs ih =>
    rw [feed_cons]
    cases desByte b fs w s with
    | more fs1 w1 s1 =>
      obtain ⟨used, h⟩ := ih fs1 w1 s1
      exact ⟨b :: used, by rw [List.cons_append, feedOn, ← h]⟩
    | done k s1 => exact ⟨[b], rfl⟩
    | fail e s1 => exact ⟨[b], rfl⟩

/-! ### The machine's loop follows -/

/-- The step with another input port. -/
def DesStep.withInp (r : DesStep) (i : InPort) : DesStep :=
  match r with
  | .more fs w s => .more fs w { s with inp := i }
  | .done k s => .done k { s with inp := i }
  | .fail e s => .fail e { s with inp := i }

theorem closeNode_inp (r : Nat) (fs : List Frame) (s : State) (i : InPort) :
    closeNode r fs { s with inp := i } = (closeNode r fs s).withInp i := by
  induction fs generalizing r s with
  | nil => rfl
  | cons f fs ih =>
    cases f with
    | left k => rfl
    | right k a => simp only [closeNode]; exact ih k (setNode k _ s)

theorem desByte_inp (b : Byte) (fs : List Frame) (w : Want) (s : State) (i : InPort) :
    desByte b fs w { s with inp := i } = (desByte b fs w s).withInp i := by
  cases w with
  | marker =>
    unfold desByte
    dsimp only
    unfold desMarker
    by_cases h1 : b = internalMarker
    · by_cases h2 : s.nint = s.cfg.leafMax - 1 <;> simp [h1, h2, DesStep.withInp, alloc]
    · by_cases h2 : maxSymbolLen < b.toNat
      · simp [h1, h2, DesStep.withInp]
      · by_cases hc : s.leaves.length = s.cfg.leafMax
        · simp [h1, h2, hc, State.nleaf, DesStep.withInp]
        · by_cases h0 : b.toNat = 0
          · simp only [h1, hc, h0, State.nleaf, if_true, if_false]
            exact closeNode_inp s.nodes.length fs { alloc .leaf s with leaves := s.leaves ++ [s.nodes.length] } i
          · simp [h1, h2, hc, h0, State.nleaf, DesStep.withInp, alloc]
  | symbol k rem =>
    simp only [desByte, desSymbol]
    split
    · exact closeNode_inp k fs (setNode k _ s) i
    · rfl

theorem feed_inp (bs : List Byte) (fs : List Frame) (w : Want) (s : State) (i : InPort) :
    feed bs fs w { s with inp := i } = ((feed bs fs w s).1.withInp i, (feed bs fs w s).2) := by
  induction bs generalizing fs w s with
  | nil => rfl
  | cons b bs ih =>
    rw [feed_cons, feed_cons, desByte_inp]
    cases desByte b fs w s with
    | more fs1 w1 s1 => exact ih fs1 w1 s1
    | done k s1 => rfl
    | fail e s1 => rfl

/-- How the command stands after a list of bytes was fed from the front of `IN`. -/
def settle (r : DesStep × List Byte) (taken avail : List Byte) (ended : Bool) : Result :=
  let used := avail.take (avail.length - r.2.length)
  match r.1 with
  | .more fs w s =>
    if ended then .next (desFail .truncatedTree { s with inp := { taken := taken ++ used, avail := r.2, ended := ended } })
    else .next { s with prog := .deser fs w, inp := { taken := taken ++ used, avail := r.2, ended := ended } }
  | .done k s => desDone k { s with inp := { taken := taken ++ used, avail := r.2, ended := ended } }
  | .fail e s => .next (desFail e { s with inp := { taken := taken ++ used, avail := r.2, ended := ended } })

/-- The loop of `DESERIALIZE` is feeding (R141, R67). -/
theorem desLoop_eq (fuel : Nat) (avail taken : List Byte) (ended : Bool) (fs : List Frame) (w : Want) (s : State)
    (hf : avail.length < fuel) :
    desLoop fuel fs w { s with inp := { taken := taken, avail := avail, ended := ended } } =
      settle (feed avail fs w s) taken avail ended := by
  induction fuel generalizing avail taken fs w s with
  | zero => omega
  | succ n ih =>
    cases avail with
    | nil =>
      rw [desLoop]
      cases ended <;> simp [inRead, feed, settle]
    | cons b bs =>
      rw [desLoop]
      simp only [inRead, feed_cons, desByte_inp]
      cases hd : desByte b fs w s with
      | more fs1 w1 s1 =>
        simp only [DesStep.withInp, feedOn]
        rw [ih bs (taken ++ [b]) fs1 w1 s1 (by simpa using hf)]
        obtain ⟨used, hu⟩ := feed_suffix bs fs1 w1 s1
        have hlen := congrArg List.length hu
        simp only [List.length_append] at hlen
        have : (b :: bs).length - (feed bs fs1 w1 s1).2.length = (bs.length - (feed bs fs1 w1 s1).2.length) + 1 := by
          simp only [List.length_cons]; omega
        simp only [settle, this, List.take_succ_cons, List.append_assoc, List.singleton_append]
      | done k s1 =>
        simp only [DesStep.withInp, feedOn, settle]
        simp
      | fail e s1 =>
        simp only [DesStep.withInp, feedOn, settle]
        simp

theorem desRun_eq (fs : List Frame) (w : Want) (s : State) :
    desRun fs w s = settle (feed s.inp.avail fs w s) s.inp.taken s.inp.avail s.inp.ended :=
  desLoop_eq _ s.inp.avail s.inp.taken s.inp.ended fs w s (by omega)

/-! ### The bytes of one tree -/

/-- The records that `DESERIALIZE` makes for a tree (R141), in pre-order, the first one at index `base`. -/
def Tree.records : Tree → Nat → List Node
  | .leaf _ sym, _ => [{ Node.blank .leaf with sym := sym }]
  | .node _ l r, base =>
    { Node.blank .internal with left := some (base + 1), right := some (base + 1 + l.indices.length) } ::
      (l.records (base + 1) ++ r.records (base + 1 + l.indices.length))

/-- The same tree with its nodes at pre-order indices from `base`. -/
def Tree.renumber : Tree → Nat → Tree
  | .leaf _ sym, base => .leaf base sym
  | .node _ l r, base => .node base (l.renumber (base + 1)) (r.renumber (base + 1 + l.indices.length))

/-- How many internal nodes the tree has. -/
def Tree.internals : Tree → Nat
  | .leaf _ _ => 0
  | .node _ l r => l.internals + r.internals + 1

@[simp] theorem Tree.records_length (T : Tree) (base : Nat) : (T.records base).length = T.indices.length := by
  induction T generalizing base with
  | leaf k sym => rfl
  | node k l r ihl ihr => simp [Tree.records, Tree.indices, ihl, ihr]

@[simp] theorem Tree.renumber_indices_length (T : Tree) (base : Nat) : (T.renumber base).indices.length = T.indices.length := by
  induction T generalizing base with
  | leaf k sym => rfl
  | node k l r ihl ihr => simp [Tree.renumber, Tree.indices, ihl, ihr]

@[simp] theorem Tree.renumber_idx (T : Tree) (base : Nat) : (T.renumber base).idx = base := by
  cases T <;> rfl

theorem Tree.renumber_indices (T : Tree) (base : Nat) : (T.renumber base).indices = List.range' base T.indices.length := by
  induction T generalizing base with
  | leaf k sym => rfl
  | node k l r ihl ihr =>
    simp only [Tree.renumber, Tree.indices, ihl, ihr, List.length_cons, List.length_append]
    rw [Nat.add_comm (_ + _) 1, ← List.range'_append_1, ← List.range'_append_1]
    rfl

theorem Tree.renumber_sameShape (T : Tree) (base : Nat) : T.sameShape (T.renumber base) = true := by
  induction T generalizing base with
  | leaf k sym => simp [Tree.renumber, Tree.sameShape]
  | node k l r ihl ihr => simp [Tree.renumber, Tree.sameShape, ihl, ihr]

@[simp] theorem Tree.renumber_isNode (T : Tree) (base : Nat) : (T.renumber base).isNode = T.isNode := by
  cases T <;> rfl

@[simp] theorem Tree.renumber_leafIdx_length (T : Tree) (base : Nat) : (T.renumber base).leafIdx.length = T.leafIdx.length := by
  induction T generalizing base with
  | leaf k sym => rfl
  | node k l r ihl ihr => simp [Tree.renumber, Tree.leafIdx, ihl, ihr]

theorem Tree.internals_eq (T : Tree) : T.internals + 1 = T.leafIdx.length := by
  induction T with
  | leaf k sym => rfl
  | node k l r ihl ihr => simp only [Tree.internals, Tree.leafIdx, List.length_append]; omega

/-- The records hold the renumbered tree. -/
theorem Tree.records_holds (T : Tree) (pre post : List Node) :
    (T.renumber pre.length).Holds (pre ++ T.records pre.length ++ post) := by
  induction T generalizing pre post with
  | leaf k sym => exact ⟨{ Node.blank .leaf with sym := sym }, by simp [Tree.records], rfl, rfl⟩
  | node k l r ihl ihr =>
    set head : Node := { Node.blank .internal with left := some (pre.length + 1), right := some (pre.length + 1 + l.indices.length) } with hh
    refine ⟨⟨head, by simp [Tree.records, hh], rfl, by simp [hh], by simp [hh]⟩, ?_, ?_⟩
    · have := ihl (pre ++ [head]) (r.records (pre.length + 1 + l.indices.length) ++ post)
      simpa [Tree.records, hh] using this
    · have := ihr (pre ++ [head] ++ l.records (pre.length + 1)) post
      simpa [Tree.records, hh, Nat.add_assoc, Nat.add_comm, Nat.add_left_comm] using this

theorem Tree.records_zero (T : Tree) (base : Nat) : ∀ nd ∈ T.records base, nd.count = 0 := by
  induction T generalizing base with
  | leaf k sym => simp [Tree.records, Node.blank]
  | node k l r ihl ihr =>
    intro nd hnd
    simp only [Tree.records, List.mem_cons, List.mem_append] at hnd
    rcases hnd with rfl | hnd | hnd
    · rfl
    · exact ihl _ nd hnd
    · exact ihr _ nd hnd

/-- The store after the bytes of a tree were read into it (R141). -/
def State.readTree (s : State) (T : Tree) : State :=
  { s with
    nodes := s.nodes ++ T.records s.nodes.length
    leaves := s.leaves ++ (T.renumber s.nodes.length).leafIdx
    nint := s.nint + T.internals }

/-- Rewriting the record that stands after a given part of the store. -/
theorem modify_mid (pre post : List Node) (nd : Node) (f : Node → Node) (k : Nat) (hk : k = pre.length) :
    (pre ++ nd :: post).modify k f = pre ++ f nd :: post := by
  subst hk
  induction pre with
  | nil => rfl
  | cons a pre ih => simp [ih]

/-- The symbol bytes of a leaf (R141). -/
theorem feed_symbol (sym done more : List Byte) (k : Nat) (fs : List Frame) (s : State) (hne : sym ≠ []) (pre : List Node) (nd : Node)
    (hs : s.nodes = pre ++ [{ nd with sym := done }]) (hk : k = pre.length) :
    feed (sym ++ more) fs (.symbol k sym.length) s =
      feedOn (closeNode k fs { s with nodes := pre ++ [{ nd with sym := done ++ sym }] }) more := by
  induction sym generalizing done s with
  | nil => exact absurd rfl hne
  | cons b bs ih =>
    have hset : setNode k (fun nd => { nd with sym := nd.sym ++ [b] }) s = { s with nodes := pre ++ [{ nd with sym := done ++ [b] }] } := by
      simp [setNode, hs, modify_mid pre [] _ _ k hk]
    rw [List.cons_append, feed_cons]
    simp only [desByte, desSymbol, hset]
    cases bs with
    | nil => simp
    | cons c cs =>
      rw [if_neg (by simp), feedOn]
      simp only [List.length_cons, Nat.add_sub_cancel]
      have := ih (done ++ [b]) { s with nodes := pre ++ [{ nd with sym := done ++ [b] }] } (by simp) rfl
      simp only [List.length_cons] at this
      rw [this]
      simp

/-- A length byte starts a leaf (R141). -/
theorem desMarker_leaf (b : Byte) (fs : List Frame) (s : State) (h1 : b ≠ internalMarker) (h2 : b.toNat ≤ maxSymbolLen)
    (h3 : s.leaves.length ≠ s.cfg.leafMax) :
    desMarker b fs s =
      if b.toNat = 0 then closeNode s.nodes.length fs { alloc .leaf s with leaves := s.leaves ++ [s.nodes.length] }
      else .more fs (.symbol s.nodes.length b.toNat) { alloc .leaf s with leaves := s.leaves ++ [s.nodes.length] } := by
  unfold desMarker
  rw [if_neg h1, if_neg (Nat.not_lt.mpr h2), if_neg (show ¬ s.nleaf = s.cfg.leafMax from h3)]

/-- The marker byte of an internal node opens it (R141). -/
theorem desMarker_internal (fs : List Frame) (s : State) (h : s.nint ≠ s.cfg.leafMax - 1) :
    desMarker internalMarker fs s = .more (.left s.nodes.length :: fs) .marker { alloc .internal s with nint := s.nint + 1 } := by
  unfold desMarker
  rw [if_pos rfl, if_neg h]

theorem lengthByte_toNat {n : Nat} (h : n ≤ maxSymbolLen) : (BitVec.ofNat 8 n).toNat = n := by
  simp only [maxSymbolLen] at h
  simp only [BitVec.toNat_ofNat]
  omega

theorem lengthByte_ne {n : Nat} (h : n ≤ maxSymbolLen) : BitVec.ofNat 8 n ≠ internalMarker := by
  intro he
  have := congrArg BitVec.toNat he
  rw [lengthByte_toNat h] at this
  simp only [maxSymbolLen] at h
  have h255 : internalMarker.toNat = 255 := rfl
  omega

/-- The bytes of a leaf (R141), read where a node is expected. -/
theorem feed_leaf (sym more : List Byte) (fs : List Frame) (s : State) (hfit : sym.length ≤ maxSymbolLen)
    (hl : s.leaves.length ≠ s.cfg.leafMax) :
    feed (BitVec.ofNat 8 sym.length :: (sym ++ more)) fs .marker s =
      feedOn (closeNode s.nodes.length fs { s with nodes := s.nodes ++ [{ Node.blank .leaf with sym := sym }]
                                                   leaves := s.leaves ++ [s.nodes.length] }) more := by
  rw [feed_cons, desByte, desMarker_leaf _ fs s (lengthByte_ne hfit) (by rwa [lengthByte_toNat hfit]) hl, lengthByte_toNat hfit]
  cases sym with
  | nil => rfl
  | cons b bs =>
    rw [if_neg (by simp)]
    exact feed_symbol (b :: bs) [] more s.nodes.length fs _ (by simp) s.nodes (Node.blank .leaf) rfl rfl

/-- The bytes of a whole tree, read where a node is expected (R141, R142): the tree joins the store and its root is returned. -/
theorem feed_tree (T : Tree) (more : List Byte) (fs : List Frame) (s : State) (hfit : T.symbolsFit = true)
    (hl : s.leaves.length + T.leafIdx.length ≤ s.cfg.leafMax) (hi : s.nint + T.internals ≤ s.cfg.leafMax - 1) :
    feed (T.ser ++ more) fs .marker s = feedOn (closeNode s.nodes.length fs (s.readTree T)) more := by
  induction T generalizing more fs s with
  | leaf k sym =>
    simp only [Tree.leafIdx, List.length_singleton] at hl
    exact feed_leaf sym more fs s (of_decide_eq_true hfit) (by omega)
  | node k l r ihl ihr =>
    simp only [Tree.symbolsFit, Bool.and_eq_true] at hfit
    simp only [Tree.leafIdx, List.length_append] at hl
    simp only [Tree.internals] at hi
    rw [Tree.ser, List.cons_append, feed_cons, List.append_assoc, desByte, desMarker_internal fs s (by omega), feedOn]
    set s1 : State := { alloc .internal s with nint := s.nint + 1 } with hs1
    rw [ihl (r.ser ++ more) _ s1 hfit.1 (by show s.leaves.length + _ ≤ s.cfg.leafMax; omega)
      (by show s.nint + 1 + _ ≤ s.cfg.leafMax - 1; omega)]
    simp only [closeNode, feedOn]
    rw [ihr more _ (s1.readTree l) hfit.2
      (by show (s.leaves ++ _).length + _ ≤ s.cfg.leafMax; simp only [List.length_append, Tree.renumber_leafIdx_length]; omega)
      (by show s.nint + 1 + _ + _ ≤ s.cfg.leafMax - 1; omega)]
    simp only [closeNode]
    congr 2
    simp only [setNode, State.readTree, hs1, alloc, List.length_append, List.length_singleton, Tree.records_length, Tree.records,
      Tree.renumber, Tree.leafIdx, Tree.internals, State.mk.injEq, true_and, and_true]
    refine ⟨?_, by omega, by simp⟩
    simp only [List.append_assoc, List.cons_append]
    rw [modify_mid _ _ _ _ _ rfl]
    rfl


/-! ### The command as a whole -/

/-- How the state stands when `DESERIALIZE` may run (R141, R42(a)). -/
structure DesStart (s : State) : Prop where
  exec_eq : exec .deserialize s = settle (feed s.inp.avail [] .marker s) s.inp.taken s.inp.avail s.inp.ended
  nodes : s.nodes = []
  leaves : s.leaves = []
  nint : s.nint = 0
  root : s.root = none
  tree : s.tree = false
  codes : s.codes = false
  cap : 100001 ≤ s.cfg.leafMax
  pt : PartialTree s [] .marker

/-- The invariant and the phase precondition give that state. -/
theorem desStart {s : State} (h : Inv s) (hp : s.prog = .start) (hk : phaseOk .deserialize s = true) : DesStart s := by
  simp only [phaseOk, Bool.and_eq_true, Bool.not_eq_true', List.isEmpty_iff] at hk
  obtain ⟨htree, hl⟩ := hk
  have hst := h.storeOk (by simp [hp, Progress.plain])
  simp only [StoreOk, htree, Bool.false_eq_true, if_false] at hst
  have hn : s.nodes = [] := by
    have := hst.2.leaves
    rw [hl] at this
    simpa using this.symm
  have hc := h.params
  simp only [Config.wf, Bool.and_eq_true, decide_eq_true_eq] at hc
  refine ⟨?_, hn, hl, hst.2.nint, hst.1, htree, by have := h.codesTree; simpa [htree] using this, hc.1.2, ?_⟩
  · simp only [exec, execDeserialize, htree, hl, List.isEmpty_nil, Bool.not_true, Bool.or_self, Bool.false_eq_true, if_false]
    exact desRun_eq _ _ _
  · exact ⟨by rw [hst.2.q, hl], by simp [hn, hl, hst.2.nint], by simp [hn], [], [], .nil, by simp [hn], hl⟩

/-- The error state of `DESERIALIZE` is the state it started from, its bytes consumed (R206). -/
theorem DesStart.fail_eq {s : State} (h : DesStart s) (e : Err) (nodes leaves nint) (i : InPort) :
    desFail e { s with nodes := nodes, leaves := leaves, nint := nint, inp := i } = { s with inp := i }.failed e.code := by
  simp only [desFail, raise, State.failed, h.nodes, h.leaves, h.nint, h.root, h.tree, h.codes]

/-- Feeding moves nothing but the node store, the leaves and `NINT`. -/
theorem feed_from (bs : List Byte) (fs : List Frame) (w : Want) (s : State) :
    (feed bs fs w s).1.state = { s with nodes := (feed bs fs w s).1.state.nodes, leaves := (feed bs fs w s).1.state.leaves
                                        nint := (feed bs fs w s).1.state.nint } := by
  induction bs generalizing fs w s with
  | nil => rfl
  | cons b bs ih =>
    rw [feed_cons]
    have hb := desByte_frame b fs w s
    cases hd : desByte b fs w s with
    | more fs1 w1 s1 =>
      rw [hd] at hb
      simp only [DesStep.state] at hb
      simp only [feedOn]
      rw [ih]
      rw [hb]
    | done k s1 => rw [hd] at hb; exact hb
    | fail e s1 => rw [hd] at hb; exact hb

theorem from_of {s t : State} (h : t = { s with nodes := t.nodes, leaves := t.leaves, nint := t.nint }) :
    ∃ nodes leaves nint, t = { s with nodes := nodes, leaves := leaves, nint := nint } := ⟨_, _, _, h⟩

/-- An error of `DESERIALIZE` (R141, R206). -/
theorem settle_fail {s : State} (h : DesStart s) (e : Err) (used rest : List Byte) (t : State) (taken : List Byte) (ended : Bool)
    (ht : ∃ nodes leaves nint, t = { s with nodes := nodes, leaves := leaves, nint := nint }) :
    settle (.fail e t, rest) taken (used ++ rest) ended =
      .next ({ s with inp := { taken := taken ++ used, avail := rest, ended := ended } }.failed e.code) := by
  obtain ⟨a, b, c, rfl⟩ := ht
  simp only [settle]
  rw [show (used ++ rest).take ((used ++ rest).length - rest.length) = used by simp]
  exact congrArg _ (h.fail_eq e a b c _)

/-- A run of marker bytes opens as many nodes (R141). -/
theorem feed_markers (n : Nat) (more : List Byte) (fs : List Frame) (s : State) (hn : s.nint + n ≤ s.cfg.leafMax - 1) :
    ∃ fs1 s1, s1 = { s with nodes := s1.nodes, nint := s.nint + n } ∧
      feed (List.replicate n internalMarker ++ more) fs .marker s = feed more fs1 .marker s1 := by
  induction n generalizing fs s with
  | zero => exact ⟨fs, s, rfl, rfl⟩
  | succ n ih =>
    rw [List.replicate_succ, List.cons_append, feed_cons, desByte, desMarker_internal fs s (by omega), feedOn]
    obtain ⟨fs1, s1, h1, h2⟩ := ih (.left s.nodes.length :: fs) { alloc .internal s with nint := s.nint + 1 }
      (by show s.nint + 1 + n ≤ s.cfg.leafMax - 1; omega)
    refine ⟨fs1, s1, ?_, h2⟩
    rw [h1]
    simp only [alloc, State.mk.injEq, true_and, and_true]
    omega

/-- An illegal length byte (R85). -/
theorem desByte_illegal {b : Byte} (h1 : 0x11 ≤ b.toNat) (h2 : b.toNat ≤ 0xFE) (fs : List Frame) (s : State) :
    desByte b fs .marker s = .fail .symbolTooLarge s := by
  rw [desByte, desMarker, if_neg, if_pos (by simp only [maxSymbolLen]; omega)]
  intro he
  have := congrArg BitVec.toNat he
  have h255 : internalMarker.toNat = 255 := rfl
  omega

/-- The bytes of a whole tree, fed from the start (R141). -/
theorem feed_whole {s : State} (d : DesStart s) (T : Tree) (more : List Byte) (hfit : T.symbolsFit = true)
    (hl : T.leafIdx.length ≤ s.cfg.leafMax) :
    feed (T.ser ++ more) [] .marker s = (.done 0 (s.readTree T), more) := by
  have hi := T.internals_eq
  rw [feed_tree T more [] s hfit (by rw [d.leaves]; simpa using hl) (by rw [d.nint]; omega)]
  simp [closeNode, feedOn, d.nodes]

/-- The tree read is the current one (R141, R142). -/
theorem readTree_hasTree {s : State} (hn : s.nodes = []) (hl : s.leaves = []) (T : Tree) (t : State)
    (h1 : t.nodes = (s.readTree T).nodes) (h2 : t.leaves = (s.readTree T).leaves) (h3 : t.root = some 0) : t.HasTree (T.renumber 0) where
  root := by rw [h3, T.renumber_idx]
  holds := by
    have := T.records_holds [] []
    rw [h1]; simpa [State.readTree, hn] using this
  nodes := by
    rw [h1, T.renumber_indices]
    simp [State.readTree, hn, List.range_eq_range']
  leaves := by rw [h2]; simp [State.readTree, hn, hl]

/-- The step with another progress. -/
def DesStep.withProg (r : DesStep) (p : Progress) : DesStep :=
  match r with
  | .more fs w s => .more fs w { s with prog := p }
  | .done k s => .done k { s with prog := p }
  | .fail e s => .fail e { s with prog := p }

theorem closeNode_prog (r : Nat) (fs : List Frame) (s : State) (p : Progress) :
    closeNode r fs { s with prog := p } = DesStep.withProg (closeNode r fs s) p := by
  induction fs generalizing r s with
  | nil => rfl
  | cons f fs ih =>
    cases f with
    | left k => rfl
    | right k a => simp only [closeNode]; exact ih k (setNode k _ s)

theorem desByte_prog (b : Byte) (fs : List Frame) (w : Want) (s : State) (p : Progress) :
    desByte b fs w { s with prog := p } = DesStep.withProg (desByte b fs w s) p := by
  cases w with
  | marker =>
    unfold desByte
    dsimp only
    unfold desMarker
    by_cases h1 : b = internalMarker
    · by_cases h2 : s.nint = s.cfg.leafMax - 1 <;> simp [h1, h2, DesStep.withProg, alloc]
    · by_cases h2 : maxSymbolLen < b.toNat
      · simp [h1, h2, DesStep.withProg]
      · by_cases hc : s.leaves.length = s.cfg.leafMax
        · simp [h1, h2, hc, State.nleaf, DesStep.withProg]
        · by_cases h0 : b.toNat = 0
          · simp only [h1, hc, h0, State.nleaf, if_true, if_false]
            exact closeNode_prog s.nodes.length fs { alloc .leaf s with leaves := s.leaves ++ [s.nodes.length] } p
          · simp [h1, h2, hc, h0, State.nleaf, DesStep.withProg, alloc]
  | symbol k rem =>
    simp only [desByte, desSymbol]
    split
    · exact closeNode_prog k fs (setNode k _ s) p
    · rfl

/-- Feeding does not look at the progress field. -/
theorem feed_prog (bs : List Byte) (fs : List Frame) (w : Want) (s : State) (p : Progress) :
    feed bs fs w { s with prog := p } = (DesStep.withProg (feed bs fs w s).1 p, (feed bs fs w s).2) := by
  induction bs generalizing fs w s with
  | nil => rfl
  | cons b bs ih =>
    rw [feed_cons, feed_cons, desByte_prog]
    cases desByte b fs w s with
    | more fs1 w1 s1 => exact ih fs1 w1 s1
    | done k s1 => rfl
    | fail e s1 => rfl

/-- The step with another output port. -/
def DesStep.withOut (r : DesStep) (p : OutPort) : DesStep :=
  match r with
  | .more fs w s => .more fs w { s with out := p }
  | .done k s => .done k { s with out := p }
  | .fail e s => .fail e { s with out := p }

theorem closeNode_out (r : Nat) (fs : List Frame) (s : State) (p : OutPort) :
    closeNode r fs { s with out := p } = DesStep.withOut (closeNode r fs s) p := by
  induction fs generalizing r s with
  | nil => rfl
  | cons f fs ih =>
    cases f with
    | left k => rfl
    | right k a => simp only [closeNode]; exact ih k (setNode k _ s)

theorem desByte_out (b : Byte) (fs : List Frame) (w : Want) (s : State) (p : OutPort) :
    desByte b fs w { s with out := p } = DesStep.withOut (desByte b fs w s) p := by
  cases w with
  | marker =>
    unfold desByte
    dsimp only
    unfold desMarker
    by_cases h1 : b = internalMarker
    · by_cases h2 : s.nint = s.cfg.leafMax - 1 <;> simp [h1, h2, DesStep.withOut, alloc]
    · by_cases h2 : maxSymbolLen < b.toNat
      · simp [h1, h2, DesStep.withOut]
      · by_cases hc : s.leaves.length = s.cfg.leafMax
        · simp [h1, h2, hc, State.nleaf, DesStep.withOut]
        · by_cases h0 : b.toNat = 0
          · simp only [h1, hc, h0, State.nleaf, if_true, if_false]
            exact closeNode_out s.nodes.length fs { alloc .leaf s with leaves := s.leaves ++ [s.nodes.length] } p
          · simp [h1, h2, hc, h0, State.nleaf, DesStep.withOut, alloc]
  | symbol k rem =>
    simp only [desByte, desSymbol]
    split
    · exact closeNode_out k fs (setNode k _ s) p
    · rfl

/-- Feeding does not look at the output port. -/
theorem feed_out (bs : List Byte) (fs : List Frame) (w : Want) (s : State) (p : OutPort) :
    feed bs fs w { s with out := p } = (DesStep.withOut (feed bs fs w s).1 p, (feed bs fs w s).2) := by
  induction bs generalizing fs w s with
  | nil => rfl
  | cons b bs ih =>
    rw [feed_cons, feed_cons, desByte_out]
    cases desByte b fs w s with
    | more fs1 w1 s1 => exact ih fs1 w1 s1
    | done k s1 => rfl
    | fail e s1 => rfl

/-- `settle` looks at neither the progress nor the input port of the state in the result. -/
theorem settle_irrel (r : DesStep) (rest taken avail : List Byte) (ended : Bool) (p : Progress) (i : InPort) :
    settle ((DesStep.withProg r p).withInp i, rest) taken avail ended = settle (r, rest) taken avail ended := by
  cases r <;> rfl

/-- A deserializer that waited goes on as it would have run with the bytes there from the start (R67). -/
theorem desRun_more (fs : List Frame) (w : Want) (s t : State) (more : List Byte) (ended : Bool) (he : s.inp.ended = false)
    (h : desRun fs w s = .next t) (hb : t.busy = true) :
    resume { t with inp := { t.inp with avail := t.inp.avail ++ more, ended := ended } } =
      desRun fs w { s with inp := { s.inp with avail := s.inp.avail ++ more, ended := ended } } := by
  rw [desRun_eq] at h
  rw [desRun_eq]
  simp only
  rw [feed_inp, feed_append]
  cases hf : feed s.inp.avail fs w s with
  | mk r left =>
  rw [hf] at h
  cases r with
  | done k s1 =>
    exfalso
    simp only [settle, desDone] at h
    split at h
    · cases h
    · split at h <;> cases h <;> simp [State.busy, finish, desFail, raise] at hb
  | fail e s1 =>
    exfalso
    simp only [settle] at h
    cases h
    simp [State.busy, desFail, raise] at hb
  | more fs1 w1 s1 =>
    obtain rfl := feed_more_rest hf
    simp only [settle, he, Bool.false_eq_true, if_false, List.length_nil, Nat.sub_zero, List.take_length] at h
    cases h
    simp only [resume, desRun_eq, List.nil_append]
    have h1 := feed_inp more fs1 w1 { s1 with prog := .deser fs1 w1 } { taken := s.inp.taken ++ s.inp.avail, avail := more, ended := ended }
    have h2 := feed_prog more fs1 w1 s1 (.deser fs1 w1)
    simp only at h1 h2
    rw [h1, h2]
    simp only
    rw [settle_irrel]
    obtain ⟨used, hu⟩ := feed_suffix more fs1 w1 s1
    have hl := congrArg List.length hu
    simp only [List.length_append] at hl
    have hsub : (s.inp.avail ++ more).length - (feed more fs1 w1 s1).2.length = s.inp.avail.length + (more.length - (feed more fs1 w1 s1).2.length) := by
      simp only [List.length_append]; omega
    have e2 := settle_irrel (feed more fs1 w1 s1).1 (feed more fs1 w1 s1).2 s.inp.taken (s.inp.avail ++ more) ended s1.prog { taken := s.inp.taken, avail := s.inp.avail ++ more, ended := ended }
    have hwp : DesStep.withProg (feed more fs1 w1 s1).1 s1.prog = (feed more fs1 w1 s1).1 := by
      have := feed_prog more fs1 w1 s1 s1.prog
      have := congrArg Prod.fst this
      simpa using this.symm
    rw [hwp] at e2
    rw [e2]
    unfold settle
    simp only [hsub, List.take_length_add_append, List.append_assoc]

end Sys2Proof.Machine
end

