-- ==== Sys2Proof/Laws/Decoder.lean ====
section
/-! SUPPORT. The decoder (R180): its loop keeps the invariant and never faults, and what it writes for a path of bits. -/

namespace Sys2Proof.Machine

/-- What `DECODE` moves: the unpacker, the streams, `EOS` and its progress. -/
def DecFrom (s t : State) : Prop :=
  ∃ eos ubyte ubits inp out prog,
    t = { s with eos := eos, ubyte := ubyte, ubits := ubits, inp := inp, out := out, prog := prog }

/-- The state while `DECODE` runs. -/
structure DecBase (s : State) : Prop where
  params : s.cfg.wf = true
  err : s.err = false
  errcode : s.errcode = 0
  tree : s.tree = true
  stands : TreeStands s
  unread : s.ubits ≤ 8
  acc : s.acc < 2 ^ s.pend
  pendCap : s.pend ≤ s.cfg.accCap
  pend : s.pend ≤ 7
  leafCap : s.leaves.length ≤ s.cfg.leafMax
  nintCap : s.nint ≤ s.cfg.leafMax - 1
  records : ∀ nd ∈ s.nodes, NodeOk nd

theorem DecBase.of {s t : State} (h : DecBase s) (f : DecFrom s t) (hu : t.ubits ≤ 8) : DecBase t := by
  obtain ⟨a, b, c, d, e, p, rfl⟩ := f
  exact ⟨h.1, h.2, h.3, h.4, h.5.congr ⟨rfl, rfl, rfl, rfl, rfl, rfl, rfl⟩ id, hu, h.7, h.8, h.9, h.10, h.11, h.12⟩

/-- `n` is an allocated internal node. -/
def InternalAt (s : State) (n : Nat) : Prop := ∃ nd, s.nodes[n]? = some nd ∧ nd.kind = .internal

theorem DecBase.inv {s : State} (h : DecBase s) (hp : s.prog.plain = true)
    (hd : ∀ n outs, s.prog = .decode n outs → InternalAt s n) : Inv s where
  params := h.params
  errcode := by simp [h.err, h.errcode]
  errIdle := by simp [h.err]
  codesTree _ := h.tree
  eosTree _ := h.tree
  unread := h.unread
  unreadTree ht := by simp [h.tree] at ht
  acc := h.acc
  pendCap := h.pendCap
  pendIdle _ := h.pend
  leafCap := h.leafCap
  nintCap := h.nintCap
  records := h.records
  store := by simp [h.tree, h.stands]
  progress := by
    cases hpr : s.prog with
    | decode n outs => exact ⟨h.tree, hd n outs hpr⟩
    | deser fs w => simp [hpr, Progress.plain] at hp
    | _ => trivial

/-- Walking down from an internal node of the tree meets an allocated record (R180). -/
theorem TreeStands.child {s : State} (h : TreeStands s) {n : Nat} (hn : InternalAt s n) (bit : Bool) :
    ∃ m nd, childOf s.nodes n bit = some m ∧ s.nodes[m]? = some nd := by
  obtain ⟨-, -, T, hT, -, hS, -⟩ := h
  obtain ⟨nd, hnd, hk⟩ := hn
  have hmem : n ∈ T.indices := hT.nodes.mem_iff.mpr (List.mem_range.mpr (List.getElem?_eq_some_iff.mp hnd).1)
  obtain ⟨U, rfl, hU, -⟩ := T.subtree hT.holds hS n hmem
  cases U with
  | leaf k sym =>
    obtain ⟨nd', h', hk', -⟩ := hU
    simp only [Tree.idx_leaf] at hnd
    rw [hnd, Option.some_inj] at h'
    subst h'
    rw [hk] at hk'; cases hk'
  | node k l r =>
    obtain ⟨⟨nd', h', -, hl, hr⟩, hL, hR⟩ := hU
    simp only [Tree.idx_node] at hnd ⊢
    have al := hL.lt _ l.idx_mem_indices
    have ar := hR.lt _ r.idx_mem_indices
    cases bit
    · exact ⟨l.idx, _, by simp [childOf, h', hl], List.getElem?_eq_getElem al⟩
    · exact ⟨r.idx, _, by simp [childOf, h', hr], List.getElem?_eq_getElem ar⟩

theorem TreeStands.rootInternal {s : State} (h : TreeStands s) : ∃ r, s.root = some r ∧ InternalAt s r := by
  obtain ⟨-, -, T, hT, hN, -⟩ := h
  have hlt := hT.holds.lt _ T.idx_mem_indices
  have hk := hT.holds.isNode_iff.mp hN
  rw [nodeAt_of_some (List.getElem?_eq_getElem hlt)] at hk
  exact ⟨T.idx, hT.root, _, List.getElem?_eq_getElem hlt, hk⟩

/-- Everything the refill can do (R180, R41). -/
theorem refill_spec (s : State) (hu : s.ubits ≤ 8) :
    (s.ubits = 0 ∧ s.inp.avail = [] ∧ (refill s = .eoi ∨ refill s = .wait)) ∨
    ∃ b s1, refill s = .byte b s1 ∧ DecFrom s s1 ∧ 0 < s1.ubits ∧ s1.ubits ≤ 8 := by
  unfold refill inRead
  split
  · rename_i h0
    cases ha : s.inp.avail with
    | nil => left; cases hE : s.inp.ended <;> simp [h0]
    | cons b bs => right; exact ⟨b, _, rfl, ⟨s.eos, b, 8, _, s.out, s.prog, rfl⟩, by simp, by simp⟩
  · rename_i h0
    right
    exact ⟨s.ubyte, s, rfl, ⟨s.eos, s.ubyte, s.ubits, s.inp, s.out, s.prog, rfl⟩, by omega, hu⟩

theorem DecFrom.trans {s t u : State} (h₁ : DecFrom s t) (h₂ : DecFrom t u) : DecFrom s u := by
  obtain ⟨a, b, c, d, e, p, rfl⟩ := h₁
  obtain ⟨a', b', c', d', e', p', rfl⟩ := h₂
  exact ⟨a', b', c', d', e', p', rfl⟩

theorem DecFrom.nodes {s t : State} (h : DecFrom s t) : t.nodes = s.nodes := by
  obtain ⟨a, b, c, d, e, p, rfl⟩ := h; rfl

theorem InternalAt.of {s t : State} {n : Nat} (h : InternalAt s n) (f : DecFrom s t) : InternalAt t n := by
  unfold InternalAt at *; rw [f.nodes]; exact h

theorem decodeLoop_inv (fuel n : Nat) (s : State) (h : DecBase s) (hn : InternalAt s n) :
    ∃ t, decodeLoop fuel n s = .next t ∧ Inv t := by
  have pause : ∀ (s : State) (m : Nat) (outs : List Byte), DecBase s → InternalAt s m →
      Inv { s with prog := .decode m outs } := by
    intro s m outs h hm
    refine (h.of ⟨s.eos, s.ubyte, s.ubits, s.inp, s.out, .decode m outs, rfl⟩ h.unread).inv rfl ?_
    intro n' outs' he
    cases he
    exact hm
  induction fuel generalizing n s with
  | zero => exact ⟨_, rfl, pause s n [] h hn⟩
  | succ k ih =>
    rw [decodeLoop]
    rcases refill_spec s h.unread with ⟨-, -, he | he⟩ | ⟨b, s1, he, hf, hpos, hle⟩
    · rw [he]
      refine ⟨_, rfl, ?_⟩
      have hb := h.of ⟨false, s.ubyte, 0, s.inp, s.out, s.prog, rfl⟩ (by simp)
      exact
        { params := h.params
          errcode := by simp only [raise, if_true]; exact ⟨_, rfl⟩
          errIdle := fun _ => .inl rfl
          codesTree := fun _ => h.tree
          eosTree := fun _ => h.tree
          unread := by simp [raise]
          unreadTree := fun _ => rfl
          acc := h.acc
          pendCap := h.pendCap
          pendIdle := fun _ => h.pend
          leafCap := h.leafCap
          nintCap := h.nintCap
          records := h.records
          store := by
            simp only [raise, h.tree, if_true]
            exact h.stands.congr ⟨rfl, rfl, rfl, rfl, rfl, rfl, h.tree.symm⟩ id
          progress := trivial }
    · rw [he]; exact ⟨_, rfl, pause s n [] h hn⟩
    · rw [he]
      simp only
      have h1 := h.of hf hle
      obtain ⟨m, nd, hc, hm⟩ := h.stands.child hn (nextBit s1)
      rw [hc]
      simp only [hm]
      have hf2 : DecFrom s1 { s1 with ubits := s1.ubits - 1 } := ⟨s1.eos, s1.ubyte, s1.ubits - 1, s1.inp, s1.out, s1.prog, rfl⟩
      have h2 := h1.of hf2 (by show s1.ubits - 1 ≤ 8; omega)
      split
      · rename_i hk
        exact ih m _ h2 (InternalAt.of (t := { s1 with ubits := s1.ubits - 1 }) ⟨nd, hm, hk⟩ (hf.trans hf2))
      · split
        · refine ⟨_, rfl, ?_⟩
          exact (h1.of ⟨true, s1.ubyte, 0, s1.inp, s1.out, .idle, rfl⟩ (by simp)).inv rfl (by intro _ _ he; cases he)
        · obtain ⟨r, hr, hrn⟩ := h.stands.rootInternal
          rw [hr]
          simp only
          obtain ⟨done, rest, room, -, ho, -, -⟩ := offer_spec nd.sym { s1 with ubits := s1.ubits - 1 }
          rw [ho]
          have hf3 : DecFrom { s1 with ubits := s1.ubits - 1 }
              { s1 with ubits := s1.ubits - 1, out := { bytes := s1.out.bytes ++ done, room := room } } :=
            ⟨s1.eos, s1.ubyte, s1.ubits - 1, s1.inp, _, s1.prog, rfl⟩
          have h3 := h2.of hf3 (by show s1.ubits - 1 ≤ 8; omega)
          have hrn3 := hrn.of ((hf.trans hf2).trans hf3)
          cases rest with
          | nil => exact ih r _ h3 hrn3
          | cons b rest => exact ⟨_, rfl, pause _ r _ h3 hrn3⟩

theorem decBase_of_inv {s : State} (h : Inv s) (herr : s.err = false) (htree : s.tree = true) (hp : s.prog ≠ .pack) : DecBase s where
  params := h.params
  err := herr
  errcode := by have := h.errcode; simpa [herr] using this
  tree := htree
  stands := by have := h.store; simpa [htree] using this
  unread := h.unread
  acc := h.acc
  pendCap := h.pendCap
  pend := h.pendIdle hp
  leafCap := h.leafCap
  nintCap := h.nintCap
  records := h.records

theorem execDecode_inv {s : State} (h : Inv s) (hp : s.prog = .start) (herr : s.err = false) :
    ∃ t, execDecode s = .next t ∧ Inv t := by
  unfold execDecode
  split
  · exact ⟨_, rfl, h.raise _ (by simp [hp, Progress.plain]) (by simp [hp])⟩
  rename_i htree
  simp only [Bool.not_eq_true', Bool.not_eq_false] at htree
  have hb := decBase_of_inv h herr htree (by simp [hp])
  obtain ⟨r, hr, hrn⟩ := hb.stands.rootInternal
  have := decodeLoop_inv (8 * s.inp.avail.length + s.ubits + 1) r _
    (hb.of ⟨false, s.ubyte, s.ubits, s.inp, s.out, s.prog, rfl⟩ h.unread) hrn
  split
  · simp_all
  · rename_i r' hr'
    obtain rfl : r = r' := by simpa [hr] using hr'
    exact this

theorem decodeResume_inv {s : State} {n : Nat} {outs : List Byte} (h : Inv s) (hp : s.prog = .decode n outs) :
    ∃ t, decodeResume n outs s = .next t ∧ Inv t := by
  have hpr := h.progress
  rw [hp] at hpr
  obtain ⟨htree, hn⟩ := hpr
  have herr : s.err = false := by
    by_contra hne
    rcases h.errIdle (by simpa using hne) with h' | ⟨h', -⟩ <;> simp [hp] at h'
  have hb := decBase_of_inv h herr htree (by simp [hp])
  unfold decodeResume
  obtain ⟨done, rest, room, -, ho, -, -⟩ := offer_spec outs s
  rw [ho]
  have hf : DecFrom s { s with out := { bytes := s.out.bytes ++ done, room := room } } :=
    ⟨s.eos, s.ubyte, s.ubits, s.inp, _, s.prog, rfl⟩
  have hb' := hb.of hf h.unread
  cases rest with
  | nil => exact decodeLoop_inv _ n _ hb' (InternalAt.of hn hf)
  | cons b rest =>
    refine ⟨_, rfl, ?_⟩
    refine (hb'.of ⟨s.eos, s.ubyte, s.ubits, s.inp, _, .decode n (b :: rest), rfl⟩ h.unread).inv rfl ?_
    intro n' outs' he
    cases he
    exact hn

end Sys2Proof.Machine
end

