-- ==== Sys2Proof/Laws/Step.lean ====
section
/-! SUPPORT. What one step can be (R18, R70): the engine's move, the environment's next event, or nothing; and what each event does. -/

namespace Sys2Proof.Machine

theorem step_core {s : State} (h : s.coreMoves = true) : step s = resume s := by
  simp [step, nextMove, h]

theorem step_event {s : State} {e : Event} {rest : List Event} (h : s.coreMoves = false) (he : s.events = e :: rest) :
    step s = handle e { s with events := rest } := by
  simp [step, nextMove, h, he]

theorem step_quiet {s : State} (h : s.coreMoves = false) (he : s.events = []) : step s = .next s := by
  simp [step, nextMove, h, he]

/-- An idle engine has no move. -/
theorem coreMoves_idle {s : State} (h : s.prog = .idle) : s.coreMoves = false := by
  simp [State.coreMoves, h]

theorem coreMoves_start {s : State} (h : s.prog = .start) (hs : s.stalled = false) : s.coreMoves = true := by
  simp [State.coreMoves, h, hs]

theorem coreMoves_stalled {s : State} (hs : s.stalled = true) : s.coreMoves = false := by
  simp [State.coreMoves, hs]

theorem resume_start {s : State} (h : s.prog = .start) : resume s = runCur s := by simp [resume, h]

/-- Every way a step answers a next state. -/
theorem step_cases {s t : State} (h : step s = .next t) :
    (s.coreMoves = true ∧ resume s = .next t) ∨
    (s.coreMoves = false ∧ s.events = [] ∧ t = s) ∨
    (s.coreMoves = false ∧ ∃ e rest, s.events = e :: rest ∧ handle e { s with events := rest } = .next t) := by
  cases hc : s.coreMoves with
  | true => exact .inl ⟨rfl, step_core hc ▸ h⟩
  | false =>
    cases he : s.events with
    | nil => rw [step_quiet hc he] at h; cases h; exact .inr (.inl ⟨rfl, rfl, rfl⟩)
    | cons e rest => exact .inr (.inr ⟨rfl, e, rest, rfl, step_event hc he ▸ h⟩)

/-- Acceptance of a word (R200): dropped while busy, discarded while an error stands, accepted otherwise. -/
theorem offerCommand_busy {s : State} (w : Word) (h : s.busy = true) : offerCommand w s = .next { s with drop := true } := by
  simp [offerCommand, h]

theorem offerCommand_discarded {s : State} {w : Word} (h : s.busy = false) (he : s.err = true) (hw : w ≠ encode .clear) :
    offerCommand w s = .next s := by
  simp [offerCommand, h, he, hw]

theorem offerCommand_accepted {s : State} {w : Word} (h : s.busy = false) (hok : s.err = false ∨ w = encode .clear) :
    offerCommand w s =
      if s.stalled then .next { s with cur := w, prog := .start } else runCur { s with cur := w, prog := .start } := by
  have : (s.err && w != encode .clear) = false := by
    rcases hok with h | h <;> simp [h]
  simp [offerCommand, h, this]

theorem accessOk_iff (off width : Nat) : accessOk off width = true ↔ width = 4 ∧ off % 4 = 0 ∧ off < 0x100 := by
  simp [accessOk, and_assoc]

/-- Everything an accepted host write does (R64, R27, R200). -/
theorem handle_write {s : State} {off : Nat} (data : Word) (h4 : off % 4 = 0) (hlt : off < 0x100) :
    handle (.write off 4 data) s = memWrite off data s := by
  simp [handle, (accessOk_iff off 4).mpr ⟨rfl, h4, hlt⟩]

theorem handle_cmd (s : State) (w : Word) : handle (.write 0x10 4 w) s = offerCommand w s := by
  rw [handle_write w (by decide) (by decide)]; rfl

/-! ### The host's `wait` (R89) -/

/-- Bit 0 of `STATUS` is `BUSY` (R22). -/
theorem status_busy (s : State) : (s.regValue statusOffset).getLsbD 0 = s.busy := by
  show s.statusWord.getLsbD 0 = s.busy
  rw [State.statusWord, BitVec.getLsbD_ofNat, Nat.testBit_zero]
  simp only [flagAt]
  cases s.busy <;> simp <;> omega

/-- `STATUS` is no result register of any command, so a read of it never is a free value (log 4). -/
theorem unsettled_status (s : State) : s.unsettled statusOffset = false := by
  unfold State.unsettled
  cases decode s.cur with
  | error => simp
  | ok i => cases i <;> simp [resultRegs, statusOffset]

/-- What a poll returns is what a read of `STATUS` returns (R89). -/
theorem memRead_status (s : State) : s.memRead statusOffset = (s.regValue statusOffset, s) := by
  simp [State.memRead, unsettled_status]

/-- A poll is a read of `STATUS`; it ends the `wait` exactly when `BUSY` reads 0 (R89). -/
theorem handle_poll (s : State) :
    handle .poll s =
      .next { s with reads := s.reads ++ [s.regValue statusOffset], events := if s.busy then pollAgain s.events else s.events } := by
  cases h : s.busy <;> simp [handle, h]

/-- With nothing to come but the host's own program, the host polls again (R89). -/
theorem pollAgain_host {rest : List Event} (h : ∀ e ∈ rest, e.ofHost = true) : pollAgain rest = .poll :: rest := by
  rw [pollAgain, List.find?_eq_none.mpr (by simpa using h)]

/-- The first move that is not the host's comes before the next poll; the host's program keeps its order (R70, R89). -/
theorem pollAgain_other {host rest : List Event} {e : Event} (h : ∀ x ∈ host, x.ofHost = true) (he : e.ofHost = false) :
    pollAgain (host ++ e :: rest) = e :: .poll :: (host ++ rest) := by
  have hf : (host ++ e :: rest).find? (fun x => !x.ofHost) = some e := by
    rw [List.find?_append, List.find?_eq_none.mpr (by simpa using h)]
    simp [he]
  rw [pollAgain, hf]
  simp only
  rw [List.eraseP_append_right _ (by simpa using h)]
  simp [he]

end Sys2Proof.Machine
end

