-- ==== Sys2Proof/Laws/Paths.lean ====
section
/-! SUPPORT. Paths and codes (R131, R132): a path as a code, the leaves of a tree by their paths, and what trees of the same shape share (R142). -/

namespace Sys2Proof.Machine

/-- The code of a path, as a bit string, is the path (R13, R131). -/
theorem bitsOf_pathValue (p : List Bool) : bitsOf p.length (pathValue p) = p := by
  induction p with
  | nil => rfl
  | cons b p ih =>
    have hlt : ∀ p : List Bool, pathValue p < 2 ^ p.length := by
      intro p
      induction p with
      | nil => simp [pathValue]
      | cons b p ih => rw [pathValue_cons, List.length_cons, Nat.pow_succ]; cases b <;> simp <;> omega
    rw [List.length_cons, bitsOf, pathValue_cons]
    have h1 := hlt p
    congr 1
    · cases b
      · simp; exact Nat.testBit_lt_two_pow h1
      · rw [Bool.toNat_true, Nat.one_mul, Nat.testBit_two_pow_add_eq, Nat.testBit_lt_two_pow h1]; rfl
    · rw [← bitsOf_mod, Nat.mul_comm, Nat.mul_add_mod, Nat.mod_eq_of_lt h1, ih]

/-- No leaf lies deeper than the tree, and one lies that deep (R32). -/
theorem Tree.entries_depth (T : Tree) : (∀ e ∈ T.entries, e.2.2.length ≤ T.depth) ∧ ∃ e ∈ T.entries, e.2.2.length = T.depth := by
  induction T with
  | leaf k sym => simp [Tree.entries, Tree.depth]
  | node k l r ihl ihr =>
    constructor
    · intro e he
      simp only [Tree.entries, List.mem_append, List.mem_map] at he
      rcases he with ⟨e', he', rfl⟩ | ⟨e', he', rfl⟩
      · have := ihl.1 e' he'; simp only [List.length_cons, Tree.depth]; omega
      · have := ihr.1 e' he'; simp only [List.length_cons, Tree.depth]; omega
    · obtain ⟨el, hl, hl'⟩ := ihl.2
      obtain ⟨er, hr, hr'⟩ := ihr.2
      rcases Nat.le_total l.depth r.depth with h | h
      · exact ⟨(er.1, er.2.1, true :: er.2.2), by simp only [Tree.entries, List.mem_append, List.mem_map]; exact .inr ⟨er, hr, rfl⟩, by simp [Tree.depth, hr']; omega⟩
      · exact ⟨(el.1, el.2.1, false :: el.2.2), by simp only [Tree.entries, List.mem_append, List.mem_map]; exact .inl ⟨el, hl, rfl⟩, by simp [Tree.depth, hl']; omega⟩

/-- What the greatest of a list is (R32). -/
theorem foldl_max_spec (l : List Nat) (a : Nat) : (∀ x ∈ l, x ≤ l.foldl max a) ∧ a ≤ l.foldl max a ∧ (l.foldl max a = a ∨ l.foldl max a ∈ l) := by
  induction l generalizing a with
  | nil => simp
  | cons x xs ih =>
    obtain ⟨h1, h2, h3⟩ := ih (max a x)
    simp only [List.foldl_cons, List.mem_cons, forall_eq_or_imp]
    refine ⟨⟨by omega, h1⟩, by omega, ?_⟩
    rcases h3 with h | h
    · rcases Nat.le_total a x with hh | hh
      · right; left; rw [h]; omega
      · left; rw [h]; omega
    · right; right; exact h

/-- No leaf lies above another (R132). -/
theorem Tree.entries_eq_of_prefix (T : Tree) : ∀ e ∈ T.entries, ∀ f ∈ T.entries, e.2.2 <+: f.2.2 → e = f := by
  induction T with
  | leaf k sym => intro e he f hf _; simp only [Tree.entries, List.mem_singleton] at he hf; rw [he, hf]
  | node k l r ihl ihr =>
    intro e he f hf hp
    simp only [Tree.entries, List.mem_append, List.mem_map] at he hf
    rcases he with ⟨e', he', rfl⟩ | ⟨e', he', rfl⟩ <;> rcases hf with ⟨f', hf', rfl⟩ | ⟨f', hf', rfl⟩ <;>
      simp only [List.cons_prefix_cons] at hp
    · rw [ihl e' he' f' hf' hp.2]
    · simp at hp
    · simp at hp
    · rw [ihr e' he' f' hf' hp.2]

/-- A store holds at most one tree at an index (R35). -/
theorem Tree.Holds.unique {nodes : List Node} {T U : Tree} (hT : T.Holds nodes) (hU : U.Holds nodes) (h : T.idx = U.idx) : T = U := by
  induction T generalizing U with
  | leaf k sym =>
    obtain ⟨nd, h1, h2, h3⟩ := hT
    cases U with
    | leaf k' sym' =>
      obtain ⟨nd', h1', h2', h3'⟩ := hU
      simp only [Tree.idx] at h
      subst h
      rw [h1, Option.some_inj] at h1'
      subst h1'
      rw [← h3, ← h3']
    | node k' l' r' =>
      obtain ⟨⟨nd', h1', h2', -⟩, -⟩ := hU
      simp only [Tree.idx] at h
      subst h
      rw [h1, Option.some_inj] at h1'
      subst h1'
      rw [h2] at h2'; cases h2'
  | node k l r ihl ihr =>
    obtain ⟨⟨nd, h1, h2, h3, h4⟩, hl, hr⟩ := hT
    cases U with
    | leaf k' sym' =>
      obtain ⟨nd', h1', h2', h3'⟩ := hU
      simp only [Tree.idx] at h
      subst h
      rw [h1, Option.some_inj] at h1'
      subst h1'
      rw [h2] at h2'; cases h2'
    | node k' l' r' =>
      obtain ⟨⟨nd', h1', h2', h3', h4'⟩, hl', hr'⟩ := hU
      simp only [Tree.idx] at h
      subst h
      rw [h1, Option.some_inj] at h1'
      subst h1'
      rw [h3, Option.some_inj] at h3'
      rw [h4, Option.some_inj] at h4'
      rw [ihl hl hl' h3', ihr hr hr' h4']

/-- The symbol of a leaf entry is its record's (R35). -/
theorem Tree.Holds.entries_sym {nodes : List Node} {T : Tree} (h : T.Holds nodes) : ∀ e ∈ T.entries, (nodeAt nodes e.1).sym = e.2.1 := by
  induction T with
  | leaf k sym =>
    obtain ⟨nd, h1, h2, h3⟩ := h
    simp [Tree.entries, nodeAt_of_some h1, h3]
  | node k l r ihl ihr =>
    intro e he
    simp only [Tree.entries, List.mem_append, List.mem_map] at he
    rcases he with ⟨e', he', rfl⟩ | ⟨e', he', rfl⟩
    · exact ihl h.2.1 e' he'
    · exact ihr h.2.2 e' he'

/-- Trees of the same shape and symbols have the same leaves by symbol and path (R142). -/
theorem Tree.sameShape_paths {T U : Tree} (h : T.sameShape U = true) : T.entries.map (fun e => (e.2.1, e.2.2)) = U.entries.map (fun e => (e.2.1, e.2.2)) ∧ T.depth = U.depth := by
  induction T generalizing U with
  | leaf k sym => cases U with
    | leaf k' sym' => simp [Tree.sameShape] at h; simp [Tree.entries, h, Tree.depth]
    | node => simp [Tree.sameShape] at h
  | node k l r ihl ihr => cases U with
    | leaf => simp [Tree.sameShape] at h
    | node k' l' r' =>
      simp only [Tree.sameShape, Bool.and_eq_true] at h
      obtain ⟨h1, h2⟩ := ihl h.1
      obtain ⟨h3, h4⟩ := ihr h.2
      refine ⟨?_, by simp [Tree.depth, h2, h4]⟩
      have e1 := congrArg (List.map fun p : List Byte × List Bool => (p.1, false :: p.2)) h1
      have e2 := congrArg (List.map fun p : List Byte × List Bool => (p.1, true :: p.2)) h3
      simp only [List.map_map, Function.comp_def] at e1 e2
      simp only [Tree.entries, List.map_append, List.map_map, Function.comp_def, e1, e2]

/-- Trees of the same shape are leaves together. -/
theorem Tree.sameShape_isNode {T U : Tree} (h : T.sameShape U = true) : T.isNode = U.isNode := by
  cases T <;> cases U <;> simp [Tree.sameShape] at h <;> rfl

/-- The symbols of a held tree fit (R6, R35). -/
theorem Tree.Holds.symbolsFit {nodes : List Node} {T : Tree} (h : T.Holds nodes) (hr : ∀ nd ∈ nodes, NodeOk nd) : T.symbolsFit = true := by
  induction T with
  | leaf k sym => obtain ⟨nd, h1, h2, h3⟩ := h; have := (hr nd (List.mem_of_getElem? h1)).sym; rw [h3] at this; simpa [Tree.symbolsFit] using this
  | node k l r ihl ihr => simp [Tree.symbolsFit, ihl h.2.1, ihr h.2.2]

/-- The length of the serialized form (R140). -/
theorem Tree.Holds.ser_length {nodes : List Node} {T : Tree} (h : T.Holds nodes) :
    T.ser.length + 1 = 2 * T.leafIdx.length + (T.leafIdx.map fun k => (nodeAt nodes k).sym.length).sum := by
  induction T with
  | leaf k sym => obtain ⟨nd, h1, h2, h3⟩ := h; simp [Tree.ser, Tree.leafIdx, nodeAt_of_some h1, h3]; omega
  | node k l r ihl ihr =>
    have := ihl h.2.1
    have := ihr h.2.2
    simp only [Tree.ser, Tree.leafIdx, List.length_cons, List.length_append, List.map_append, List.sum_append]
    omega

/-- A byte of a symbol word (R113, R62). -/
theorem symWord_byte (nd : Node) (j m : Nat) (hm : m < 4) : (nd.symWord j).extractLsb' (8 * m) 8 = nd.symAt (4 * j + m) := by
  unfold Node.symWord
  interval_cases m <;> apply BitVec.eq_of_getLsbD_eq <;> intro i hi <;>
    simp only [BitVec.getLsbD_extractLsb', BitVec.getLsbD_append, hi, decide_true, Bool.true_and]
  · simp [hi]
  · rw [if_neg (by omega), if_pos (by omega)]; congr 1; omega
  · rw [if_neg (by omega), if_neg (by omega), if_pos (by omega)]; congr 1; omega
  · rw [if_neg (by omega), if_neg (by omega), if_neg (by omega)]; congr 1; omega

/-- The two spellings of the order of keys (R37). -/
theorem keyAt (s : State) (a b : Nat) : keyLe (key s.nodes a) (key s.nodes b) ↔ s.keyAtMost a b := by
  rw [keyLe_iff]; rfl

end Sys2Proof.Machine
end

