-- ==== Sys2Proof/Laws/Walk.lean ====
section
/-! SUPPORT. The decoder along the bits (R180): offering symbols to the sink, taking one bit, walking to a leaf, and a run over leaves. -/

namespace Sys2Proof.Machine

/-- A sink that never makes the core wait accepts every byte (R68). -/
theorem offer_open (bs : List Byte) (s : State) (h : s.out.room = none) :
    offer bs s = ({ s with out := { bytes := s.out.bytes ++ bs, room := none } }, []) := by
  obtain ⟨done, rest, room, rfl, he, hr, hn⟩ := offer_spec bs s
  have h1 := hn h
  subst h1
  cases rest with
  | nil => rw [he]; simp
  | cons b r => simp at hr

/-- A sink with room accepts as many bytes as it has room for (R68). -/
theorem offer_room (bs : List Byte) (s : State) (n : Nat) (h : s.out.room = some n) :
    offer bs s = ({ s with out := { bytes := s.out.bytes ++ bs.take n, room := some (n - bs.length) } }, bs.drop n) := by
  induction bs generalizing s n with
  | nil => cases s; rename_i out _ _ _ _; cases out; simp only at h; subst h; simp [offer]
  | cons b bs ih =>
    cases n with
    | zero => cases s; rename_i out _ _ _ _; cases out; simp only at h; subst h; simp [offer, outWrite]
    | succ n =>
      simp only [offer, outWrite, h]
      rw [ih _ n rfl]
      simp

/-- `offer` looks at nothing but the output port. -/
theorem offer_out (bs : List Byte) (s : State) : ∃ done rest room, bs = done ++ rest ∧ (rest ≠ [] → room = some 0) ∧ (s.out.room = none → room = none) ∧
    ∀ s' : State, s'.out = s.out → offer bs s' = ({ s' with out := { bytes := s.out.bytes ++ done, room := room } }, rest) := by
  cases hr : s.out.room with
  | none => exact ⟨bs, [], none, by simp, by simp, by simp, fun s' h => by rw [offer_open _ _ (by rw [h, hr]), h]⟩
  | some n =>
    refine ⟨bs.take n, bs.drop n, some (n - bs.length), by simp, ?_, by simp, fun s' h => by rw [offer_room _ _ n (by rw [h, hr]), h]⟩
    intro h
    have : n < bs.length := by simpa using h
    rw [show n - bs.length = 0 by omega]

/-- The bits a state can still consume (R41, R63). -/
def bitsLeft (s : State) : List Bool := s.unreadBits ++ streamBits s.inp.avail

/-- `t` is `s` after these bits were consumed (R41, R67). -/
structure Consumed (s t : State) (bits : List Bool) : Prop where
  frame : t = { s with ubyte := t.ubyte, ubits := t.ubits, inp := t.inp }
  ended : t.inp.ended = s.inp.ended
  stream : ∃ used, s.inp.avail = used ++ t.inp.avail ∧ t.inp.taken = s.inp.taken ++ used
  bits : bitsLeft s = bits ++ bitsLeft t

/-- The next bit (R180): the refill, and the state after it was consumed. -/
theorem takeBit {s : State} {b : Bool} {rest : List Bool} (hu : s.ubits ≤ 8) (h : bitsLeft s = b :: rest) :
    ∃ x s1, refill s = .byte x s1 ∧ nextBit s1 = b ∧ Consumed s { s1 with ubits := s1.ubits - 1 } [b] ∧ s1.ubits - 1 ≤ 7 := by
  unfold refill inRead
  by_cases h0 : s.ubits = 0
  · simp only [h0, if_true]
    cases ha : s.inp.avail with
    | nil => simp [bitsLeft, State.unreadBits, h0, ha, bitsOf] at h
    | cons x xs =>
      refine ⟨x, _, rfl, ?_, ⟨rfl, rfl, ⟨[x], by simp [ha], rfl⟩, ?_⟩, by simp⟩
      · simp only [bitsLeft, State.unreadBits, h0, ha, bitsOf, List.nil_append, streamBits_cons, List.cons_append, List.cons.injEq] at h
        rw [← h.1]; rfl
      · simp only [bitsLeft, State.unreadBits, h0, ha, bitsOf, List.nil_append, streamBits_cons, List.cons_append, List.cons.injEq] at h ⊢
        simp [h.1]
  · simp only [h0, if_false]
    obtain ⟨n, hn⟩ : ∃ n, s.ubits = n + 1 := ⟨s.ubits - 1, by omega⟩
    refine ⟨_, _, rfl, ?_, ⟨rfl, rfl, ⟨[], by simp, by simp⟩, ?_⟩, by omega⟩
    · simp only [bitsLeft, State.unreadBits, hn, bitsOf, List.cons_append, List.cons.injEq] at h
      rw [← h.1, nextBit, hn]; rfl
    · simp only [bitsLeft, State.unreadBits, hn, bitsOf, List.cons_append, List.cons.injEq, Nat.add_sub_cancel] at h ⊢
      simp [h.1]

/-- Consuming in two parts. -/
theorem Consumed.trans {s t u : State} {a b : List Bool} (h1 : Consumed s t a) (h2 : Consumed t u b) : Consumed s u (a ++ b) := by
  obtain ⟨used1, e1, e2⟩ := h1.stream
  obtain ⟨used2, e3, e4⟩ := h2.stream
  refine ⟨?_, h2.ended.trans h1.ended, ⟨used1 ++ used2, by rw [e1, e3, List.append_assoc], by rw [e4, e2, List.append_assoc]⟩, by rw [h1.bits, h2.bits, List.append_assoc]⟩
  have f1 := h1.frame
  have f2 := h2.frame
  rw [f1] at f2
  exact f2

/-- Consuming moves nothing but the unpacker and the input port. -/
theorem Consumed.out {s t : State} {b : List Bool} (h : Consumed s t b) : ∃ x n i, t = { s with ubyte := x, ubits := n, inp := i } := ⟨_, _, _, h.frame⟩

theorem bitsLeft_length (s : State) : (bitsLeft s).length = s.ubits + 8 * s.inp.avail.length := by
  simp [bitsLeft, State.unreadBits, streamBits_length]

/-- What `DECODE` does at a leaf with this symbol (R180). -/
def atLeaf (fuel : Nat) (sym : List Byte) (s : State) : Result :=
  if sym.length = 0 then .next (finish { s with ubits := 0, eos := true })
  else
    match s.root with
    | none => .fault .noRoot
    | some r =>
      match offer sym s with
      | (s3, []) => decodeLoop fuel r s3
      | (s3, rest) => .next { s3 with prog := .decode r rest }

/-- The walk from a node down to a leaf below it (R180). -/
theorem walk_leaf (T : Tree) (e : Nat × List Byte × List Bool) (fuel : Nat) (s : State) (rest : List Bool) (hT : T.Holds s.nodes)
    (hn : T.isNode = true) (he : e ∈ T.entries) (hu : s.ubits ≤ 8) (hb : bitsLeft s = e.2.2 ++ rest) :
    ∃ t, Consumed s t e.2.2 ∧ t.ubits ≤ 7 ∧ decodeLoop (fuel + e.2.2.length) T.idx s = atLeaf fuel e.2.1 t := by
  induction T generalizing e s with
  | leaf k sym => simp [Tree.isNode] at hn
  | node k l r ihl ihr =>
    obtain ⟨⟨nd, hnd, hk, hl, hr⟩, hL, hR⟩ := hT
    have side : ∀ (U : Tree) (b : Bool) (e' : Nat × List Byte × List Bool), U.Holds s.nodes →
        (∀ (e : Nat × List Byte × List Bool) (s : State), U.Holds s.nodes → U.isNode = true → e ∈ U.entries → s.ubits ≤ 8 → bitsLeft s = e.2.2 ++ rest →
          ∃ t, Consumed s t e.2.2 ∧ t.ubits ≤ 7 ∧ decodeLoop (fuel + e.2.2.length) U.idx s = atLeaf fuel e.2.1 t) →
        childOf s.nodes k b = some U.idx → e' ∈ U.entries → bitsLeft s = b :: (e'.2.2 ++ rest) →
        ∃ t, Consumed s t (b :: e'.2.2) ∧ t.ubits ≤ 7 ∧ decodeLoop (fuel + (b :: e'.2.2).length) k s = atLeaf fuel e'.2.1 t := by
      intro U b e' hU ih hc he' hb'
      obtain ⟨x, s1, hre, hnb, hcon, h7⟩ := takeBit hu hb'
      have hfr := hcon.frame
      have hnodes : s1.nodes = s.nodes := by have := congrArg State.nodes hfr; exact this
      have hbits : bitsLeft { s1 with ubits := s1.ubits - 1 } = e'.2.2 ++ rest := by
        have := hcon.bits
        rw [hb'] at this
        simpa using this.symm
      have hstep : decodeLoop (fuel + (b :: e'.2.2).length) k s =
          match s.nodes[U.idx]? with
          | none => .fault .brokenTree
          | some nd =>
            match nd.kind with
            | .internal => decodeLoop (fuel + e'.2.2.length) U.idx { s1 with ubits := s1.ubits - 1 }
            | .leaf => atLeaf (fuel + e'.2.2.length) nd.sym { s1 with ubits := s1.ubits - 1 } := by
        rw [List.length_cons, ← Nat.add_assoc, decodeLoop, hre]
        simp only
        rw [hnb, hc]
        have hroot : s1.root = s.root := by have := congrArg State.root hfr; exact this
        simp only [atLeaf, hroot]
        rfl
      cases U with
      | leaf k' sym =>
        obtain ⟨nd', h1, h2, h3⟩ := hU
        simp only [Tree.entries, List.mem_singleton] at he'
        subst he'
        refine ⟨_, hcon, h7, ?_⟩
        rw [hstep]
        simp only [Tree.idx, h1, h2, h3, List.length_nil, Nat.add_zero]
      | node k' l' r' =>
        obtain ⟨nd', h1, h2, h3⟩ := hU.1
        obtain ⟨t, hc2, hu2, hd2⟩ := ih e' { s1 with ubits := s1.ubits - 1 } (by simpa only [hnodes] using hU) rfl he' (by show s1.ubits - 1 ≤ 8; omega) hbits
        refine ⟨t, ?_, hu2, ?_⟩
        · have := hcon.trans hc2; simpa using this
        · rw [hstep, ← hd2]
          simp only [Tree.idx, h1, h2]
    simp only [Tree.entries, List.mem_append, List.mem_map] at he
    rcases he with ⟨e', he', rfl⟩ | ⟨e', he', rfl⟩
    · exact side l false e' hL (fun e s a b c d f => ihl e s a b c d f) (by simp [childOf, hnd, hl]) he' hb
    · exact side r true e' hR (fun e s a b c d f => ihr e s a b c d f) (by simp [childOf, hnd, hr]) he' hb

/-- A run over leaves that are no sentinels (R180). -/
theorem walk_leaves (T : Tree) (leaves : List (Nat × List Byte × List Bool)) (fuel : Nat) (s : State) (rest : List Bool) (hT : T.Holds s.nodes)
    (hroot : s.root = some T.idx) (hn : T.isNode = true) (hm : ∀ e ∈ leaves, e ∈ T.entries ∧ e.2.1 ≠ []) (hu : s.ubits ≤ 8) (hr : s.out.room = none)
    (hb : bitsLeft s = entryPaths leaves ++ rest) :
    ∃ t, Consumed { s with out := { bytes := s.out.bytes ++ entrySymbols leaves, room := none } } t (entryPaths leaves) ∧ t.ubits ≤ 8 ∧
      decodeLoop (fuel + (entryPaths leaves).length) T.idx s = decodeLoop fuel T.idx t := by
  induction leaves generalizing s with
  | nil =>
    refine ⟨s, ⟨?_, rfl, ⟨[], by simp, by simp⟩, by simp [entryPaths, bitsLeft, State.unreadBits]⟩, hu, rfl⟩
    simp [entrySymbols, ← hr]
  | cons e es ih =>
    have hb' : bitsLeft s = e.2.2 ++ (entryPaths es ++ rest) := by rw [hb]; simp [entryPaths]
    obtain ⟨t, hc, h7, hd⟩ := walk_leaf T e (fuel + (entryPaths es).length) s _ hT hn (hm e (by simp)).1 hu hb'
    have hfr := hc.frame
    have hne := (hm e (by simp)).2
    have htr : t.out = s.out := by have := congrArg State.out hfr; exact this
    have htn : t.nodes = s.nodes := by have := congrArg State.nodes hfr; exact this
    have htroot : t.root = s.root := by have := congrArg State.root hfr; exact this
    set t1 : State := { t with out := { bytes := t.out.bytes ++ e.2.1, room := none } } with ht1
    have hlen : (entryPaths (e :: es)).length = (entryPaths es).length + e.2.2.length := by simp [entryPaths]; omega
    have hd1 : decodeLoop (fuel + (entryPaths (e :: es)).length) T.idx s = decodeLoop (fuel + (entryPaths es).length) T.idx t1 := by
      rw [hlen, ← Nat.add_assoc, hd, atLeaf, if_neg (by simpa using hne), htroot, hroot]
      simp only
      rw [offer_open _ _ (by rw [htr, hr])]
    obtain ⟨u, hcu, hu8, hdu⟩ := ih t1 (by rw [ht1]; simpa only [htn] using hT) (by rw [ht1]; simpa only [htroot] using hroot)
      (fun e' he' => hm e' (by simp [he'])) (by show t.ubits ≤ 8; omega) rfl
      (by
        have := hc.bits
        rw [hb'] at this
        simpa [bitsLeft, State.unreadBits, ht1] using (List.append_cancel_left this).symm)
    refine ⟨u, ?_, hu8, by rw [hd1, hdu]⟩
    have h1 : Consumed { s with out := { bytes := s.out.bytes ++ entrySymbols (e :: es), room := none } }
        { t1 with out := { bytes := t1.out.bytes ++ entrySymbols es, room := none } } e.2.2 := by
      refine ⟨?_, hc.ended, hc.stream, hc.bits⟩
      simp only [ht1, htr]
      rw [hfr]
      simp [entrySymbols]
    have := h1.trans hcu
    simpa [entryPaths] using this

end Sys2Proof.Machine
end

