-- ==== Sys2Proof/Laws/Execution.lean ====
section
/-! SUPPORT. What executing a command does to the error state, to the progress and to the invariant of a safe run. -/

namespace Sys2Proof.Machine

/-- A word that decodes to a command is its word (R80). -/
theorem decode_eq_ok {w : Word} {i} (h : decode w = .ok i) : w = encode i := by
  unfold decode at h
  split at h
  · cases h
  rename_i h0
  simp only [ne_eq, not_not] at h0
  have hs : w.toNat = (rsvField w).toNat * 256 + (opField w).toNat := by
    simp only [rsvField, opField, BitVec.extractLsb'_toNat, Nat.shiftRight_eq_div_pow]
    have := w.isLt
    omega
  apply BitVec.eq_of_toNat_eq
  rw [hs, h0]
  split at h
  · rename_i j hj
    cases h
    unfold instrOfOpcode at hj
    split at hj <;> first | (cases hj; rename_i ho; rw [ho]; rfl) | cases hj
  · cases h

/-- The running command reads `IN` exactly when its word is `DESERIALIZE`'s or `DECODE`'s (R60, R81). -/
theorem readsInput_iff (s : State) :
    s.readsInput = true ↔ s.busy = true ∧ (s.cur = encode .deserialize ∨ s.cur = encode .decode) := by
  unfold State.readsInput
  have h : ∀ i, decode s.cur = .ok i ↔ s.cur = encode i :=
    fun i => ⟨decode_eq_ok, fun h => by rw [h]; cases i <;> rfl⟩
  rw [← h, ← h]
  cases decode s.cur with
  | error => simp
  | ok i => cases i <;> simp

theorem cleared_clear (s : State) : (finish (clearOperation s)).Cleared := ⟨rfl,rfl,rfl,rfl,rfl,rfl,rfl,rfl,rfl,rfl,rfl,rfl,rfl,rfl,rfl,rfl,rfl⟩

theorem cleared_reset (s : State) : (coreReset s).Cleared := ⟨rfl,rfl,rfl,rfl,rfl,rfl,rfl,rfl,rfl,rfl,rfl,rfl,rfl,rfl,rfl,rfl,rfl⟩

/-- After reset or `CLEAR` the status and information registers read 0 (R231). -/
theorem cleared_reads (t : State) (h : t.Cleared) : ∀ off ∈ [0x0C, 0x3C, 0x40, 0x44, 0x48, 0x4C], t.regValue off = 0 := by
  obtain ⟨h1,h2,h3,h4,h5,h6,h7,h8,h9,h10,h11,h12,h13,h14,h15,h16,h17⟩ := h
  intro off ho
  simp at ho
  rcases ho with rfl | rfl | rfl | rfl | rfl | rfl <;>
    simp [State.regValue, State.statusWord, State.nleaf, State.qlen, State.total, State.maxLen, State.busy, flagAt, *]

theorem packLoop_err (fuel : Nat) (s : State) : (packLoop fuel s).err = s.err ∧ (packLoop fuel s).errcode = s.errcode := by
  rw [packLoop_frame]; exact ⟨rfl, rfl⟩

/-- The error of `append` (R160). -/
theorem append_err {c : Code} {len : Nat} {s t : State} (h : append c len s = .next t) (hs : s.err = false) :
    t.err = true → t.errcode = 2#4 := by
  unfold append at h
  split at h
  · cases h; intro; rfl
  · cases h; intro he; rw [(packLoop_err _ _).1] at he; simp [appendBits, hs] at he

/-- The error of the decoder's loop (R180). -/
theorem decodeLoop_err (fuel n : Nat) {s t : State} (h : decodeLoop fuel n s = .next t) (hs : s.err = false) : t.err = true → t.errcode = 5#4 := by
  induction fuel generalizing n s with
  | zero => cases h; intro he; simp [hs] at he
  | succ k ih =>
    rw [decodeLoop] at h
    split at h
    · cases h; intro he; simp [hs] at he
    · cases h; intro; rfl
    · rename_i b s1 hr
      have h1 := refill_frame hr
      have e1 : s1.err = false := by rw [h1]; exact hs
      split at h
      · cases h
      split at h
      · cases h
      split at h
      · exact ih _ h e1
      · split at h
        · cases h; intro he; simp [e1] at he
        · split at h
          · cases h
          · simp only at h
            split at h
            · rename_i s3 ho
              refine ih _ h ?_
              rw [offer_eq ho]; exact e1
            · rename_i s3 rest _ ho
              cases h
              intro he
              rw [offer_eq ho] at he; simp [e1] at he

/-- The errors of one byte of `DESERIALIZE` (R141). -/
theorem desByte_fail {b : Byte} {fs w s e t} (h : desByte b fs w s = .fail e t) : e = .symbolTooLarge ∨ e = .capacityExceeded := by
  have cl : ∀ r fs s, closeNode r fs s ≠ .fail e t := by
    intro r fs
    induction fs generalizing r with
    | nil => intro s h; simp [closeNode] at h
    | cons f fs ih => intro s h; cases f with
      | left k => simp [closeNode] at h
      | right k a => exact ih _ _ (by simpa [closeNode] using h)
  cases w with
  | marker =>
    simp only [desByte, desMarker] at h
    split at h
    · split at h <;> cases h; simp
    · split at h
      · cases h; simp
      · split at h
        · cases h; simp
        · split at h
          · exact absurd h (cl _ _ _)
          · cases h
  | symbol k rem =>
    simp only [desByte, desSymbol] at h
    split at h
    · exact absurd h (cl _ _ _)
    · cases h

/-- The errors of `DESERIALIZE`'s loop (R141). -/
theorem desLoop_err (fuel : Nat) (fs : List Frame) (w : Want) {s t : State} (h : desLoop fuel fs w s = .next t) (hs : s.err = false) :
    t.err = true → t.errcode ∈ [3#4, 4#4, 10#4, 1#4] := by
  induction fuel generalizing fs w s with
  | zero => cases h; intro he; simp [hs] at he
  | succ n ih =>
    rw [desLoop] at h
    split at h
    · cases h; intro he; simp [hs] at he
    · cases h; intro; simp [desFail, Err.code]
    · rename_i b s1 hin
      have h1 := inRead_frame hin
      have hb := desByte_frame b fs w s1
      have e1 : s1.err = false := by rw [h1]; exact hs
      split at h
      · rename_i hd
        rw [hd] at hb
        simp only [DesStep.state] at hb
        refine ih _ _ h ?_
        rw [hb]; exact e1
      · rename_i r s2 hd
        rw [hd] at hb
        simp only [DesStep.state] at hb
        unfold desDone at h
        split at h
        · cases h
        · split at h <;> cases h
          · intro; simp [desFail, Err.code]
          · intro he; rw [hb] at he; simp [e1] at he
      · rename_i e s2 hd
        cases h
        intro
        rcases desByte_fail hd with rfl | rfl <;> simp [desFail, Err.code]

/-- Going on after a wait leaves the operand registers, the parameters and `DROP` alone. -/
theorem resume_regs (s t : State) (hp : s.prog ≠ .start) (h : resume s = .next t) : t.regs = s.regs ∧ t.cfg = s.cfg ∧ t.drop = s.drop := by
  unfold resume at h
  split at h <;> rename_i hpr
  · cases h; exact ⟨rfl, rfl, rfl⟩
  · exact absurd hpr hp
  · rw [emitBytes_frame h]; exact ⟨rfl, rfl, rfl⟩
  · cases h; rw [packLoop_frame]; exact ⟨rfl, rfl, rfl⟩
  · rw [flushRun_frame h]; exact ⟨rfl, rfl, rfl⟩
  · rw [desLoop_frame _ _ _ h]; exact ⟨rfl, rfl, rfl⟩
  · rw [decodeResume_frame h]; exact ⟨rfl, rfl, rfl⟩

/-- Going on after a wait never ends `ERR` = 1, nor changes `ERRCODE` without an error (R208). -/
theorem resume_err (s t : State) (hp : s.prog ≠ .start) (h : resume s = .next t) : t.err = false → s.err = false ∧ t.errcode = s.errcode := by
  unfold resume at h
  split at h <;> rename_i hpr
  · cases h; simp
  · exact absurd hpr hp
  · rw [emitBytes_frame h]; simp
  · cases h; rw [packLoop_frame]; simp
  · rw [flushRun_frame h]; simp
  · have gen : ∀ (fuel : Nat) (fs : List Frame) (w : Want) (s : State), desLoop fuel fs w s = .next t →
          (t.err = false → s.err = false ∧ t.errcode = s.errcode) := by
        intro fuel
        induction fuel with
        | zero => intro fs w s h; cases h; simp
        | succ n ih =>
          intro fs w s h
          rw [desLoop] at h
          split at h
          · cases h; simp
          · cases h; simp [desFail]
          · rename_i b s1 hin
            have h1 := inRead_frame hin
            have hb := desByte_frame b fs w s1
            split at h
            · rename_i hd
              rw [hd] at hb
              simp only [DesStep.state] at hb
              have := ih _ _ _ h
              rw [hb, h1] at this
              exact this
            · rename_i r s2 hd
              rw [hd] at hb
              simp only [DesStep.state] at hb
              unfold desDone at h
              split at h
              · cases h
              · split at h <;> cases h <;> rw [hb, h1] <;> simp [desFail]
            · rename_i e s2 hd
              cases h; simp [desFail]
    exact gen _ _ _ _ h
  · have gen : ∀ (fuel n : Nat) (s : State), decodeLoop fuel n s = .next t → (t.err = false → s.err = false ∧ t.errcode = s.errcode) := by
        intro fuel
        induction fuel with
        | zero => intro n s h; cases h; simp
        | succ k ih =>
          intro n s h
          rw [decodeLoop] at h
          split at h
          · cases h; simp
          · cases h; simp
          · rename_i b s1 hr
            have h1 := refill_frame hr
            split at h
            · cases h
            split at h
            · cases h
            split at h
            · have := ih _ _ h; rw [h1] at this; exact this
            · split at h
              · cases h; rw [h1]; simp
              · split at h
                · cases h
                · simp only at h
                  split at h
                  · rename_i s3 ho
                    have := ih _ _ h
                    rw [offer_eq ho, h1] at this
                    exact this
                  · rename_i s3 rest _ ho
                    cases h
                    rw [offer_eq ho, h1]; simp
    unfold decodeResume at h
    split at h
    · rename_i s1 ho
      have := gen _ _ _ h; rw [offer_eq ho] at this; exact this
    · rename_i s1 _ _ ho
      cases h; rw [offer_eq ho]; simp

/-- A move of the environment other than reset and a `CMD` write (R64 to R69). -/
theorem handle_other {e : Event} {s t : State} (he : e ≠ .reset) (hc : ∀ w d, e ≠ .write 0x10 w d) (h : handle e s = .next t) :
   t = { s with regs := t.regs, inp := t.inp, out := t.out, stalled := t.stalled, events := t.events, reads := t.reads,
                draws := t.draws } := by
  cases e with
  | poll => rw [handle_poll] at h; cases h; rfl
  | write off width data =>
    have : off ≠ 0x10 := by rintro rfl; exact hc _ _ rfl
    simp only [handle, memWrite, cmdOffset, this, if_false] at h
    split at h
    · split at h <;> cases h <;> rfl
    · cases h
  | read off width =>
    simp only [handle] at h
    split at h <;> cases h
    simp only [State.memRead]; split <;> rfl
  | reset => exact absurd rfl he
  | rewind => simp only [handle] at h; split at h <;> cases h; rfl
  | connectIn => simp only [handle] at h; split at h <;> cases h; rfl
  | connectOut => simp only [handle] at h; split at h <;> cases h; rfl
  | deliver b => simp only [handle] at h; split at h <;> cases h; rfl
  | endInput => cases h; rfl
  | sinkRoom n => cases h; rfl
  | stall b => cases h; rfl

/-- A `CMD` write that is answered is 32 bits wide (R64). -/
theorem handle_cmd_any {w : Nat} {d : Word} {s t : State} (h : handle (.write 0x10 w d) s = .next t) : w = 4 ∧ offerCommand d s = .next t := by
  by_cases hw : w = 4
  · subst hw; rw [handle_cmd] at h; exact ⟨rfl, h⟩
  · exfalso; simp only [handle, accessOk, hw] at h; simp at h

/-- With a source that has ended, `DESERIALIZE` ends (R181). -/
theorem desLoop_idle (fuel : Nat) (fs : List Frame) (w : Want) {s t : State} (h : desLoop fuel fs w s = .next t) (he : s.inp.ended = true)
    (hf : s.inp.avail.length < fuel) : t.prog = .idle := by
  induction fuel generalizing fs w s with
  | zero => omega
  | succ n ih =>
    rw [desLoop] at h
    split at h
    · rename_i hin
      unfold inRead at hin
      split at hin <;> simp [he] at hin
    · cases h; rfl
    · rename_i b s1 hin
      have h1 := inRead_frame hin
      have hb := desByte_frame b fs w s1
      have hlen : s1.inp.avail.length + 1 = s.inp.avail.length ∧ s1.inp.ended = true := by
        unfold inRead at hin
        split at hin
        · rename_i hav; cases hin; simp [hav, he]
        · split at hin <;> cases hin
      split at h
      · rename_i hd
        rw [hd] at hb
        simp only [DesStep.state] at hb
        refine ih _ _ h ?_ ?_
        · rw [hb]; exact hlen.2
        · rw [hb]; show s1.inp.avail.length < n; omega
      · unfold desDone at h
        split at h
        · cases h
        · split at h <;> cases h <;> rfl
      · cases h; rfl

theorem refill_count {s s1 : State} {b} (h : refill s = .byte b s1) : 8 * s1.inp.avail.length + s1.ubits = 8 * s.inp.avail.length + s.ubits ∧ 0 < s1.ubits ∧ s1.inp.ended = s.inp.ended := by
  unfold refill at h
  split at h
  · rename_i h0
    split at h <;> cases h
    rename_i hin
    unfold inRead at hin
    split at hin
    · rename_i hav; cases hin; simp [hav, h0]; omega
    · split at hin <;> cases hin
  · cases h; simp; omega

/-- With a source that has ended and an open sink, `DECODE` ends (R181). -/
theorem decodeLoop_idle (fuel n : Nat) {s t : State} (h : decodeLoop fuel n s = .next t) (he : s.inp.ended = true) (ho : s.out.room = none)
    (hf : 8 * s.inp.avail.length + s.ubits < fuel) : t.prog = .idle := by
  induction fuel generalizing n s with
  | zero => omega
  | succ k ih =>
    rw [decodeLoop] at h
    split at h
    · rename_i hr
      unfold refill inRead at hr
      split at hr
      · split at hr <;> rename_i hin
        · cases hr
        · cases hr
        · split at hin
          · cases hin
          · simp at hin
      · cases hr
    · cases h; rfl
    · rename_i b s1 hr
      obtain ⟨c1, c2, c3⟩ := refill_count hr
      have ho1 : s1.out.room = none := by rw [refill_frame hr]; exact ho
      split at h
      · cases h
      split at h
      · cases h
      split at h
      · refine ih _ h (c3 ▸ he) ho1 ?_
        show 8 * s1.inp.avail.length + (s1.ubits - 1) < k; omega
      · split at h
        · cases h; rfl
        · split at h
          · cases h
          · simp only at h
            rw [offer_open _ { s1 with ubits := s1.ubits - 1 } ho1] at h
            refine ih _ h (c3 ▸ he) rfl ?_
            show 8 * s1.inp.avail.length + (s1.ubits - 1) < k; omega

/-- Acceptance keeps the invariant (R200). -/
theorem Inv.cmdStart {s : State} {w : Word} (h : Inv s) (hb : s.prog = .idle) (hok : s.err = false ∨ w = encode .clear) :
    Inv { s with cur := w, prog := .start } := by
  refine h.idle_of (by simp [hb, Progress.plain]) ⟨rfl, rfl, rfl, rfl, rfl, rfl, rfl⟩ rfl h.errcode ?_ rfl h.eosTree h.unread h.unreadTree h.acc
    h.pendCap (fun _ => h.pendIdle (by simp [hb])) rfl
  intro he
  rcases hok with h' | h'
  · simp [h'] at he
  · exact .inr ⟨rfl, h'⟩

/-- A move of the environment keeps the invariant. -/
theorem Inv.envMove {s t : State} (h : Inv s) (e : t = { s with regs := t.regs, drop := t.drop, inp := t.inp, out := t.out, stalled := t.stalled, events := t.events, reads := t.reads, draws := t.draws }) : Inv t := by
  rw [e]
  exact ⟨h.1, h.2, h.3, h.4, h.5, h.6, h.7, h.8, h.9, h.10, h.11, h.12, h.13, by
    have := h.store
    split
    · rename_i ht; rw [if_pos ht] at this; exact this.congr ⟨rfl, rfl, rfl, rfl, rfl, rfl, rfl⟩ id
    · rename_i ht; rw [if_neg ht] at this
      refine ⟨this.1, ?_⟩
      have := this.2
      revert this
      show (match s.prog with | .deser frames want => PartialTree s frames want | _ => LeavesOnly s) → _
      cases s.prog <;> intro this <;> first | exact this.congr ⟨rfl, rfl, rfl, rfl, rfl, rfl, rfl⟩, h.15⟩

/-- Executing a command keeps the invariant and answers a next state. -/
theorem exec_inv {i : Instr} {s : State} (h : Inv s) (hp : s.prog = .start) (herr : s.err = false) :
    ∃ t, exec i s = .next t ∧ Inv t := by
  have np : s.prog ≠ .pack := by simp [hp]
  have pl : s.prog.plain = true := by simp [hp, Progress.plain]
  have treeRoot : s.tree = true → ∃ T, s.HasTree T := by
    intro ht
    have := h.store
    rw [if_pos ht] at this
    obtain ⟨-, -, T, hT, -⟩ := this
    exact ⟨T, hT⟩
  have leafNode : ∀ k ∈ s.leaves, ∃ nd, s.nodes[k]? = some nd := by
    intro k hk
    have hst := h.storeOk pl
    unfold StoreOk at hst
    split at hst
    · obtain ⟨-, -, T, hT, -⟩ := hst
      have := hT.holds.lt k (T.leafIdx_sub k (hT.leaves.mem_iff.mpr hk))
      exact ⟨_, List.getElem?_eq_getElem this⟩
    · rw [hst.2.leaves, List.mem_range] at hk
      exact ⟨_, List.getElem?_eq_getElem hk⟩
  cases i with
  | nop => exact ⟨_, rfl, execNop_inv h hp⟩
  | clear => exact ⟨_, rfl, execClear_inv h⟩
  | leafPush =>
    have : ∃ t, execLeafPush s = .next t := by
      unfold execLeafPush; split; exact ⟨_, rfl⟩; split; exact ⟨_, rfl⟩; split <;> exact ⟨_, rfl⟩
    obtain ⟨t, ht⟩ := this
    exact ⟨t, ht, execLeafPush_inv h hp ht⟩
  | build =>
    have : ∃ t, execBuild s = .next t := by
      rcases execBuild_cases s with ⟨-, he⟩ | ⟨-, -, he⟩ | ⟨-, -, u, r, -, -, -, he⟩ <;> exact ⟨_, he⟩
    obtain ⟨t, ht⟩ := this
    exact ⟨t, ht, execBuild_inv h hp ht⟩
  | leafRead =>
    have : ∃ t, execLeafRead s = .next t := by
      unfold execLeafRead
      split
      · exact ⟨_, rfl⟩
      · rename_i k hk
        obtain ⟨nd, hnd⟩ := leafNode k (List.mem_of_getElem? hk)
        rw [hnd]; exact ⟨_, rfl⟩
    obtain ⟨t, ht⟩ := this
    exact ⟨t, ht, execLeafRead_inv h hp ht⟩
  | assign =>
    have : ∃ t, execAssign s = .next t := by
      unfold execAssign
      split
      · exact ⟨_, rfl⟩
      · rename_i ht
        obtain ⟨T, hT⟩ := treeRoot (by simpa using ht)
        rw [hT.root]
        simp only
        by_cases hd : T.depth ≤ 64
        · obtain ⟨nodes', hv, -⟩ := visit_done hT.holds hT.nodup 0 0 (by simp) (by omega)
          rw [show codeMax + 1 = 65 - 0 from rfl, hv]; exact ⟨_, rfl⟩
        · rw [show codeMax + 1 = 65 - 0 from rfl, visit_overflow hT.holds hT.nodup 0 0 (by simp) (by omega) (by omega)]
          exact ⟨_, rfl⟩
    obtain ⟨t, ht⟩ := this
    exact ⟨t, ht, execAssign_inv h hp ht⟩
  | serialize =>
    have : ∃ t, execSerialize s = .next t := by
      unfold execSerialize
      split
      · exact ⟨_, rfl⟩
      · rename_i ht
        obtain ⟨T, hT⟩ := treeRoot (by simpa using ht)
        rw [hT.root]
        simp only
        rw [serBytes_of_holds hT.holds _ hT.depth_lt]
        simp only [emitBytes]
        split <;> exact ⟨_, rfl⟩
    obtain ⟨t, ht⟩ := this
    exact ⟨t, ht, execSerialize_inv h hp herr ht⟩
  | deserialize => exact execDeserialize_inv h hp herr
  | push =>
    have : ∃ t, execPush s = .next t := by
      unfold execPush append packRun; split; exact ⟨_, rfl⟩; split <;> exact ⟨_, rfl⟩
    obtain ⟨t, ht⟩ := this
    exact ⟨t, ht, execPush_inv h hp herr ht⟩
  | pushLeaf =>
    have : ∃ t, execPushLeaf s = .next t := by
      unfold execPushLeaf
      split
      · exact ⟨_, rfl⟩
      split
      · exact ⟨_, rfl⟩
      · rename_i k hk
        obtain ⟨nd, hnd⟩ := leafNode k (List.mem_of_getElem? hk)
        rw [hnd]; simp only [append, packRun]; split <;> exact ⟨_, rfl⟩
    obtain ⟨t, ht⟩ := this
    exact ⟨t, ht, execPushLeaf_inv h hp herr ht⟩
  | flush =>
    have : ∃ t, flushRun s = .next t := by
      have := h.pendIdle np
      unfold flushRun; split; omega; split; split <;> exact ⟨_, rfl⟩; exact ⟨_, rfl⟩
    obtain ⟨t, ht⟩ := this
    exact ⟨t, ht, flushRun_inv h pl herr ht⟩
  | decode => exact execDecode_inv h hp herr

/-- Executing the accepted word keeps the invariant and answers a next state (R102). -/
theorem runCur_inv {s : State} (h : Inv s) (hp : s.prog = .start) : ∃ t, runCur s = .next t ∧ Inv t := by
  unfold runCur
  cases herr : s.err with
  | true =>
    rcases h.errIdle herr with h' | ⟨-, h'⟩
    · rw [hp] at h'; cases h'
    · rw [h', show encode .clear = 1#32 by decide, show decode 1#32 = .ok .clear from rfl]; exact ⟨_, rfl, execClear_inv h⟩
  | false =>
    split
    · exact ⟨_, rfl, h.raise _ (by simp [hp, Progress.plain]) (by simp [hp])⟩
    · exact exec_inv h hp herr

/-- The engine's move keeps the invariant and answers a next state. -/
theorem resume_inv {s : State} (h : Inv s) : ∃ t, resume s = .next t ∧ Inv t := by
  have herr : s.prog ≠ .idle → s.prog ≠ .start → s.err = false := by
    intro h1 h2
    by_contra hne
    rcases h.errIdle (by simpa using hne) with h' | ⟨h', -⟩
    · exact h1 h'
    · exact h2 h'
  unfold resume
  split <;> rename_i hp
  · exact ⟨s, rfl, h⟩
  · exact runCur_inv h hp
  · have : ∃ t, emitBytes ‹_› s = .next t := by
      unfold emitBytes; split <;> exact ⟨_, rfl⟩
    obtain ⟨t, ht⟩ := this
    exact ⟨t, ht, emitBytes_inv h (by simp [hp, Progress.plain]) (by simp [hp]) (herr (by simp [hp]) (by simp [hp])) ht⟩
  · exact packRun_inv h (by simp [hp, Progress.plain]) (herr (by simp [hp]) (by simp [hp])) s.acc s.pend h.acc h.pendCap
  · have : ∃ t, flushRun s = .next t := by
      have := h.pendIdle (by simp [hp])
      unfold flushRun; split; omega; split; split <;> exact ⟨_, rfl⟩; exact ⟨_, rfl⟩
    obtain ⟨t, ht⟩ := this
    exact ⟨t, ht, flushRun_inv h (by simp [hp, Progress.plain]) (herr (by simp [hp]) (by simp [hp])) ht⟩
  · exact desResume_inv h hp
  · exact decodeResume_inv h hp

end Sys2Proof.Machine
end

