-- ==== Sys2Proof/Laws/Pace.lean ====
section
/-! SUPPORT. Waiting commands (R67, R68): how much a loop still needs, that its bound does not matter beyond that, and that a run that waited goes on as if nothing had happened. -/

namespace Sys2Proof.Machine

/-- How many bits are left to consume. -/
def need (s : State) : Nat := 8 * s.inp.avail.length + s.ubits

/-- Every turn of the decoder consumes one bit (R181). -/
theorem need_drop {s s1 : State} {b : Byte} (h : refill s = .byte b s1) : need { s1 with ubits := s1.ubits - 1 } + 1 = need s ∧ s1.inp.ended = s.inp.ended := by
  unfold refill inRead at h
  by_cases h0 : s.ubits = 0
  · simp only [h0, if_true] at h
    cases ha : s.inp.avail with
    | nil => rw [ha] at h; cases he : s.inp.ended <;> simp [he] at h
    | cons x xs =>
      rw [ha] at h
      simp only [InResult.byte.injEq] at h
      obtain ⟨-, rfl⟩ := h
      exact ⟨by simp [need, ha, h0]; omega, rfl⟩
  · simp only [h0, if_false, InResult.byte.injEq] at h
    obtain ⟨-, rfl⟩ := h
    exact ⟨by simp only [need]; omega, rfl⟩

/-- The decoder's loop does not look at the progress field. -/
theorem decodeLoop_prog (fuel n : Nat) (s : State) (p : Progress) : decodeLoop fuel n { s with prog := p } = decodeLoop fuel n s := by
  induction fuel generalizing n s with
  | zero => rfl
  | succ k ih =>
    have hre : refill { s with prog := p } = match refill s with
        | .byte b s1 => .byte b { s1 with prog := p } | .eoi => .eoi | .wait => .wait := by
      unfold refill inRead
      simp only
      split
      · cases s.inp.avail with
        | nil => cases s.inp.ended <;> rfl
        | cons => rfl
      · rfl
    rw [decodeLoop, decodeLoop, hre]
    cases refill s with
    | eoi => rfl
    | wait => rfl
    | byte b s1 =>
      simp only
      rw [show nextBit { s1 with prog := p } = nextBit s1 from rfl]
      cases childOf s.nodes n (nextBit s1) with
      | none => rfl
      | some m =>
        simp only
        cases s.nodes[m]? with
        | none => rfl
        | some nd =>
          simp only
          cases nd.kind with
          | internal => exact ih m { s1 with ubits := s1.ubits - 1 }
          | leaf =>
            simp only
            split
            · rfl
            · cases s.root with
              | none => rfl
              | some r =>
                simp only
                obtain ⟨done, rest, room, -, -, -, ho⟩ := offer_out nd.sym { s1 with ubits := s1.ubits - 1 }
                rw [ho { s1 with ubits := s1.ubits - 1 } rfl, ho { s1 with prog := p, ubits := s1.ubits - 1 } rfl]
                cases rest with
                | nil => exact ih r { s1 with ubits := s1.ubits - 1, out := { bytes := s1.out.bytes ++ done, room := room } }
                | cons => rfl

/-- Beyond the bits left, the bound of the decoder's loop does not matter. -/
theorem decodeLoop_fuel (f1 f2 n : Nat) (s : State) (h1 : need s < f1) (h2 : need s < f2) :
    decodeLoop f1 n s = decodeLoop f2 n s := by
  induction f1 generalizing f2 n s with
  | zero => omega
  | succ k ih =>
    obtain ⟨g, rfl⟩ : ∃ g, f2 = g + 1 := ⟨f2 - 1, by omega⟩
    rw [decodeLoop, decodeLoop]
    cases hre : refill s with
    | eoi => rfl
    | wait => rfl
    | byte b s1 =>
      obtain ⟨hn, -⟩ := need_drop hre
      simp only
      cases childOf s.nodes n (nextBit s1) with
      | none => rfl
      | some m =>
        simp only
        cases s.nodes[m]? with
        | none => rfl
        | some nd =>
          simp only
          cases nd.kind with
          | internal => exact ih g m { s1 with ubits := s1.ubits - 1 }  (by omega) (by omega)
          | leaf =>
            simp only
            split
            · rfl
            · cases s.root with
              | none => rfl
              | some r =>
                simp only
                obtain ⟨done, rest, room, -, -, -, ho⟩ := offer_out nd.sym { s1 with ubits := s1.ubits - 1 }
                rw [ho { s1 with ubits := s1.ubits - 1 } rfl]
                have hn : need { s1 with ubits := s1.ubits - 1, out := { bytes := s1.out.bytes ++ done, room := room } } + 1 = need s := hn
                cases rest with
                | nil => exact ih g r { s1 with ubits := s1.ubits - 1, out := { bytes := s1.out.bytes ++ done, room := room } }
                           (by omega) (by omega)
                | cons => rfl

/-- A change of the source: bytes delivered, the end-marker set or left alone. -/
structure Env where
  more : List Byte
  ended : Option Bool

/-- The state after the change. -/
def Env.app (e : Env) (s : State) : State :=
  { s with inp := { s.inp with avail := s.inp.avail ++ e.more, ended := e.ended.getD s.inp.ended } }

/-- A byte that is there is taken whatever else arrives. -/
theorem refill_app {s s1 : State} {b : Byte} (e : Env) (h : refill s = .byte b s1) : refill (e.app s) = .byte b (e.app s1) := by
  unfold refill inRead at h ⊢
  by_cases h0 : s.ubits = 0
  · simp only [h0, if_true, Env.app] at h ⊢
    cases ha : s.inp.avail with
    | nil => rw [ha] at h; cases he : s.inp.ended <;> simp [he] at h
    | cons x xs =>
      rw [ha] at h
      simp only [InResult.byte.injEq] at h
      obtain ⟨rfl, rfl⟩ := h
      simp
  · simp only [h0, if_false, InResult.byte.injEq, Env.app] at h ⊢
    obtain ⟨rfl, rfl⟩ := h
    simp

/-- A decoder that waited goes on, after the change, as it would have run with the change made before (R67, R68). -/
theorem decodeLoop_app (e : Env) (f1 f2 n : Nat) (s t : State) (h1 : need s < f1) (h2 : need (e.app s) < f2)
    (h : decodeLoop f1 n s = .next t) (hb : t.busy = true) : resume (e.app t) = decodeLoop f2 n (e.app s) := by
  induction f1 generalizing f2 n s with
  | zero => omega
  | succ k ih =>
    obtain ⟨g, rfl⟩ : ∃ g, f2 = g + 1 := ⟨f2 - 1, by omega⟩
    have hneed : ∀ s : State, need (e.app s) = need s + 8 * e.more.length := by intro s; simp [need, Env.app]; omega
    rw [decodeLoop] at h
    cases hre : refill s with
    | eoi => rw [hre] at h; cases h; simp [State.busy, raise] at hb
    | wait =>
      rw [hre] at h
      cases h
      -- t = s with prog := decode n []
      simp only [resume, Env.app, decodeResume, offer, decodeRun]
      have hp := decodeLoop_prog (8 * (s.inp.avail ++ e.more).length + s.ubits + 1) n (e.app s) (.decode n [])
      simp only [Env.app] at hp
      rw [hp]
      -- fuel independence
      exact decodeLoop_fuel _ _ _ (e.app s) (by simp [need, Env.app]) h2
    | byte b s1 =>
      rw [hre] at h
      obtain ⟨hn, hend⟩ := need_drop hre
      have hea := hneed s
      have heb := hneed { s1 with ubits := s1.ubits - 1 }
      rw [decodeLoop, refill_app e hre]
      simp only at h ⊢
      rw [show nextBit (e.app s1) = nextBit s1 from rfl, show (e.app s).nodes = s.nodes from rfl, show (e.app s).root = s.root from rfl]
      cases hch : childOf s.nodes n (nextBit s1) with
      | none => rw [hch] at h; cases h
      | some m =>
        rw [hch] at h
        simp only at h ⊢
        cases hm : s.nodes[m]? with
        | none => rw [hm] at h; cases h
        | some nd =>
          rw [hm] at h
          simp only at h ⊢
          cases hk : nd.kind with
          | internal =>
            rw [hk] at h
            exact ih g m { s1 with ubits := s1.ubits - 1 }  (by omega) (by omega) h
          | leaf =>
            rw [hk] at h
            simp only at h ⊢
            split at h
            · cases h; simp [State.busy, finish] at hb
            · rename_i hl
              rw [if_neg hl]
              cases hr : s.root with
              | none => rw [hr] at h; cases h
              | some r =>
                rw [hr] at h
                simp only at h ⊢
                obtain ⟨done, rest, room, hsym, hroom, hnone, ho⟩ := offer_out nd.sym { s1 with ubits := s1.ubits - 1 }
                rw [ho { s1 with ubits := s1.ubits - 1 } rfl] at h
                set s2 : State := { s1 with ubits := s1.ubits - 1, out := { bytes := s1.out.bytes ++ done, room := room } } with hs2
                have hn2 : need s2 + 1 = need s := hn
                have hes := hneed s2
                rw [show ({ e.app s1 with ubits := (e.app s1).ubits - 1 } : State) = { e.app s1 with ubits := s1.ubits - 1 } from rfl,
                  ho { e.app s1 with ubits := s1.ubits - 1 } rfl]
                cases rest with
                | nil => exact ih g r s2 (by omega) (by omega) h
                | cons x xs =>
                  cases h
                  have hz := hroom (by simp)
                  subst hz
                  simp only [resume, Env.app, decodeResume]
                  rw [show offer (x :: xs) _ = _ from rfl]
                  rfl

/-! ### The sink's pace (R68) -/

/-- The state with this much room in the sink. -/
def roomed (room : Option Nat) (s : State) : State := { s with out := { s.out with room := room } }

/-- Offering bytes in two parts: the room for the first part is what they take. -/
theorem offer_split (a b : List Byte) (room : Option Nat) (s : State) :
    offer (a ++ b) (roomed (room.map (a.length + ·)) s) = offer b { s with out := { bytes := s.out.bytes ++ a, room := room } } := by
  induction a generalizing s with
  | nil => simp [roomed]
  | cons x xs ih =>
    have := ih { s with out := { bytes := s.out.bytes ++ [x], room := room } }
    cases room with
    | none => simpa [roomed, offer, outWrite] using this
    | some n =>
      simp only [List.cons_append, offer, outWrite, roomed, Option.map_some, List.length_cons, show xs.length + 1 + n = (xs.length + n) + 1 by omega]
      simpa [roomed] using this

/-- The refill does not look at the sink. -/
theorem refill_roomed (room : Option Nat) (s : State) :
    refill (roomed room s) = match refill s with
      | .byte b s1 => .byte b (roomed room s1) | .eoi => .eoi | .wait => .wait := by
  unfold refill inRead roomed
  simp only
  split
  · cases s.inp.avail with
    | nil => cases s.inp.ended <;> rfl
    | cons => rfl
  · rfl

/-- A decoder that waited goes on, with any room in the sink from then on, as it would have run with that much more room (R68). -/
theorem decodeLoop_sink (f1 f2 n : Nat) (s t : State) (h1 : need s < f1) (h2 : need s < f2) (h : decodeLoop f1 n s = .next t)
    (hb : t.busy = true) :
    ∃ sent, t.out.bytes = s.out.bytes ++ sent ∧
      ∀ room, resume (roomed room t) = decodeLoop f2 n (roomed (room.map (sent.length + ·)) s) := by
  induction f1 generalizing f2 n s with
  | zero => omega
  | succ k ih =>
    obtain ⟨g, rfl⟩ : ∃ g, f2 = g + 1 := ⟨f2 - 1, by omega⟩
    rw [decodeLoop] at h
    cases hre : refill s with
    | eoi => rw [hre] at h; cases h; simp [State.busy, raise] at hb
    | wait =>
      rw [hre] at h
      cases h
      refine ⟨[], by simp, fun room => ?_⟩
      have hroom : room.map (([] : List Byte).length + ·) = room := by cases room <;> simp
      rw [hroom]
      exact (decodeLoop_prog _ n (roomed room s) (.decode n [])).trans
        (decodeLoop_fuel _ _ _ (roomed room s) (by simp [need, roomed]) h2)
    | byte b s1 =>
      rw [hre] at h
      obtain ⟨hn, -⟩ := need_drop hre
      have hsout : s1.out = s.out := by rw [refill_frame hre]
      have step : ∀ room, decodeLoop (g + 1) n (roomed room s) =
          match childOf s.nodes n (nextBit s1) with
          | none => .fault .brokenTree
          | some m =>
            match s.nodes[m]? with
            | none => .fault .brokenTree
            | some nd =>
              match nd.kind with
              | .internal => decodeLoop g m (roomed room { s1 with ubits := s1.ubits - 1 })
              | .leaf =>
                if nd.symlen = 0 then .next (finish { roomed room s1 with ubits := 0, eos := true })
                else
                  match s.root with
                  | none => .fault .noRoot
                  | some r =>
                    match offer nd.sym (roomed room { s1 with ubits := s1.ubits - 1 }) with
                    | (s3, []) => decodeLoop g r s3
                    | (s3, rest) => .next { s3 with prog := .decode r rest } := by
        intro room
        rw [decodeLoop, refill_roomed, hre]
        rfl
      simp only at h
      cases hch : childOf s.nodes n (nextBit s1) with
      | none => rw [hch] at h; cases h
      | some m =>
        rw [hch] at h
        simp only at h
        cases hm : s.nodes[m]? with
        | none => rw [hm] at h; cases h
        | some nd =>
          rw [hm] at h
          simp only at h
          cases hk : nd.kind with
          | internal =>
            rw [hk] at h
            obtain ⟨sent, e1, e2⟩ := ih g m { s1 with ubits := s1.ubits - 1 } (by omega) (by omega) h
            refine ⟨sent, by rw [e1, ← hsout], fun room => ?_⟩
            rw [e2 room, step, hch]
            simp only [hm, hk]
          | leaf =>
            rw [hk] at h
            simp only at h
            split at h
            · cases h; simp [State.busy, finish] at hb
            · rename_i hl
              cases hr : s.root with
              | none => rw [hr] at h; cases h
              | some r =>
                rw [hr] at h
                simp only at h
                obtain ⟨done, rest, room0, hsym, -, -, ho⟩ := offer_out nd.sym { s1 with ubits := s1.ubits - 1 }
                rw [ho { s1 with ubits := s1.ubits - 1 } rfl] at h
                cases rest with
                | nil =>
                  rw [List.append_nil] at hsym
                  subst hsym
                  obtain ⟨sent, e1, e2⟩ :=
                    ih g r { s1 with ubits := s1.ubits - 1, out := { bytes := s1.out.bytes ++ nd.sym, room := room0 } }
                      (by have : need { s1 with ubits := s1.ubits - 1, out := { bytes := s1.out.bytes ++ nd.sym, room := room0 } } + 1 = need s := hn
                          omega)
                      (by have : need { s1 with ubits := s1.ubits - 1, out := { bytes := s1.out.bytes ++ nd.sym, room := room0 } } + 1 = need s := hn
                          omega) h
                  refine ⟨nd.sym ++ sent, by rw [e1, ← hsout]; simp, fun room => ?_⟩
                  rw [e2 room, step, hch]
                  simp only [hm, hk, if_neg hl, hr]
                  have := offer_split nd.sym [] (room.map (sent.length + ·)) { s1 with ubits := s1.ubits - 1 }
                  rw [List.append_nil, Option.map_map] at this
                  rw [show room.map ((nd.sym ++ sent).length + ·) = room.map ((nd.sym.length + ·) ∘ (sent.length + ·)) by
                    congr 1; funext x; simp [Nat.add_assoc], this]
                  rfl
                | cons x xs =>
                  cases h
                  refine ⟨done, by rw [← hsout], fun room => ?_⟩
                  rw [step, hch]
                  simp only [hm, hk, if_neg hl, hr]
                  rw [hsym, offer_split]
                  simp only [resume, roomed, decodeResume]
                  obtain ⟨d2, r2, room2, -, -, -, ho2⟩ := offer_out (x :: xs)
                    { s1 with ubits := s1.ubits - 1, out := { bytes := s1.out.bytes ++ done, room := room } }
                  rw [ho2 { s1 with ubits := s1.ubits - 1, out := { bytes := s1.out.bytes ++ done, room := room }, prog := .decode r (x :: xs) } rfl,
                    ho2 { s1 with ubits := s1.ubits - 1, out := { bytes := s1.out.bytes ++ done, room := room } } rfl]
                  cases r2 with
                  | nil =>
                    simp only
                    exact (decodeLoop_prog _ r { s1 with ubits := s1.ubits - 1, out := { bytes := s1.out.bytes ++ done ++ d2, room := room2 } } _).trans
                      (decodeLoop_fuel _ _ _ _ (by simp [need])
                        (by have : need { s1 with ubits := s1.ubits - 1, out := { bytes := s1.out.bytes ++ done ++ d2, room := room2 } } + 1 = need s := hn
                            omega))
                  | cons => rfl

/-- Beyond the pending bits, the bound of the packer's loop does not matter. -/
theorem packLoop_fuel (f1 f2 : Nat) (s : State) (h1 : s.pend ≤ f1) (h2 : s.pend ≤ f2) : packLoop f1 s = packLoop f2 s := by
  induction f1 generalizing f2 s with
  | zero =>
    cases f2 with
    | zero => rfl
    | succ g => rw [packLoop, packLoop, if_neg (by omega)]
  | succ k ih =>
    cases f2 with
    | zero => rw [packLoop, packLoop, if_neg (by omega)]
    | succ g =>
      rw [packLoop, packLoop]
      split
      · cases hw : outWrite (oldestByte s) s with
        | none => rfl
        | some s1 => exact ih g _ (by simp only; omega) (by simp only; omega)
      · rfl

/-- The packer's loop does not look at the progress field. -/
theorem packLoop_prog (f : Nat) (s : State) (p : Progress) : packLoop f { s with prog := p } = packLoop f s := by
  induction f generalizing s with
  | zero => rfl
  | succ k ih =>
    rw [packLoop, packLoop]
    simp only
    split
    · have : outWrite (oldestByte { s with prog := p }) { s with prog := p } = (outWrite (oldestByte s) s).map fun s1 => { s1 with prog := p } := by
        unfold outWrite oldestByte
        simp only
        cases s.out.room with
        | none => rfl
        | some n => cases n <;> rfl
      rw [this]
      cases outWrite (oldestByte s) s with
      | none => rfl
      | some s1 => exact ih { s1 with pend := s.pend - 8, acc := s.acc % 2 ^ (s.pend - 8) }
    · rfl

/-- A packer that waited goes on, with any room in the sink from then on, as it would have run with that much more room (R68). -/
theorem packLoop_sink (f g : Nat) (s : State) (h1 : s.pend ≤ f) (h2 : s.pend ≤ g) (hb : (packLoop f s).busy = true) :
    (packLoop f s).prog = .pack ∧ ∃ sent, (packLoop f s).out.bytes = s.out.bytes ++ sent ∧
      ∀ room, packLoop (packLoop f s).pend (roomed room (packLoop f s)) = packLoop g (roomed (room.map (sent.length + ·)) s) := by
  induction f generalizing g s with
  | zero => simp [packLoop, finish, State.busy] at hb
  | succ k ih =>
    rw [packLoop] at hb ⊢
    split at hb
    · rename_i h8
      rw [if_pos h8]
      obtain ⟨g, rfl⟩ : ∃ g', g = g' + 1 := ⟨g - 1, by omega⟩
      cases hw : outWrite (oldestByte s) s with
      | none =>
        refine ⟨rfl, [], by simp, fun room => ?_⟩
        have hroom : room.map (([] : List Byte).length + ·) = room := by cases room <;> simp
        rw [hroom]
        exact (packLoop_prog s.pend (roomed room s) .pack).trans (packLoop_fuel _ _ _ (by simp [roomed]) (by simpa [roomed] using h2))
      | some s1 =>
        rw [hw] at hb
        simp only at hb ⊢
        obtain ⟨room0, rfl, -⟩ := outWrite_some hw
        obtain ⟨e1, sent, e2, e3⟩ := ih g { s with out := { bytes := s.out.bytes ++ [oldestByte s], room := room0 }, pend := s.pend - 8, acc := s.acc % 2 ^ (s.pend - 8) } (by simp only; omega) (by simp only; omega) hb
        refine ⟨e1, oldestByte s :: sent, by rw [e2]; simp, fun room => (e3 room).trans ?_⟩
        rw [packLoop, if_pos (by simpa [roomed] using h8)]
        cases room with
        | none => rfl
        | some n =>
          simp only [roomed, Option.map_some, List.length_cons, show sent.length + 1 + n = (sent.length + n) + 1 by omega, outWrite]
          rfl
    · simp [finish, State.busy] at hb

/-- A serializer that waited goes on as it would have run with that much more room in the sink (R68). -/
theorem emit_sink {bs : List Byte} {s t : State} (h : emitBytes bs s = .next t) (hb : t.busy = true) :
    ∃ sent, t.out.bytes = s.out.bytes ++ sent ∧
      ∀ room, resume (roomed room t) = emitBytes bs (roomed (room.map (sent.length + ·)) s) := by
  unfold emitBytes at h
  obtain ⟨done, rest, room0, hd, -, -, ho⟩ := offer_out bs s
  rw [ho s rfl] at h
  cases rest with
  | nil => cases h; simp [State.busy, finish] at hb
  | cons x xs =>
    cases h
    refine ⟨done, rfl, fun room => ?_⟩
    simp only [resume, roomed, emitBytes]
    have hs := offer_split done (x :: xs) room s
    rw [← hd, roomed] at hs
    rw [hs]
    obtain ⟨d2, r2, room2, -, -, -, ho2⟩ := offer_out (x :: xs) { s with out := { bytes := s.out.bytes ++ done, room := room } }
    rw [ho2 { s with out := { bytes := s.out.bytes ++ done, room := room }, prog := .emit (x :: xs) } rfl,
      ho2 { s with out := { bytes := s.out.bytes ++ done, room := room } } rfl]
    cases r2 <;> rfl

/-- `append` that waited goes on as it would have run with that much more room in the sink (R68). -/
theorem append_sink {c : Code} {len : Nat} {s t : State} (h : append c len s = .next t) (hb : t.busy = true) :
    ∃ sent, t.out.bytes = s.out.bytes ++ sent ∧
      ∀ room, resume (roomed room t) = append c len (roomed (room.map (sent.length + ·)) s) := by
  unfold append at h ⊢
  split at h
  · cases h; simp [State.busy, raise] at hb
  · rename_i hc
    unfold packRun at h ⊢
    cases h
    obtain ⟨e1, sent, e2, e3⟩ :=
      packLoop_sink (appendBits c len s).pend (appendBits c len s).pend (appendBits c len s) (by omega) (by omega) hb
    refine ⟨sent, e2, fun room => ?_⟩
    rw [if_neg (by exact hc)]
    unfold resume
    rw [show (roomed room (packLoop (appendBits c len s).pend (appendBits c len s))).prog = .pack from e1]
    simp only [packRun]
    exact congrArg _ (e3 room)

/-- `append` with an open sink and enough capacity (R160). -/
theorem append_open (c : Code) (len : Nat) (s : State) (hacc : s.acc < 2 ^ s.pend) (hr : s.out.room = none) (hc : s.pend + len ≤ s.cfg.accCap) :
    ∃ bytes acc pend,
        append c len s = .next
          { s with acc := acc, pend := pend, out := { bytes := s.out.bytes ++ bytes, room := none }, prog := .idle } ∧
        streamBits bytes ++ bitsOf pend acc = s.pendingBits ++ bitsOf len c.toNat ∧
        pend < 8 ∧ acc < 2 ^ pend ∧ bytes.length = (s.pend + len) / 8 := by
  rcases append_spec c len s hacc with ⟨h, -⟩ | ⟨-, bs, room, prog, pend, acc, he, hb, ha, -, hend, hroom⟩
  · omega
  · have := hroom hr; subst this
    rcases hend with ⟨rfl, hp⟩ | ⟨-, h⟩
    · refine ⟨bs, acc, pend, he, hb, hp, ha, ?_⟩
      have := congrArg List.length hb
      simp only [List.length_append, streamBits_length, bitsOf_length] at this
      omega
    · cases h

/-- What `append` leaves when it completes without an error (R160). -/
theorem append_ok {c : Code} {len : Nat} {s t : State} (hacc : s.acc < 2 ^ s.pend) (hr : s.out.room = none) (h : append c len s = .next t) (ht : t.err = false) :
    ∃ bytes, t.out = { bytes := s.out.bytes ++ bytes, room := none } ∧ streamBits bytes ++ t.pendingBits = s.pendingBits ++ bitsOf len c.toNat ∧ t.pend < 8 ∧ t.acc < 2 ^ t.pend := by
  by_cases hc : s.pend + len ≤ s.cfg.accCap
  · obtain ⟨bytes, acc, pend, he, hb, hp, ha, -⟩ := append_open c len s hacc hr hc
    rw [he] at h; cases h
    exact ⟨bytes, rfl, hb, hp, ha⟩
  · unfold append at h
    rw [if_pos (by omega)] at h; cases h; simp at ht

theorem withCode_codeOp (s : State) (c : Code) (l) : (s.withCode c l).regs.codeOp = c := by
  simp only [State.withCode, Operands.codeOp]
  apply BitVec.eq_of_getLsbD_eq
  intro i hi
  simp only [BitVec.getLsbD_append, BitVec.getLsbD_extractLsb']
  split
  · rename_i h'; simp [h']
  · rename_i h'
    have : i - 32 < 32 := by omega
    simp only [this, decide_true, Bool.true_and]; congr 1; omega

/-- What a run of packer commands leaves (R164). -/
theorem packs_spec {codes : List (List Bool)} {s t : State} (h : Packs codes s t) (hacc : s.acc < 2 ^ s.pend) (hp : s.pend < 8) (hr : s.out.room = none) :
    ∃ bytes, t.out = { bytes := s.out.bytes ++ bytes, room := none } ∧ streamBits bytes ++ t.pendingBits = s.pendingBits ++ codes.flatten ∧ t.pend < 8 ∧ t.acc < 2 ^ t.pend := by
  induction h with
  | none s => exact ⟨[], by simp [← hr], by simp, hp, hacc⟩
  | push c len rest s t u runs ok ends after ih =>
    have : append c len.toNat (s.withCode c len) = .next t := by
      simp only [exec, execPush] at runs
      split at runs
      · cases runs; simp at ok
      · rw [withCode_codeOp] at runs; exact runs
    obtain ⟨b1, ho, hb, hp', ha'⟩ := append_ok (s := s.withCode c len) hacc hr this ok
    obtain ⟨b2, ho2, hb2, hp2, ha2⟩ := ih ha' hp' (by rw [ho])
    refine ⟨b1 ++ b2, by rw [ho2, ho]; simp [State.withCode], ?_, hp2, ha2⟩
    rw [streamBits_append, List.append_assoc, hb2, ← List.append_assoc, hb]
    simp [State.pendingBits, State.withCode]
  | leaf i k nd rest s t u index record runs ok ends after ih =>
    have : append nd.code nd.clen (s.withArg i) = .next t := by
      simp only [exec, execPushLeaf] at runs
      split at runs
      · cases runs; simp at ok
      · simpa [State.withArg, Operands.argOp, index, record] using runs
    obtain ⟨b1, ho, hb, hp', ha'⟩ := append_ok (s := s.withArg i) hacc hr this ok
    obtain ⟨b2, ho2, hb2, hp2, ha2⟩ := ih ha' hp' (by rw [ho])
    refine ⟨b1 ++ b2, by rw [ho2, ho]; simp [State.withArg], ?_, hp2, ha2⟩
    rw [streamBits_append, List.append_assoc, hb2, ← List.append_assoc, hb]
    simp [State.pendingBits, State.withArg]

end Sys2Proof.Machine
end

