-- ==== Sys2Proof/Laws/PerInstr.lean ====
section
/-! SUPPORT. One fact about every command as syntax: its word (R80, R81). -/

namespace Sys2Proof.Laws.CommandWord

/-- The command is well formed, its word's reserved bits are 0, its opcode is its own, and the word decodes to the command (R80, R81). -/
def Statement (i : Instr) : Prop :=
  i.wf = true ∧ rsvField (encode i) = 0 ∧ opField (encode i) = opcodeOf i ∧ decode (encode i) = .ok i

theorem nop : Statement .nop := ⟨rfl, rfl, rfl, rfl⟩
theorem clear : Statement .clear := ⟨rfl, rfl, rfl, rfl⟩
theorem leafPush : Statement .leafPush := ⟨rfl, rfl, rfl, rfl⟩
theorem build : Statement .build := ⟨rfl, rfl, rfl, rfl⟩
theorem leafRead : Statement .leafRead := ⟨rfl, rfl, rfl, rfl⟩
theorem assign : Statement .assign := ⟨rfl, rfl, rfl, rfl⟩
theorem serialize : Statement .serialize := ⟨rfl, rfl, rfl, rfl⟩
theorem deserialize : Statement .deserialize := ⟨rfl, rfl, rfl, rfl⟩
theorem push : Statement .push := ⟨rfl, rfl, rfl, rfl⟩
theorem pushLeaf : Statement .pushLeaf := ⟨rfl, rfl, rfl, rfl⟩
theorem flush : Statement .flush := ⟨rfl, rfl, rfl, rfl⟩
theorem decode : Statement .decode := ⟨rfl, rfl, rfl, rfl⟩

end Sys2Proof.Laws.CommandWord
end

