-- ==== Sys2Proof/Machine/HostSyntax.lean ====
section
/-! DEFINITION. The host's program syntax (R88) and its pseudo-instructions (R89), as the events they stand for. -/

namespace Sys2Proof.Machine

/-- The register names of the window (R21). -/
inductive Reg where
  | ID | CAP | LEAFMAX | STATUS | CMD | ARG | SYMLEN | COUNT | SYM0 | SYM1 | SYM2 | SYM3
  | CODE_LO | CODE_HI | CODELEN | NLEAF | QLEN | TOTAL_LO | TOTAL_HI | MAXLEN
  deriving DecidableEq, Repr

/-- `off(REG)` (R21, R88). -/
def Reg.off : Reg → Nat
  | .ID => 0x00
  | .CAP => 0x04
  | .LEAFMAX => 0x08
  | .STATUS => 0x0C
  | .CMD => 0x10
  | .ARG => 0x14
  | .SYMLEN => 0x18
  | .COUNT => 0x1C
  | .SYM0 => 0x20
  | .SYM1 => 0x24
  | .SYM2 => 0x28
  | .SYM3 => 0x2C
  | .CODE_LO => 0x30
  | .CODE_HI => 0x34
  | .CODELEN => 0x38
  | .NLEAF => 0x3C
  | .QLEN => 0x40
  | .TOTAL_LO => 0x44
  | .TOTAL_HI => 0x48
  | .MAXLEN => 0x4C

/-- `wr REG, value` (R88). -/
def wr (r : Reg) (v : Word) : Event := .write r.off 4 v

/-- `rd REG` (R88). -/
def rd (r : Reg) : Event := .read r.off 4

/-- `cmd MNEMONIC` (R88). -/
def cmd (i : Instr) : Event := .write Reg.CMD.off 4 (encode i)

/-- `pack(s, j)` (R89): bytes 4j to 4j+3 of the symbol, little-endian, 0 beyond its end. -/
def packWord (sym : List Byte) (j : Nat) : Word :=
  (sym.getD (4 * j + 3) 0 ++ sym.getD (4 * j + 2) 0 ++ sym.getD (4 * j + 1) 0 ++ sym.getD (4 * j) 0 : BitVec (8 + 8 + 8 + 8))

/-- `wait` (R89): `rd STATUS` repeated until bit 0 (`BUSY`) reads 0. -/
def waitIdle : List Event := [.poll]

/-- `do OP` (R89). -/
def doCmd (i : Instr) : List Event := cmd i :: waitIdle

/-- `leaf "s", c` (R89). -/
def leafLine (sym : List Byte) (c : Word) : List Event :=
  [wr .SYM0 (packWord sym 0), wr .SYM1 (packWord sym 1), wr .SYM2 (packWord sym 2), wr .SYM3 (packWord sym 3),
    wr .SYMLEN (BitVec.ofNat 32 sym.length), wr .COUNT c] ++ doCmd .leafPush

/-- `push code, len` (R89). -/
def pushLine (code : Code) (len : Word) : List Event :=
  [wr .CODE_LO (code.extractLsb' 0 32), wr .CODE_HI (code.extractLsb' 32 32), wr .CODELEN len] ++ doCmd .push

/-- `pushleaf i` (R89). -/
def pushLeafLine (i : Word) : List Event := wr .ARG i :: doCmd .pushLeaf

/-- `readleaf i` (R89). -/
def readLeafLine (i : Word) : List Event :=
  wr .ARG i :: doCmd .leafRead ++
    [rd .SYMLEN, rd .COUNT, rd .SYM0, rd .SYM1, rd .SYM2, rd .SYM3, rd .CODE_LO, rd .CODE_HI, rd .CODELEN]

/-- `check` (R89): a read of `STATUS`; the expectation that `ERR` is 0 has no bus effect. -/
def checkLine : List Event := [rd .STATUS]

end Sys2Proof.Machine
end

