-- ==== Sys2Proof/Tests/Slice0.lean ====
section
/-! SUPPORT. Tests: the checks that refuse, the command words, at most two single steps per command (expected values from
95_test_vectors.md), and for every obligation with hypotheses a state and operands that meet them. -/

namespace Sys2Proof.Tests

open Sys2Proof Sys2Proof.Machine

/-! ### The checks refuse (R8, R9, R64) -/

theorem test_wf_reference : Config.reference.wf = true := by decide
theorem test_wf_refuses_small_accumulator : ({ accCap := 63, leafMax := 131072 } : Config).wf = false := by decide
theorem test_wf_refuses_few_leaves : ({ accCap := 64, leafMax := 100000 } : Config).wf = false := by decide
theorem test_wf_refuses_many_leaves : ({ accCap := 64, leafMax := 2 ^ 32 } : Config).wf = false := by decide
theorem test_access_refuses_width : accessOk 0x10 2 = false := by decide
theorem test_access_refuses_unaligned : accessOk 0x12 4 = false := by decide
theorem test_access_refuses_outside : accessOk 0x100 4 = false := by decide

/-! ### Command words (R80, R81, R83): `OP` in bits [7:0], bits [31:8] all 0 -/

theorem test_word_nop : decode 0b00000000000000000000000000000000#32 = .ok .nop := by rfl
theorem test_word_clear : decode 0b00000000000000000000000000000001#32 = .ok .clear := by rfl
theorem test_word_leafPush : decode 0b00000000000000000000000000010000#32 = .ok .leafPush := by rfl
theorem test_word_build : decode 0b00000000000000000000000000010001#32 = .ok .build := by rfl
theorem test_word_leafRead : decode 0b00000000000000000000000000010010#32 = .ok .leafRead := by rfl
theorem test_word_assign : decode 0b00000000000000000000000000100000#32 = .ok .assign := by rfl
theorem test_word_serialize : decode 0b00000000000000000000000000110000#32 = .ok .serialize := by rfl
theorem test_word_deserialize : decode 0b00000000000000000000000000110001#32 = .ok .deserialize := by rfl
theorem test_word_push : decode 0b00000000000000000000000001000000#32 = .ok .push := by rfl
theorem test_word_pushLeaf : decode 0b00000000000000000000000001000001#32 = .ok .pushLeaf := by rfl
theorem test_word_flush : decode 0b00000000000000000000000001000010#32 = .ok .flush := by rfl
theorem test_word_decode : decode 0b00000000000000000000000001010000#32 = .ok .decode := by rfl
/-- V-C5: `CLEAR` with `RSV` ≠ 0 is not `CLEAR`. -/
theorem test_word_reserved : decode 0x00000101#32 = .error .reservedNonzero := by rfl
/-- V-C1. -/
theorem test_word_undefined : decode 0x00000005#32 = .error .undefinedOpcode := by rfl

/-! ### Small states -/

/-- A core on which this command has just been started. -/
def started (i : Instr) (s : State) : State := { s with cur := encode i, prog := .start }

/-- The state after this command; the state itself if the command stops. -/
def after (i : Instr) (s : State) : State :=
  match exec i (started i s) with
  | .next t => t
  | _ => s

/-- The same state with these operand registers. -/
def withRegs (r : Operands) (s : State) : State := { s with regs := r }

/-- `LEAF_PUSH` of this symbol and count (R89). -/
def pushed (sym : List Byte) (count : Word) (s : State) : State :=
  after .leafPush (withRegs { Operands.zero with
    symlen := BitVec.ofNat 8 sym.length, count := count
    sym0 := packWord sym 0, sym1 := packWord sym 1, sym2 := packWord sym 2, sym3 := packWord sym 3 } s)

/-- The leaves of V-B6: "A"/3, ""/1. -/
def twoLeaves : State := pushed [] 1 (pushed [0x41#8] 3 State.reset)

/-- The leaves of V-B2: a/1, b/1, c/1. -/
def threeLeaves : State := pushed [0x63#8] 1 (pushed [0x62#8] 1 (pushed [0x61#8] 1 State.reset))

/-- The tree of V-B6. -/
def built : State := after .build twoLeaves

/-- The tree of V-B6 with its codes. -/
def coded : State := after .assign built

/-- The tree of V-B6: ("", "A"). -/
def tree2 : Tree := .node 2 (.leaf 1 []) (.leaf 0 [0x41#8])

/-- With these bytes on `IN`. -/
def fed (bytes : List Byte) (ended : Bool) (s : State) : State := { s with inp := { taken := [], avail := bytes, ended := ended } }

/-- With a sink that accepts so many bytes. -/
def sink (room : Option Nat) (s : State) : State := { s with out := { bytes := [], room := room } }

/-- `DESERIALIZE` waits for its first byte. -/
def waitingForInput : State := after .deserialize State.reset

/-- `BUILD` has failed (V-B7). -/
def failedBuild : State := after .build State.reset

/-! ### One step per command, against 95_test_vectors.md -/

/-- V-C6. -/
theorem test_nop_keeps_status : (after .nop built).statusWord = 0x00000004#32 := by decide
/-- V-C8. -/
theorem test_clear_after_failed_build : (after .clear failedBuild).statusWord = 0x00000000#32 ∧ (after .clear failedBuild).nleaf = 0 := by
  decide
/-- V-C9. -/
theorem test_clear_loses_pending_bits :
    (after .clear { State.reset with acc := 0b101, pend := 3 }).pend = 0 ∧
      (after .clear { State.reset with acc := 0b101, pend := 3 }).out.bytes = [] := by decide
/-- V-B8. -/
theorem test_leafPush_too_long :
    (after .leafPush (withRegs { Operands.zero with symlen := 17 } State.reset)).statusWord = 0x00000402#32 := by decide
/-- V-B9. -/
theorem test_leafPush_after_build : (after .leafPush built).statusWord = 0x00000906#32 := by decide
/-- V-B2: c is left of (a, b), and the root's count is 3. -/
theorem test_build_three :
    (nodeAt (after .build threeLeaves).nodes 4).left = some 2 ∧ (nodeAt (after .build threeLeaves).nodes 4).right = some 3 ∧
      (after .build threeLeaves).regValue 0x44 = 3 := by decide
/-- V-B7. -/
theorem test_build_one_leaf : (after .build (pushed [] 1 State.reset)).statusWord = 0x00000102#32 := by decide
/-- V-B11. -/
theorem test_leafRead_before_build :
    ((after .leafRead (pushed [0x71#8] 7 State.reset)).regs.symlen, (after .leafRead (pushed [0x71#8] 7 State.reset)).regs.sym0,
      (after .leafRead (pushed [0x71#8] 7 State.reset)).regs.count, (after .leafRead (pushed [0x71#8] 7 State.reset)).regs.codelen) =
      (1#8, 0x00000071#32, 7#32, 0#8) := by decide
/-- V-B12. -/
theorem test_leafRead_out_of_range :
    (after .leafRead (withRegs { Operands.zero with arg := 5 } coded)).statusWord = 0x00000B0E#32 := by decide
/-- V-B6: "" = 0 and "A" = 1, each 1 bit. -/
theorem test_assign_two :
    (nodeAt coded.nodes 1).code = 0#64 ∧ (nodeAt coded.nodes 1).clen = 1 ∧ (nodeAt coded.nodes 0).code = 1#64 ∧
      (nodeAt coded.nodes 0).clen = 1 ∧ coded.regValue 0x4C = 1#32 := by decide
/-- V-A2. -/
theorem test_assign_without_tree : (after .assign State.reset).statusWord = 0x00000902#32 := by decide
/-- V-B6. -/
theorem test_serialize_two : (after .serialize built).out.bytes = [0xFF#8, 0x00#8, 0x01#8, 0x41#8] := by decide
/-- V-B2. -/
theorem test_serialize_three :
    (after .serialize (after .build threeLeaves)).out.bytes =
      [0xFF#8, 0x01#8, 0x63#8, 0xFF#8, 0x01#8, 0x61#8, 0x01#8, 0x62#8] := by decide
/-- V-T2: `99` stays unread. -/
theorem test_deserialize_two :
    (after .deserialize (fed [0xFF#8, 0x01#8, 0x41#8, 0x00#8, 0x99#8] true State.reset)).statusWord = 0x00000004#32 ∧
      (after .deserialize (fed [0xFF#8, 0x01#8, 0x41#8, 0x00#8, 0x99#8] true State.reset)).inp.avail = [0x99#8] := by decide
/-- V-T5: the byte after the illegal length byte is not read. -/
theorem test_deserialize_illegal_length :
    (after .deserialize (fed [0xFF#8, 0x14#8, 0x00#8] true State.reset)).statusWord = 0x00000402#32 ∧
      (after .deserialize (fed [0xFF#8, 0x14#8, 0x00#8] true State.reset)).inp.taken = [0xFF#8, 0x14#8] := by decide
/-- V-P4. -/
theorem test_push_64 :
    (after .push (withRegs { Operands.zero with codeLo := 0x9ABCDEF0, codeHi := 0x12345678, codelen := 64 } State.reset)).out.bytes =
      [0x12#8, 0x34#8, 0x56#8, 0x78#8, 0x9A#8, 0xBC#8, 0xDE#8, 0xF0#8] := by decide
/-- V-P11. -/
theorem test_push_across_bytes :
    (after .push (withRegs { Operands.zero with codeLo := 0xABC, codelen := 12 } { State.reset with acc := 1, pend := 1 })).out.bytes =
        [0xD5#8] ∧
      (after .push (withRegs { Operands.zero with codeLo := 0xABC, codelen := 12 } { State.reset with acc := 1, pend := 1 })).acc =
        0b11100 := by decide
/-- V-B6's "A" has the code 1 (R161). -/
theorem test_pushLeaf_one : (after .pushLeaf coded).pend = 1 ∧ (after .pushLeaf coded).acc = 1 := by decide
/-- V-P17. -/
theorem test_pushLeaf_without_codes : (after .pushLeaf built).errcode = 9#4 := by decide
/-- V-P14. -/
theorem test_flush_three : (after .flush { State.reset with acc := 0b101, pend := 3 }).out.bytes = [0xA0#8] := by decide
/-- V-P13. -/
theorem test_flush_empty : (after .flush State.reset).out.bytes = [] := by decide
/-- V-D2: three times "A", the padding ignored, the next byte unread. -/
theorem test_decode_three :
    (after .decode (fed [0xE5#8, 0x80#8] true built)).out.bytes = [0x41#8, 0x41#8, 0x41#8] ∧
      (after .decode (fed [0xE5#8, 0x80#8] true built)).statusWord = 0x00000014#32 ∧
      (after .decode (fed [0xE5#8, 0x80#8] true built)).inp.taken = [0xE5#8] := by decide
/-- V-D2: the input ends before the sentinel. -/
theorem test_decode_ends_early :
    (after .decode (fed [0xFF#8] true built)).statusWord = 0x00000506#32 ∧
      (after .decode (fed [0xFF#8] true built)).out.bytes.length = 8 := by decide
/-- V-C7: a `CMD` write while a command waits is dropped. -/
theorem test_step_drops_word :
    step { waitingForInput with events := [cmd .nop] } = .next { waitingForInput with events := [], drop := true } := by rfl
/-- P4, line 5: the host's `wait` reads 1 while the command waits, and the source's bytes come before the rest of the host's program. -/
theorem test_wait_polls :
    step { waitingForInput with events := [.poll, cmd .build, .deliver [0xFF#8, 0x14#8]] } =
      .next { waitingForInput with events := [.deliver [0xFF#8, 0x14#8], .poll, cmd .build], reads := [1#32] } := by rfl
/-- P4, line 7: the `wait` ends when `BUSY` reads 0. -/
theorem test_wait_ends :
    step { State.reset with events := [.poll, cmd .build] } = .next { State.reset with events := [cmd .build], reads := [0#32] } := by rfl
/-- V-C10: `CAP` and `LEAFMAX` after reset. -/
theorem test_reset_constants :
    State.reset.regValue 0x04 = 0x00404010#32 ∧ State.reset.regValue 0x08 = 0x00020000#32 ∧ State.reset.statusWord = 0 := by decide
/-- R89's `pack` and R28: byte 1 of "ab". -/
theorem test_pack : packWord [0x61#8, 0x62#8] 0 = 0x00006261#32 := by decide

/-! ### Witnesses: states of safe runs -/

theorem inv_reset : Inv State.reset :=
  inv_of_cleared (by decide) rfl rfl rfl rfl rfl rfl rfl rfl rfl rfl rfl rfl rfl rfl

theorem inv_started {i : Instr} {s : State} (h : Inv s) (hp : s.prog = .idle) (he : s.err = false) : Inv (started i s) :=
  h.cmdStart hp (.inl he)

theorem inv_after {i : Instr} {s : State} (h : Inv s) (hp : s.prog = .idle) (he : s.err = false) : Inv (after i s) := by
  obtain ⟨t, ht, hi⟩ := exec_inv (i := i) (inv_started (i := i) h hp he) rfl he
  simpa only [after, ht] using hi

theorem inv_withRegs {r : Operands} {s : State} (h : Inv s) : Inv (withRegs r s) := h.envMove rfl
theorem inv_fed {bs : List Byte} {e : Bool} {s : State} (h : Inv s) : Inv (fed bs e s) := h.envMove rfl
theorem inv_sink {n : Option Nat} {s : State} (h : Inv s) : Inv (sink n s) := h.envMove rfl

theorem inv_pushed {sym : List Byte} {count : Nat} {s : State} (h : Inv s) (hp : s.prog = .idle) (he : s.err = false) :
    Inv (pushed sym count s) := inv_after (inv_withRegs h) hp he

theorem inv_twoLeaves : Inv twoLeaves := inv_pushed (inv_pushed inv_reset rfl rfl) (by decide) (by decide)
theorem inv_built : Inv built := inv_after inv_twoLeaves (by decide) (by decide)
theorem inv_coded : Inv coded := inv_after inv_built (by decide) (by decide)
theorem inv_waitingForInput : Inv waitingForInput := inv_after inv_reset rfl rfl
theorem inv_failedBuild : Inv failedBuild := inv_after inv_reset rfl rfl

theorem built_hasTree : built.HasTree tree2 where
  root := by decide
  holds := ⟨⟨nodeAt built.nodes 2, by decide, by decide, by decide, by decide⟩,
    ⟨nodeAt built.nodes 1, by decide, by decide, by decide⟩, ⟨nodeAt built.nodes 0, by decide, by decide, by decide⟩⟩
  nodes := by decide
  leaves := by decide

theorem coded_hasTree : coded.HasTree tree2 where
  root := by decide
  holds := ⟨⟨nodeAt coded.nodes 2, by decide, by decide, by decide, by decide⟩,
    ⟨nodeAt coded.nodes 1, by decide, by decide, by decide⟩, ⟨nodeAt coded.nodes 0, by decide, by decide, by decide⟩⟩
  nodes := by decide
  leaves := by decide

/-- The right spine of V-A3 with `k` internal nodes. -/
def spine : Nat → Tree
  | 0 => .leaf 0 []
  | k + 1 => .node 0 (.leaf 0 [0x41#8]) (spine k)

/-- A state that holds a tree, its nodes in pre-order. -/
def holding (T : Tree) : State :=
  { State.reset with nodes := T.records 0, leaves := (T.renumber 0).leafIdx, nint := T.internals, root := some 0, tree := true }

theorem spine_depth : ∀ k b, ((spine k).renumber b).depth = k
  | 0, _ => rfl
  | k + 1, b => by simp [spine, Tree.renumber, Tree.depth, spine_depth k]

theorem holding_hasTree (T : Tree) : (holding T).HasTree (T.renumber 0) :=
  readTree_hasTree (s := State.reset) rfl rfl T (holding T) rfl rfl rfl

/-! ### Witnesses: for each obligation with hypotheses, a state and operands that meet them -/

/-- Boundaries of every illegal range. -/
theorem witness_IllegalWordsRaise_words :
    ∀ w ∈ [0x00000100#32, 0xFFFFFF00#32, 0x02#32, 0x0F#32, 0x13#32, 0x1F#32, 0x21#32, 0x2F#32, 0x32#32, 0x3F#32, 0x43#32, 0x4F#32,
        0x51#32, 0xFF#32],
      (w.toNat / 2 ^ 8 ≠ 0 ∨
        (0x02 ≤ w.toNat % 2 ^ 8 ∧ w.toNat % 2 ^ 8 ≤ 0x0F) ∨ (0x13 ≤ w.toNat % 2 ^ 8 ∧ w.toNat % 2 ^ 8 ≤ 0x1F) ∨
        (0x21 ≤ w.toNat % 2 ^ 8 ∧ w.toNat % 2 ^ 8 ≤ 0x2F) ∨ (0x32 ≤ w.toNat % 2 ^ 8 ∧ w.toNat % 2 ^ 8 ≤ 0x3F) ∨
        (0x43 ≤ w.toNat % 2 ^ 8 ∧ w.toNat % 2 ^ 8 ≤ 0x4F) ∨ (0x51 ≤ w.toNat % 2 ^ 8 ∧ w.toNat % 2 ^ 8 ≤ 0xFF)) := by simp

theorem witness_IllegalWordsRaise_state :
    let s := { State.reset with events := [.write 0x10 4 0x05#32] }
    s.prog = .idle ∧ s.err = false ∧ s.stalled = false ∧ s.events = .write 0x10 4 0x05#32 :: [] := by decide

theorem witness_StepRunsCommandWord :
    let s := { State.reset with events := [cmd .build] }
    decode 0x11#32 = .ok .build ∧ s.prog = .idle ∧ s.err = false ∧ s.stalled = false ∧ s.events = .write 0x10 4 0x11#32 :: [] :=
  ⟨rfl, rfl, rfl, rfl, rfl⟩

theorem witness_StepRunsCommandWord_clear :
    let s := { failedBuild with events := [cmd .clear] }
    decode 0x01#32 = .ok .clear ∧ s.prog = .idle ∧ s.err = true ∧ s.stalled = false ∧ s.events = .write 0x10 4 0x01#32 :: [] :=
  ⟨rfl, rfl, rfl, rfl, rfl⟩

theorem witness_StepRunsPlacedWord :
    decodeTableWord 32 0x50 = some .decode ∧ State.reset.prog = .idle ∧ State.reset.err = false := by decide

theorem witness_Acceptance_busy :
    let s := { waitingForInput with events := [cmd .nop] }
    s.coreMoves = false ∧ s.busy = true ∧ s.events = .write 0x10 4 0#32 :: [] := by decide

theorem witness_Acceptance_discarded :
    let s := { failedBuild with events := [cmd .build] }
    s.coreMoves = false ∧ s.busy = false ∧ s.err = true ∧ (0x11#32 : Word) ≠ 0x00000001#32 ∧
      s.events = .write 0x10 4 0x11#32 :: [] := by decide

theorem witness_Acceptance_stalled :
    let s := { State.reset with events := [cmd .build], stalled := true }
    s.coreMoves = false ∧ s.busy = false ∧ s.err = false ∧ s.stalled = true ∧ s.events = .write 0x10 4 0x11#32 :: [] := by decide

theorem witness_Acceptance_clear :
    let s := { failedBuild with events := [cmd .clear] }
    s.coreMoves = false ∧ s.busy = false ∧ s.err = true ∧ s.stalled = false ∧ s.events = .write 0x10 4 0x00000001#32 :: [] := by decide

theorem witness_ExecutionOfAcceptedWord :
    let s := started .push State.reset
    let t := { State.reset with cur := 0x05#32, prog := .start }
    (s.prog = .start ∧ s.stalled = false ∧ decode s.cur = .ok .push ∧ phaseOk .push s = true) ∧
      (t.prog = .start ∧ t.stalled = false ∧ decode t.cur = .error .undefinedOpcode) ∧
      decode (started .assign State.reset).cur = .ok .assign ∧ phaseOk .assign (started .assign State.reset) = false :=
  ⟨⟨rfl, rfl, rfl, rfl⟩, ⟨rfl, rfl, rfl⟩, rfl, rfl⟩

theorem witness_IdleCoreHoldsState :
    let s := { built with events := [rd .STATUS] }
    s.prog = .idle ∧ s.events = .read 0x0C 4 :: [] ∧ Event.read 0x0C 4 ≠ .reset ∧ built.events = [] ∧ ∃ t, step s = .next t :=
  ⟨by decide, by decide, by decide, by decide, _, rfl⟩

/-- Moves that change the operand registers, the input port, the output port, the model's stall, and none of them. -/
theorem witness_IdleCoreHoldsState_moves :
    ∀ e ∈ [wr .ARG 1#32, .deliver [0x41#8], .connectOut, .stall true, .poll],
      e ≠ .reset ∧ (∀ width data, e ≠ .write 0x10 width data) ∧ ∃ t, step { built with events := [e] } = .next t := by
  simp only [List.forall_mem_cons, List.not_mem_nil, false_imp_iff, implies_true, and_true]
  exact ⟨⟨by decide, by simp [wr, Reg.off], _, rfl⟩, ⟨by decide, by simp, _, rfl⟩, ⟨by decide, by simp, _, rfl⟩, ⟨by decide, by simp, _, rfl⟩,
    by decide, by simp, _, rfl⟩

theorem witness_WaitingCommandStandsStill_in :
    (∃ frames want, waitingForInput.prog = .deser frames want) ∧ waitingForInput.events = [] ∧ waitingForInput.inp.avail = [] ∧
      waitingForInput.inp.ended = false ∧
      let d := after .decode built
      ((∃ n, d.prog = .decode n []) ∧ d.ubits = 0) ∧ d.events = [] ∧ d.inp.avail = [] ∧ d.inp.ended = false :=
  ⟨⟨[], .marker, by decide⟩, by decide, by decide, by decide, ⟨⟨2, by decide⟩, by decide⟩, by decide, by decide, by decide⟩

theorem witness_WaitingCommandStandsStill_out :
    (∃ bytes, (after .serialize (sink (some 0) built)).prog = .emit bytes) ∧ (after .serialize (sink (some 0) built)).out.room = some 0 ∧
      (after .push (withRegs { Operands.zero with codelen := 8 } (sink (some 0) State.reset))).prog = .pack ∧
      (after .flush { sink (some 0) State.reset with pend := 7 }).prog = .flush ∧
      ∃ n b bytes, (after .decode (fed [0x80#8] false (sink (some 0) built))).prog = .decode n (b :: bytes) :=
  ⟨⟨[0xFF#8, 0x00#8, 0x01#8, 0x41#8], by decide⟩, by decide, by decide, by decide, 2, 0x41#8, [], by decide⟩

/-- A byte, the end-marker or room has come for each waiting command; in the third state `DECODE` has a bit left. -/
theorem witness_WaitingCommandStandsStill_ready :
    (let s := fed [0xFF#8] false waitingForInput
     s.stalled = false ∧ (∃ frames want, s.prog = .deser frames want) ∧ s.inp.avail ≠ []) ∧
      (let s := fed [] true (after .decode built)
       s.stalled = false ∧ (∃ n, s.prog = .decode n []) ∧ s.inp.ended = true) ∧
      (let s := { after .decode built with ubits := 1 }
       s.stalled = false ∧ (∃ n, s.prog = .decode n []) ∧ 0 < s.ubits) ∧
      (let s := sink (some 1) (after .serialize (sink (some 0) built))
       s.stalled = false ∧ (∃ bytes, s.prog = .emit bytes) ∧ s.out.room ≠ some 0) ∧
      (let s := sink none (after .push (withRegs { Operands.zero with codelen := 8 } (sink (some 0) State.reset)))
       s.stalled = false ∧ s.prog = .pack ∧ s.out.room ≠ some 0) ∧
      (let s := sink none (after .flush { sink (some 0) State.reset with pend := 7 })
       s.stalled = false ∧ s.prog = .flush ∧ s.out.room ≠ some 0) ∧
      (let s := sink (some 1) (after .decode (fed [0x80#8] false (sink (some 0) built)))
       s.stalled = false ∧ (∃ n b bytes, s.prog = .decode n (b :: bytes)) ∧ s.out.room ≠ some 0) :=
  ⟨⟨by decide, ⟨[], .marker, by decide⟩, by decide⟩, ⟨by decide, ⟨2, by decide⟩, by decide⟩, ⟨by decide, ⟨2, by decide⟩, by decide⟩,
    ⟨by decide, ⟨[0xFF#8, 0x00#8, 0x01#8, 0x41#8], by decide⟩, by decide⟩, by decide, by decide,
    ⟨by decide, ⟨2, 0x41#8, [], by decide⟩, by decide⟩⟩

theorem witness_HostReads :
    let s := { State.reset with events := [.read 0 4] }
    let t := { started .clear State.reset with stalled := true, events := [.read 0x3C 4] }
    (s.coreMoves = false ∧ s.events = .read 0 4 :: [] ∧ s.unsettled 0 = false ∧ s.unsettled 0xFC = false) ∧
      (t.coreMoves = false ∧ t.events = .read 0x3C 4 :: [] ∧ t.unsettled 0x3C = true) := by decide

theorem witness_HostReads_wait :
    (let s := { State.reset with events := [.poll, cmd .nop] }
     s.coreMoves = false ∧ s.events = .poll :: [cmd .nop] ∧ (s.regValue 0x0C).getLsbD 0 = false) ∧
      (let s := { waitingForInput with events := [.poll, cmd .nop] }
       s.coreMoves = false ∧ s.events = .poll :: [cmd .nop] ∧ (s.regValue 0x0C).getLsbD 0 = true ∧ ∀ e ∈ [cmd .nop], e.ofHost = true) ∧
      (let s := { waitingForInput with events := [.poll, cmd .nop, .endInput, .reset] }
       s.coreMoves = false ∧ s.events = .poll :: ([cmd .nop] ++ .endInput :: [.reset]) ∧ (s.regValue 0x0C).getLsbD 0 = true ∧
         (∀ e ∈ [cmd .nop], e.ofHost = true) ∧ Event.endInput.ofHost = false) := by decide

theorem witness_AccessOutsideInterfaceRefused :
    let s := { State.reset with events := [.read 0x100 4] }
    let t := { State.reset with events := [.write 0x0E 4 0#32] }
    s.coreMoves = false ∧ s.events = .read 0x100 4 :: [] ∧ t.coreMoves = false ∧ t.events = .write 0x0E 4 0#32 :: [] ∧
      (3 : Nat) ≠ 4 := by decide

theorem witness_ConstantRegisters :
    State.reset.cfg.accCap = 64 ∧ State.reset.cfg.wf = true ∧ State.reset.cfg = Config.reference := by decide

theorem witness_StatusFields :
    let s := { State.reset with pend := 127, ubits := 15 }
    s.pend < 2 ^ 7 ∧ s.ubits < 2 ^ 4 := by decide

theorem witness_InformationRegisters :
    (Inv twoLeaves ∧ twoLeaves.prog = .idle ∧ twoLeaves.tree = false ∧ twoLeaves.codes = false) ∧
      Inv coded ∧ coded.tree = true ∧ coded.codes = true :=
  ⟨⟨inv_twoLeaves, by decide, by decide, by decide⟩, inv_coded, by decide, by decide⟩

theorem witness_OperandRegisters_write :
    let s := { State.reset with events := [wr .ARG 1#32] }
    let t := { State.reset with events := [wr .CODELEN 1#32] }
    let u := { State.reset with events := [.write 0x3C 4 1#32] }
    let v := { State.reset with events := [.write 0x0C 4 1#32] }
    let b := { waitingForInput with events := [wr .ARG 1#32] }
    (s.coreMoves = false ∧ s.busy = false ∧ s.events = .write 0x14 4 1#32 :: []) ∧
      (t.coreMoves = false ∧ t.busy = false ∧ t.events = .write 0x38 4 1#32 :: []) ∧
      (u.coreMoves = false ∧ u.busy = false ∧ u.events = .write 0x3C 4 1#32 :: []) ∧
      (v.coreMoves = false ∧ v.busy = false ∧ v.events = .write 0x0C 4 1#32 :: []) ∧
      (b.coreMoves = false ∧ b.busy = true ∧ b.events = .write 0x14 4 1#32 :: []) := by decide

theorem witness_OperandRegisters_command :
    (∃ t, exec .push (started .push State.reset) = .next t) ∧ waitingForInput.prog ≠ .start ∧ (∃ t, resume waitingForInput = .next t) ∧
      State.reset.busy = false :=
  ⟨⟨_, rfl⟩, by decide, ⟨_, rfl⟩, by decide⟩

theorem witness_Reset :
    let s := { waitingForInput with events := [.reset] }
    s.coreMoves = false ∧ s.events = .reset :: [] := by decide

theorem witness_ResetAndClearDiffer :
    let s := { waitingForInput with events := [cmd .clear] }
    let t := { built with events := [cmd .clear] }
    (s.coreMoves = false ∧ s.busy = true ∧ s.events = .write 0x10 4 0x00000001#32 :: []) ∧
      (t.coreMoves = false ∧ t.busy = false ∧ t.stalled = false ∧ t.events = .write 0x10 4 0x00000001#32 :: []) := by decide

theorem witness_PhasePreconditions :
    (∀ i ∈ [Instr.assign, .serialize, .decode, .pushLeaf], phaseOk i State.reset = false) ∧
      (∀ i ∈ [Instr.leafPush, .build, .deserialize], phaseOk i built = false) ∧ phaseOk .deserialize twoLeaves = false ∧
      phaseOk .build State.reset = true ∧ State.reset.err = false ∧ ∃ t, exec .build State.reset = .next t ∧ t.err = true :=
  ⟨by decide, by decide, by decide, by decide, by decide, _, rfl, by decide⟩

theorem witness_ErrorCodes :
    (State.reset.err = false ∧ ∃ t, exec .build State.reset = .next t ∧ t.err = true) ∧
      let s := fed [] true waitingForInput
      s.err = false ∧ s.prog ≠ .start ∧ ∃ t, resume s = .next t ∧ t.err = true :=
  ⟨⟨by decide, _, rfl, by decide⟩, by decide, by decide, _, rfl, by decide⟩

theorem witness_OnlyClearAndResetLeaveError :
    let s := { failedBuild with events := [.reset] }
    s.err = true ∧ ∃ t, step s = .next t ∧ t.err = false := ⟨by decide, _, rfl, by decide⟩

theorem witness_ErrorCodeHolds :
    Inv failedBuild ∧ failedBuild.err = true ∧ failedBuild.busy = false ∧ ∃ t, step failedBuild = .next t ∧ t.err = true :=
  ⟨inv_failedBuild, by decide, by decide, _, rfl, by decide⟩

/-- Each command answers a next state somewhere; with `CLEAR` from a tree, `ASSIGN` from no codes and `BUILD` without an error. -/
theorem witness_CommandFrame :
    (∀ i : Instr, ∃ t, exec i State.reset = .next t) ∧ (∃ t, exec .clear built = .next t ∧ built.tree = true ∧ t.tree = false) ∧
      (∃ t, exec .assign built = .next t ∧ t.codes = true ∧ built.codes = false) ∧ ∃ t, exec .build twoLeaves = .next t ∧ t.err = false :=
  ⟨by intro i; cases i <;> exact ⟨_, rfl⟩, ⟨_, rfl, by decide, by decide⟩, ⟨_, rfl, by decide, by decide⟩, _, rfl, by decide⟩

theorem witness_LeafPush :
    built.tree = true ∧ State.reset.tree = false ∧ 16 < (withRegs { Operands.zero with symlen := 17 } State.reset).regs.symlen.toNat ∧
      (withRegs { Operands.zero with symlen := 16 } State.reset).regs.symlen.toNat ≤ 16 ∧
      State.reset.leaves.length ≠ State.reset.cfg.leafMax ∧
      let full := { State.reset with cfg := { accCap := 64, leafMax := 0 } }
      full.tree = false ∧ full.regs.symlen.toNat ≤ 16 ∧ full.leaves.length = full.cfg.leafMax := by decide

theorem witness_ExtractMinLeast :
    twoLeaves.q ≠ [] ∧
      ∀ a ∈ twoLeaves.q, ∀ b ∈ twoLeaves.q, (nodeAt twoLeaves.nodes a).seq = (nodeAt twoLeaves.nodes b).seq → a = b := by decide

theorem witness_BuildLoop :
    built.tree = true ∧ (pushed [] 1 State.reset).tree = false ∧ (pushed [] 1 State.reset).q.length < 2 ∧ twoLeaves.tree = false ∧
      twoLeaves.q.length = 2 ∧ threeLeaves.tree = false ∧ 2 < threeLeaves.q.length := by decide

theorem witness_BuildCompletes : twoLeaves.tree = false ∧ 2 ≤ twoLeaves.q.length := by decide

theorem witness_BuiltTreeProperties :
    Inv (started .build twoLeaves) ∧ (started .build twoLeaves).prog = .start ∧ (started .build twoLeaves).tree = false ∧
      2 ≤ (started .build twoLeaves).leaves.length :=
  ⟨inv_started inv_twoLeaves (by decide) (by decide), by decide, by decide, by decide⟩

/-- `twoLeaves` with later sequence numbers, and old codes in its records. -/
def aged : State :=
  { twoLeaves with
    nodes := twoLeaves.nodes.map fun nd => { nd with seq := nd.seq + 5, code := 3, clen := 2 }
    nextSeq := twoLeaves.nextSeq + 5 }

theorem inv_aged : Inv aged :=
  { inv_twoLeaves with
    records := by
      intro nd h
      obtain ⟨x, hx, rfl⟩ := List.mem_map.mp h
      have := inv_twoLeaves.records x hx
      exact ⟨this.sym, this.leafCount, this.count, by show 2 ≤ codeMax; decide⟩
    store := by
      rw [if_neg (by decide)]
      exact ⟨by decide, ⟨by decide, by decide, by decide, by decide, by decide, by decide⟩⟩ }

/-- The same leaves with other sequence numbers, codes and operand registers. -/
theorem witness_BuildDependsOnPushSequence :
    let s := started .build twoLeaves
    let u := started .build (withRegs Operands.zero aged)
    Inv s ∧ Inv u ∧ s.prog = .start ∧ u.prog = .start ∧ s.tree = false ∧ u.tree = false ∧
      (s.nodes.map fun nd => (nd.sym, nd.count)) = (u.nodes.map fun nd => (nd.sym, nd.count)) ∧
      s.nodes.map Node.seq ≠ u.nodes.map Node.seq ∧ s.nodes.map Node.code ≠ u.nodes.map Node.code ∧
      (∃ t, exec .build s = .next t) ∧ ∃ t, exec .build u = .next t :=
  ⟨inv_started inv_twoLeaves (by decide) (by decide), inv_started (inv_withRegs inv_aged) (by decide) (by decide), by decide,
    by decide, by decide, by decide, by decide, by decide, by decide, ⟨_, rfl⟩, _, rfl⟩

theorem witness_LeafRead_outOfRange :
    let s := withRegs { Operands.zero with arg := 2 } coded
    s.leaves.length ≤ s.regs.arg.toNat := by decide

theorem witness_LeafRead :
    let s := withRegs { Operands.zero with arg := 1 } coded
    s.leaves[s.regs.arg.toNat]? = some 1 ∧ s.nodes[1]? = some (nodeAt coded.nodes 1) ∧ NodeOk (nodeAt coded.nodes 1) ∧
      (nodeAt coded.nodes 1).kind = .leaf ∧ s.codes = true ∧ twoLeaves.codes = false :=
  ⟨by decide, by decide, ⟨by decide, by decide, by decide, by decide⟩, by decide, by decide, by decide⟩

/-- V-A3 at k = 64. -/
theorem witness_AssignGivesPathCodes :
    (holding (spine 64)).tree = true ∧ (holding (spine 64)).HasTree ((spine 64).renumber 0) ∧ ((spine 64).renumber 0).depth ≤ 64 :=
  ⟨rfl, holding_hasTree _, by rw [spine_depth]⟩

/-- V-A3 at k = 65. -/
theorem witness_AssignOverflow :
    (holding (spine 65)).tree = true ∧ (holding (spine 65)).HasTree ((spine 65).renumber 0) ∧ 64 < ((spine 65).renumber 0).depth :=
  ⟨rfl, holding_hasTree _, by rw [spine_depth]; decide⟩

theorem witness_PrefixFreeCodes :
    let s := started .assign built
    Inv s ∧ s.prog = .start ∧ s.err = false ∧ ∃ t, exec .assign s = .next t ∧ t.err = false ∧ 0 ∈ t.leaves ∧ 1 ∈ t.leaves :=
  ⟨inv_started inv_built (by decide) (by decide), by decide, by decide, _, rfl, by decide, by decide, by decide⟩

theorem witness_TwoLeafCodes :
    let s := started .build twoLeaves
    Inv s ∧ s.prog = .start ∧ s.err = false ∧ s.tree = false ∧ s.q = [0, 1] :=
  ⟨inv_started inv_twoLeaves (by decide) (by decide), by decide, by decide, by decide, by decide⟩

theorem witness_Serialize :
    State.reset.tree = false ∧ built.tree = true ∧ built.HasTree tree2 ∧ built.out.room = none ∧
      (sink (some 4) built).out.room = some 4 ∧ tree2.ser.length ≤ 4 ∧ (sink (some 3) built).out.room = some 3 ∧ 3 < tree2.ser.length :=
  ⟨by decide, by decide, built_hasTree, by decide, by decide, by decide, by decide, by decide⟩

/-- `DESERIALIZE` has just been started on a core with these bytes on `IN`. -/
def reading (bytes : List Byte) (ended : Bool) : State := started .deserialize (fed bytes ended State.reset)

theorem inv_reading (bytes : List Byte) (ended : Bool) : Inv (reading bytes ended) :=
  inv_started (inv_fed inv_reset) rfl rfl

theorem reading_ready (bytes : List Byte) (ended : Bool) :
    (reading bytes ended).prog = .start ∧ (reading bytes ended).err = false ∧ phaseOk .deserialize (reading bytes ended) = true ∧
      (reading bytes ended).inp.avail = bytes ∧ (reading bytes ended).inp.ended = ended := ⟨rfl, rfl, rfl, rfl, rfl⟩

theorem witness_DeserializeReadsTree :
    Inv (reading (tree2.ser ++ [0x99#8]) false) ∧ tree2.isNode = true ∧ tree2.symbolsFit = true ∧
      tree2.leafIdx.length ≤ (reading (tree2.ser ++ [0x99#8]) false).cfg.leafMax :=
  ⟨inv_reading _ _, by decide, by decide, by decide⟩

theorem witness_DeserializeMalformed :
    Inv (reading (List.replicate 2 0xFF#8 ++ 0x11#8 :: [0x00#8]) false) ∧
      Inv (reading (0xFF#8 :: ((Tree.leaf 0 []).ser ++ 0xFE#8 :: [0x00#8])) false) ∧
      Inv (reading (BitVec.ofNat 8 [0x61#8].length :: ([0x61#8] ++ [0x00#8])) false) ∧
      Inv (reading (List.replicate State.reset.cfg.leafMax 0xFF#8 ++ [0x00#8]) false) ∧
      2 < State.reset.cfg.leafMax ∧ 0x11 ≤ (0x11#8).toNat ∧ (0xFE#8).toNat ≤ 0xFE ∧ (Tree.leaf 0 []).symbolsFit = true ∧
      (Tree.leaf 0 []).leafIdx.length < State.reset.cfg.leafMax :=
  ⟨inv_reading _ _, inv_reading _ _, inv_reading _ _, inv_reading _ _, by decide, by decide, by decide, by decide, by decide⟩

theorem witness_DeserializeTruncatedOrWaiting :
    (Inv (reading [0xFF#8, 0x00#8, 0x01#8] true) ∧ Inv (reading [] false)) ∧
      tree2.ser = [0xFF#8, 0x00#8, 0x01#8] ++ [0x41#8] ∧ tree2.ser = [] ++ tree2.ser ∧ tree2.ser ≠ [] ∧ tree2.symbolsFit = true ∧
      tree2.leafIdx.length ≤ State.reset.cfg.leafMax :=
  ⟨⟨inv_reading _ _, inv_reading _ _⟩, by decide, by decide, by decide, by decide, by decide⟩

theorem witness_DeserializeErrorState :
    (Inv (reading [0xFE#8] false) ∧ (reading [0xFE#8] false).cur = 0x00000031#32 ∧
      ∃ t, resume (reading [0xFE#8] false) = .next t ∧ t.err = true) ∧
      Inv (fed [0xFE#8] false waitingForInput) ∧ (∃ frames want, (fed [0xFE#8] false waitingForInput).prog = .deser frames want) ∧
      ∃ t, resume (fed [0xFE#8] false waitingForInput) = .next t ∧ t.err = true :=
  ⟨⟨inv_reading _ _, by decide, _, rfl, by decide⟩, inv_fed inv_waitingForInput, ⟨[], .marker, by decide⟩, _, rfl, by decide⟩

theorem witness_CodecRoundTrip :
    let s := started .serialize built
    Inv s ∧ s.prog = .start ∧ s.err = false ∧ s.tree = true ∧ s.HasTree tree2 ∧ s.out.room = none ∧
      ∃ a, exec .assign s = .next a ∧ a.err = false :=
  ⟨inv_started inv_built (by decide) (by decide), by decide, by decide, by decide, built_hasTree.congr rfl rfl rfl, by decide, _, rfl,
    by decide⟩

theorem witness_SerializedFormSelfDelimiting : tree2.symbolsFit = true ∧ tree2.ser <+: tree2.ser := by decide

/-- A core about to push a code of this length, with so many bits pending. -/
def pushing (len : BitVec 8) (acc pend : Nat) : State :=
  { withRegs { Operands.zero with codelen := len } State.reset with acc := acc, pend := pend }

theorem witness_Push :
    64 < (pushing 65 0 0).regs.codelen.toNat ∧
      ((pushing 64 1 1).regs.codelen.toNat ≤ 64 ∧ (pushing 64 1 1).cfg.accCap < (pushing 64 1 1).pend + (pushing 64 1 1).regs.codelen.toNat) ∧
      ((pushing 57 127 7).regs.codelen.toNat ≤ 64 ∧
        (pushing 57 127 7).pend + (pushing 57 127 7).regs.codelen.toNat ≤ (pushing 57 127 7).cfg.accCap ∧
        (pushing 57 127 7).acc < 2 ^ (pushing 57 127 7).pend ∧ (pushing 57 127 7).out.room = none) := by decide

theorem witness_PushLeaf :
    built.codes = false ∧
      (let s := withRegs { Operands.zero with arg := 2 } coded
       s.codes = true ∧ s.leaves.length ≤ s.regs.arg.toNat) ∧
      (let s := withRegs { Operands.zero with arg := 1 } coded
       s.codes = true ∧ s.leaves[s.regs.arg.toNat]? = some 1 ∧ s.nodes[1]? = some (nodeAt coded.nodes 1) ∧
         s.pend + (nodeAt coded.nodes 1).clen ≤ s.cfg.accCap ∧ s.acc < 2 ^ s.pend ∧ s.out.room = none) ∧
      (let s := { coded with pend := 64 }
       s.cfg.accCap < s.pend + (nodeAt s.nodes 1).clen) := by decide

theorem witness_CapacityCheckReachability :
    (∃ t, exec .push (pushing 58 127 7) = .next t ∧ t.err = true ∧ (pushing 58 127 7).cfg.accCap = 64) ∧
      (∃ t, exec .push (pushing 57 127 7) = .next t ∧ t.err = false) ∧
      (∃ t, exec .push { pushing 64 127 7 with cfg := { accCap := 71, leafMax := 131072 } } = .next t ∧ t.err = false) ∧
      (∃ t, exec .pushLeaf coded = .next t ∧ coded.codes = true ∧ coded.leaves[coded.regs.arg.toNat]? = some 0 ∧
        coded.nodes[0]? = some (nodeAt coded.nodes 0) ∧ coded.pend ≤ 7 ∧ coded.err = false) :=
  ⟨⟨_, rfl, by decide, by decide⟩, ⟨_, rfl, by decide⟩, ⟨_, rfl, by decide⟩, _, rfl, by decide, by decide, by decide, by decide, by decide⟩

theorem witness_Flush :
    State.reset.pend = 0 ∧ State.reset.out.room = none ∧
      let s := { State.reset with acc := 127, pend := 7 }
      s.pend ≤ 7 ∧ 0 < s.pend ∧ s.out.room = none := by decide

/-- The leaf of index 0, then an explicit code. -/
theorem witness_StreamLaw :
    coded.pend = 0 ∧ coded.acc = 0 ∧ coded.out.room = none ∧ ∃ codes t, Packs codes coded t ∧ codes.length = 2 :=
  ⟨by decide, by decide, by decide, _, _,
    .leaf 0#32 0 (nodeAt coded.nodes 0) _ _ _ _ (by decide) (by decide) rfl (by decide) (by decide)
      (.push 5#64 3#8 _ _ _ _ rfl (by decide) (by decide) (.none _)), rfl⟩

/-- On V-B6's tree: "A" (bit 1), the sentinel (bit 0) and six padding bits are the byte `80`; the sentinel alone and seven
padding bits are the byte `00`. The next byte stays unread. -/
theorem witness_DecodeFollowsPaths :
    let s := fed ([0x80#8] ++ [0x99#8]) false built
    s.tree = true ∧ s.HasTree tree2 ∧ tree2.isNode = true ∧ s.ubits ≤ 8 ∧ s.out.room = none ∧
      (∀ e ∈ [(0, [0x41#8], [true])], e ∈ tree2.entries ∧ e.2.1 ≠ []) ∧ (1, [], [false]) ∈ tree2.entries ∧
      s.unreadBits ++ streamBits [0x80#8] = entryPaths [(0, [0x41#8], [true])] ++ [false] ++ List.replicate 6 false ∧
      s.unreadBits ++ streamBits [0x00#8] = entryPaths [] ++ [false] ++ List.replicate 7 false ∧
      s.inp.avail = [0x80#8] ++ [0x99#8] :=
  ⟨by decide, built_hasTree.congr rfl rfl rfl, by decide, by decide, by decide, by decide, by decide, by decide, by decide, by decide⟩

/-- V-D2's `FF`: eight times "A", nothing left of the walk; and V-A3's tree, one bit into a longer path. -/
theorem witness_DecodeOutOfBits :
    (let s := fed [0xFF#8] true built
     s.tree = true ∧ s.HasTree tree2 ∧ s.ubits ≤ 8 ∧ s.out.room = none ∧
       (∀ e ∈ List.replicate 8 (0, [0x41#8], [true]), e ∈ tree2.entries ∧ e.2.1 ≠ []) ∧
       (∃ e ∈ tree2.entries, [] <+: e.2.2 ∧ [] ≠ e.2.2) ∧
       s.unreadBits ++ streamBits s.inp.avail = entryPaths (List.replicate 8 (0, [0x41#8], [true])) ++ []) ∧
      (let s := { fed [] false (holding (spine 2)) with ubits := 1, ubyte := 1 }
       s.HasTree ((spine 2).renumber 0) ∧ (∃ e ∈ ((spine 2).renumber 0).entries, [true] <+: e.2.2 ∧ [true] ≠ e.2.2) ∧
         s.unreadBits ++ streamBits s.inp.avail = entryPaths [] ++ [true]) :=
  ⟨⟨by decide, built_hasTree.congr rfl rfl rfl, by decide, by decide, by decide, ⟨(0, [0x41#8], [true]), by decide, by decide, by decide⟩,
    by decide⟩, (holding_hasTree _).congr rfl rfl rfl, ⟨(3, [0x41#8], [true, false]), by decide, by decide, by decide⟩, by decide⟩

/-- V-B6's tree: the code of "A" and then the sentinel's, flushed, are the byte `80`. -/
theorem witness_DecodeInvertsEncode :
    Inv coded ∧ coded.prog = .idle ∧ coded.codes = true ∧ coded.HasTree tree2 ∧ coded.pend = 0 ∧ coded.out.room = none ∧
      (∀ k ∈ [0], k ∈ coded.leaves ∧ (nodeAt coded.nodes k).sym ≠ []) ∧ 1 ∈ coded.leaves ∧ (nodeAt coded.nodes 1).sym = [] ∧
      (∃ f g, Packs ([0].map (codeBits coded.nodes) ++ [codeBits coded.nodes 1]) coded f ∧ exec .flush f = .next g ∧
        g.out.bytes = coded.out.bytes ++ [0x80#8]) ∧
      let d := fed ([0x80#8] ++ []) true built
      d.tree = true ∧ d.HasTree tree2 ∧ tree2.sameShape tree2 = true ∧ d.ubits = 0 ∧ d.out.room = none ∧ d.inp.avail = [0x80#8] ++ [] :=
  ⟨inv_coded, by decide, by decide, coded_hasTree, by decide, by decide, by decide, by decide, by decide,
    ⟨_, _, .leaf 0#32 0 (nodeAt coded.nodes 0) _ _ _ _ (by decide) (by decide) rfl (by decide) (by decide)
      (.leaf 1#32 1 (nodeAt coded.nodes 1) _ _ _ _ (by decide) (by decide) rfl (by decide) (by decide) (.none _)), rfl, by decide⟩,
    by decide, built_hasTree.congr rfl rfl rfl, by decide, by decide, by decide, by decide⟩

theorem witness_SourcePaceIrrelevant :
    (State.reset.inp.ended = false ∧ ∃ t, exec .deserialize State.reset = .next t ∧ t.busy = true) ∧
      built.inp.ended = false ∧ ∃ t, exec .decode built = .next t ∧ t.busy = true :=
  ⟨⟨by decide, _, rfl, by decide⟩, by decide, _, rfl, by decide⟩

theorem witness_SinkPaceIrrelevant :
    (∃ t, exec .serialize (sink (some 2) built) = .next t ∧ t.busy = true) ∧
      (∃ t, exec .push (sink (some 1) (pushing 64 0 0)) = .next t ∧ t.busy = true) ∧
      ∃ t, exec .decode (fed [0xC0#8] false (sink (some 1) built)) = .next t ∧ t.busy = true :=
  ⟨⟨_, rfl, by decide⟩, ⟨_, rfl, by decide⟩, _, rfl, by decide⟩

/-- With any event to come: `DESERIALIZE` waits, an idle core whose source has ended, `DECODE` waits, `SERIALIZE` waits. -/
theorem witness_StreamsMoveForward_moves (events : List Event) :
    (let s := { waitingForInput with events := events }
     s.coreMoves = false ∧ s.events = events ∧ s.inp.ended = false ∧ s.busy = true ∧ s.cur = 0x00000031#32) ∧
      (let s := { fed [] true State.reset with events := events }
       s.coreMoves = false ∧ s.events = events ∧ s.inp.ended = true ∧ s.busy = false ∧
         ¬ (s.busy = true ∧ (s.cur = 0x00000031#32 ∨ s.cur = 0x00000050#32))) ∧
      (let s := { after .decode built with events := events }
       s.coreMoves = false ∧ s.events = events ∧ s.busy = true ∧ s.cur = 0x00000050#32) ∧
      (let s := { after .serialize (sink (some 0) built) with events := events }
       s.coreMoves = false ∧ s.events = events ∧ ¬ (s.busy = true ∧ (s.cur = 0x00000031#32 ∨ s.cur = 0x00000050#32))) :=
  ⟨⟨rfl, rfl, rfl, rfl, rfl⟩, ⟨rfl, rfl, rfl, rfl, fun h => absurd h.1 (by show ¬ (false = true); decide)⟩, ⟨rfl, rfl, rfl, rfl⟩,
    rfl, rfl, fun h => absurd h.2 (by show ¬ ((0x00000030#32 : Word) = 0x00000031#32 ∨ (0x00000030#32 : Word) = 0x00000050#32); decide)⟩

theorem witness_StreamsMoveForward :
    (∃ t, step { State.reset with events := [.rewind] } = .next t) ∧ (∃ t, step { State.reset with events := [.connectOut] } = .next t) ∧
      ∃ t, step (reading [0xFF#8] false) = .next t :=
  ⟨⟨_, rfl⟩, ⟨_, rfl⟩, _, rfl⟩

theorem witness_StepKeepsCurrentWord :
    waitingForInput.curNamesCommand = true ∧ ∃ t, step waitingForInput = .next t := ⟨by decide, _, rfl⟩

theorem witness_PhaseInvariants :
    (Inv twoLeaves ∧ twoLeaves.busy = false ∧ twoLeaves.err = false ∧ twoLeaves.tree = false) ∧
      Inv coded ∧ coded.busy = false ∧ coded.err = false ∧ coded.tree = true ∧ coded.codes = true :=
  ⟨⟨inv_twoLeaves, by decide, by decide, by decide⟩, inv_coded, by decide, by decide, by decide, by decide⟩

theorem witness_EveryCommandCompletes (i : Instr) :
    Inv (started i (fed [] true coded)) ∧ (started i (fed [] true coded)).prog = .start ∧ (started i (fed [] true coded)).err = false ∧
      (started i (fed [] true coded)).inp.ended = true ∧ (started i (fed [] true coded)).out.room = none :=
  ⟨inv_started (inv_fed inv_coded) (by decide) (by decide), rfl, by show coded.err = false; decide, rfl, by show coded.out.room = none; decide⟩

theorem witness_StepKeepsInvariant : Inv State.reset ∧ ∃ t, step State.reset = .next t := ⟨inv_reset, _, rfl⟩

theorem witness_NoFaultFromInvariant : Inv coded := inv_coded

end Sys2Proof.Tests
end

/-! SUPPORT. The invariant along every step (R35 to R42): each move of a safe run is answered by a state of a safe run or refused. -/

namespace Sys2Proof.Machine

/-- A word offered to `CMD` is answered by a next state of a safe run, whether dropped, discarded, held or executed (R200). -/
theorem offerCommand_inv {s : State} (w : Word) (h : Inv s) : ∃ t, offerCommand w s = .next t ∧ Inv t := by
  cases hb : s.busy with
  | true => exact ⟨_, offerCommand_busy w hb, h.envMove rfl⟩
  | false =>
    have hidle := (busy_eq_false_iff s).mp hb
    by_cases hok : s.err = false ∨ w = encode .clear
    · have hstart := h.cmdStart hidle hok
      rw [offerCommand_accepted hb hok]
      split
      · exact ⟨_, rfl, hstart⟩
      · exact runCur_inv hstart rfl
    · simp only [not_or, Bool.not_eq_false] at hok
      obtain ⟨herr, hw⟩ := hok
      exact ⟨s, offerCommand_discarded hb herr hw, h⟩

/-- A move of the environment keeps the invariant (R64, R67 to R69, R230). -/
theorem handle_inv {e : Event} {s t : State} (h : Inv s) (ht : handle e s = .next t) : Inv t := by
  by_cases hr : e = .reset
  · subst hr
    cases ht
    exact coreReset_inv h
  by_cases hc : ∃ width data, e = .write 0x10 width data
  · obtain ⟨width, data, rfl⟩ := hc
    obtain ⟨u, hu, hinv⟩ := offerCommand_inv data h
    rw [(handle_cmd_any ht).2] at hu
    cases hu
    exact hinv
  · exact h.envMove (by rw [handle_other hr (fun width data he => hc ⟨width, data, he⟩) ht])

/-- A move of the environment is no fault: only a command raises one, and a `CMD` write of a safe run is answered (log 15). -/
theorem handle_ne_fault {e : Event} {s : State} (h : Inv s) (r : Fault) : handle e s ≠ .fault r := by
  cases e with
  | write off width data =>
    obtain ⟨t, ht, -⟩ := offerCommand_inv data h
    simp only [handle, memWrite, ht]
    split_ifs <;> simp
  | poll => simp [handle_poll]
  | read | deliver | rewind | connectIn | connectOut => simp only [handle]; split_ifs <;> simp
  | endInput | sinkRoom | stall | reset => simp [handle]

/-- Settles O59: the engine's move keeps the invariant (`resume_inv`), and so does each move of the environment. -/
theorem stepKeepsInvariant : Obligations.StepKeepsInvariant := by
  intro s t h ht
  rcases step_cases ht with ⟨-, hres⟩ | ⟨-, -, rfl⟩ | ⟨-, e, rest, -, hev⟩
  · obtain ⟨u, hu, hinv⟩ := resume_inv h
    rw [hres] at hu
    cases hu
    exact hinv
  · exact h
  · exact handle_inv (h.envMove rfl) hev

/-- Settles O60: from a state of a safe run the engine answers a next state, and no move of the environment faults. -/
theorem noFaultFromInvariant : Obligations.NoFaultFromInvariant := by
  intro s h r
  cases hc : s.coreMoves with
  | true =>
    obtain ⟨t, ht, -⟩ := resume_inv h
    rw [step_core hc, ht]
    simp
  | false =>
    cases he : s.events with
    | nil => rw [step_quiet hc he]; simp
    | cons e rest =>
      rw [step_event hc he]
      exact handle_ne_fault (h.envMove rfl) r

/-- A tree whose root is an internal node has at least two leaves (R42(b)). -/
theorem Tree.two_le_leafIdx_length (T : Tree) (h : T.isNode = true) : 2 ≤ T.leafIdx.length := by
  cases T with
  | leaf k sym => simp [Tree.isNode] at h
  | node k l r =>
    have hl := l.indices_length
    have hr := r.indices_length
    simp only [Tree.leafIdx, List.length_append]
    omega

/-- Settles O56: an idle core reads no tree, so the store is the leaves alone or one whole tree (R42). -/
theorem phaseInvariants : Obligations.PhaseInvariants := by
  intro s h hb _
  have hp := (busy_eq_false_iff s).mp hb
  have hstore := h.storeOk (by simp [hp, Progress.plain])
  unfold StoreOk at hstore
  refine ⟨fun ht => ?_, fun ht => ?_, h.codesTree, h.unreadTree, h.pendIdle (by simp [hp])⟩
  · simp only [ht, Bool.false_eq_true, if_false] at hstore
    obtain ⟨hroot, hleaves⟩ := hstore
    refine ⟨hroot, hleaves.nint, by simp [hleaves.leaves], hleaves.q, ?_, ?_⟩
    · simpa [ht] using h.codesTree
    · simpa [ht] using h.eosTree
  · simp only [ht, if_true] at hstore
    obtain ⟨hq, hnint, T, hT, hnode, -, -⟩ := hstore
    exact ⟨hq, hnint, hT.leaves.length_eq ▸ T.two_le_leafIdx_length hnode, T, hT, hnode⟩

end Sys2Proof.Machine

/-! SUPPORT. `STATUS`, the constants and the operand functions (R22 to R28), the step that takes a word (R102, R200) and the least
key (R37). -/

namespace Sys2Proof.Machine

/-! ### The fields of STATUS (R22) -/

/-- A bit of a word, read off its value. -/
theorem getLsbD_of_toNat {w : Word} {i : Nat} {b : Bool} (h : w.toNat / 2 ^ i % 2 = b.toNat) : w.getLsbD i = b := by
  rw [← BitVec.testBit_toNat, Nat.testBit_eq_decide_div_mod_eq, h]
  cases b <;> rfl

/-- A bit field of a word, as a number. -/
theorem toNat_extractLsb'_eq (w : Word) (start len : Nat) : (w.extractLsb' start len).toNat = w.toNat / 2 ^ start % 2 ^ len := by
  rw [BitVec.extractLsb'_toNat, Nat.shiftRight_eq_div_pow]

/-- The flags of `STATUS` are bits, `ERRCODE` a nibble (R22). -/
theorem status_flags_le (s : State) :
    (s.busy.toNat ≤ 1 ∧ s.err.toNat ≤ 1 ∧ s.tree.toNat ≤ 1) ∧ (s.codes.toNat ≤ 1 ∧ s.eos.toNat ≤ 1 ∧ s.drop.toNat ≤ 1) ∧
      s.errcode.toNat < 16 :=
  ⟨⟨s.busy.toNat_le, s.err.toNat_le, s.tree.toNat_le⟩, ⟨s.codes.toNat_le, s.eos.toNat_le, s.drop.toNat_le⟩, s.errcode.isLt⟩

/-- `STATUS` as a number, while `PEND` and `UBITS` fit their fields (R22): the sum of the fields at their places. -/
theorem status_toNat (s : State) (hp : s.pend < 2 ^ 7) (hu : s.ubits < 2 ^ 4) :
    (s.regValue 0x0C).toNat =
      s.busy.toNat + s.err.toNat * 2 + s.tree.toNat * 4 + s.codes.toNat * 8 + s.eos.toNat * 16 + s.drop.toNat * 32 +
        s.errcode.toNat * 256 + s.pend * 65536 + s.ubits * 16777216 := by
  have hflags := status_flags_le s
  show s.statusWord.toNat = _
  simp only [State.statusWord, flagAt, BitVec.toNat_ofNat, Nat.mod_eq_of_lt hp, Nat.mod_eq_of_lt hu]
  omega

/-- Settles O13: each field is a digit of the sum that `STATUS` is. -/
theorem statusFields : Obligations.StatusFields := by
  intro s hp hu
  have hflags := status_flags_le s
  have hval := status_toNat s hp hu
  refine ⟨getLsbD_of_toNat ?_, getLsbD_of_toNat ?_, getLsbD_of_toNat ?_, getLsbD_of_toNat ?_, getLsbD_of_toNat ?_,
    getLsbD_of_toNat ?_, BitVec.eq_of_toNat_eq ?_, BitVec.eq_of_toNat_eq ?_, BitVec.eq_of_toNat_eq ?_, ?_, getLsbD_of_toNat ?_, ?_,
    BitVec.eq_of_toNat_eq ?_⟩ <;>
    simp only [toNat_extractLsb'_eq, hval, Bool.toNat_false, BitVec.ofNat_eq_ofNat, BitVec.toNat_ofNat, Nat.zero_mod] <;> omega

/-! ### Constants and operands (R23 to R25, R28) -/

/-- `CAP` as a number (R24). -/
theorem cap_toNat (s : State) : (s.regValue 0x04).toNat = 16 + 64 * 2 ^ 8 + min s.cfg.accCap 255 * 2 ^ 16 := by
  show (capWord s.cfg).toNat = _
  simp only [capWord, maxSymbolLen, codeMax, BitVec.toNat_ofNat]
  omega

/-- No command writes a register below `STATUS`, so none of them reads as a free value (R23 to R25, R27(d)). -/
theorem unsettled_constant (s : State) {off : Nat} (h : off < 0x0C) : s.unsettled off = false := by
  unfold State.unsettled
  cases decode s.cur with
  | error => simp
  | ok i => cases i <;> simp [resultRegs] <;> omega

/-- Settles O12: the three registers are functions of the parameters alone. -/
theorem constantRegisters : Obligations.ConstantRegisters := by
  intro s
  have hcap := cap_toNat s
  refine ⟨rfl, by omega, by omega, by omega, by omega, fun h => ?_, fun h => ?_, fun h => ?_,
    unsettled_constant s (by omega), unsettled_constant s (by omega), unsettled_constant s (by omega)⟩
  · apply BitVec.eq_of_toNat_eq
    rw [hcap, h]
    rfl
  · simp only [Config.wf, Bool.and_eq_true, decide_eq_true_eq] at h
    show (BitVec.ofNat 32 s.cfg.leafMax).toNat = s.cfg.leafMax
    rw [BitVec.toNat_ofNat]
    omega
  · show leafMaxWord s.cfg = _
    rw [h]
    rfl

/-- `SYM(j)` is the register of that number (R28). -/
theorem symReg_eq_getD (r : Operands) {j : Nat} (h : j < 4) : r.symReg j = [r.sym0, r.sym1, r.sym2, r.sym3].getD j 0 := by
  interval_cases j <;> rfl

/-- Settles O16: `symbyte` is a slice of its symbol register, `code_op` a concatenation. -/
theorem operandAssembly : Obligations.OperandAssembly := by
  intro r
  refine ⟨fun i hi j hj => ?_, rfl, rfl, ?_, rfl, rfl⟩
  · rw [Operands.symbyte, symReg_eq_getD r (by omega), BitVec.getLsbD_extractLsb', decide_eq_true hj, Bool.true_and]
  · rw [Operands.codeOp, BitVec.toNat_append, Nat.shiftLeft_eq, Nat.mul_comm, ← Nat.two_pow_add_eq_or_of_lt r.codeLo.isLt]

/-! ### The placed word (log 12) -/

/-- An accepted word that decodes to a command runs as that command (R102). -/
theorem runCur_of_decode {s : State} {i : Instr} (h : decode s.cur = .ok i) : runCur s = exec i s := by
  rw [runCur, h]

/-- An idle core that is given time takes an acceptable word from `CMD` and executes it in the same step (R102, R200, logs 1, 3). -/
theorem step_runs_write {s : State} {w : Word} {rest : List Event} (hp : s.prog = .idle) (hok : s.err = false ∨ w = encode .clear)
    (hs : s.stalled = false) (he : s.events = .write 0x10 4 w :: rest) :
    step s = runCur { s with events := rest, cur := w, prog := .start } := by
  rw [step_event (coreMoves_idle hp) he, handle_cmd, offerCommand_accepted (s := { s with events := rest }) ((busy_eq_false_iff _).mpr hp) hok]
  simp [hs]

/-- Settles O5: the placed write reaches an idle core without an error, which accepts and runs the word in that step. -/
theorem stepRunsPlacedWord : Obligations.StepRunsPlacedWord := by
  intro s w i hw hp herr
  unfold decodeTableWord at hw
  split_ifs at hw with hfit
  obtain ⟨-, hlt⟩ := hfit
  have hdec : decode (BitVec.ofNat 32 w) = .ok i := by
    cases hd : decode (BitVec.ofNat 32 w) with
    | error e => simp [hd, Except.toOption] at hw
    | ok j => simpa [hd, Except.toOption] using hw
  have hplaced : (s.withFetchWord 32 w).events = .write 0x10 4 (BitVec.ofNat 32 w) :: s.events := by
    rw [State.withFetchWord, Nat.mod_eq_of_lt hlt]
    rfl
  rw [step_runs_write (s := s.withFetchWord 32 w) hp (.inl herr) rfl hplaced]
  exact runCur_of_decode hdec

/-! ### The least key (R37) -/

/-- Settles O27: the key order is antisymmetric, so a second least member has the same sequence number. -/
theorem extractMinLeast : Obligations.ExtractMinLeast := by
  intro s hne
  rcases extractMin_spec s with ⟨hq, -⟩ | ⟨k, hk, hleast, he⟩
  · exact absurd hq hne
  have hmin : ∀ j ∈ s.q, s.keyAtMost k j := fun j hj => (keyAt s k j).mp (hleast j hj)
  refine ⟨k, hk, he, hmin, fun hinj j hj hj' => hinj j hj k hk ?_⟩
  have hjk := hj' k hk
  have hkj := hmin j hj
  unfold State.keyAtMost at hjk hkj
  omega

end Sys2Proof.Machine

/-! SUPPORT. The information registers as views of a safe run's store (R29 to R32), and who writes the operand registers (R27). -/

namespace Sys2Proof.Machine

/-! ### The information registers (R29 to R32) -/

/-- `CMD` and every offset from 0x50 on read 0 (R26, R66). -/
theorem regValue_reserved (s : State) {off : Nat} (h : 0x50 ≤ off) : s.regValue off = 0 := by
  unfold State.regValue
  split
  any_goals omega
  rfl

/-- The size of `Q` in a safe run (R42): 0 with a tree or while one is read, else the number of leaves. -/
theorem Inv.q_eq {s : State} (h : Inv s) :
    (s.tree = true → s.q = []) ∧ (s.tree = false → s.prog.plain = true → s.q = s.leaves) ∧ s.q.length ≤ s.leaves.length := by
  have hstore := h.store
  cases ht : s.tree with
  | true =>
    rw [if_pos ht] at hstore
    simp [hstore.1]
  | false =>
    rw [if_neg (by simp [ht])] at hstore
    cases hp : s.prog.plain with
    | true =>
      have hleaves := h.storeOk hp
      simp only [StoreOk, ht, Bool.false_eq_true, if_false] at hleaves
      simp [hleaves.2.q]
    | false =>
      obtain ⟨fs, w, hd⟩ : ∃ fs w, s.prog = .deser fs w := by
        cases hs : s.prog <;> simp [hs, Progress.plain] at hp ⊢
      rw [hd] at hstore
      simp [hstore.2.1]

/-- Every index reads a record within the bounds, the blank one included (R35, log 16). -/
theorem nodeAt_ok {nodes : List Node} (h : ∀ nd ∈ nodes, NodeOk nd) (k : Nat) : NodeOk (nodeAt nodes k) := by
  by_cases hk : k < nodes.length
  · rw [nodeAt_of_some (List.getElem?_eq_getElem hk)]
    exact h _ (List.getElem_mem hk)
  · rw [nodeAt, List.getD_eq_default _ _ (Nat.le_of_not_lt hk)]
    exact ⟨by simp [Node.blank], by simp [Node.blank], by simp [Node.blank], by simp [Node.blank]⟩

/-- `TOTAL_HI` above `TOTAL_LO` is the 64-bit total (R31). -/
theorem total_halves (s : State) (h : s.total < 2 ^ 64) :
    (s.regValue 0x48).toNat * 2 ^ 32 + (s.regValue 0x44).toNat = s.total := by
  show ((BitVec.ofNat 64 s.total).extractLsb' 32 32).toNat * 2 ^ 32 + ((BitVec.ofNat 64 s.total).extractLsb' 0 32).toNat = s.total
  simp only [BitVec.extractLsb'_toNat, BitVec.toNat_ofNat, Nat.mod_eq_of_lt h, Nat.shiftRight_eq_div_pow]
  omega

/-- The root's count is the sum of the counts in `LEAVES` (R31, R114). -/
theorem TreeStands.root_count {s : State} (h : TreeStands s) :
    ∃ r, s.root = some r ∧ (nodeAt s.nodes r).count = (s.leaves.map fun k => (nodeAt s.nodes k).count).sum := by
  obtain ⟨-, -, T, hT, -, hsums, -⟩ := h
  exact ⟨T.idx, hT.root, hsums.count_eq.trans (hT.leaves.map _).sum_eq⟩

/-- `MAXLEN` with `CODES` = 1 (R32): a bound on every leaf's code length that one leaf attains. -/
theorem maxLen_attained {s : State} (hc : s.codes = true) (hne : s.leaves ≠ []) :
    (∀ k ∈ s.leaves, (nodeAt s.nodes k).clen ≤ s.maxLen) ∧ ∃ k ∈ s.leaves, (nodeAt s.nodes k).clen = s.maxLen := by
  rw [State.maxLen, if_pos hc]
  obtain ⟨hall, -, hatt⟩ := foldl_max_spec (s.leaves.map fun k => (nodeAt s.nodes k).clen) 0
  simp only [List.mem_map, forall_exists_index, and_imp, forall_apply_eq_imp_iff₂] at hall hatt
  refine ⟨hall, ?_⟩
  rcases hatt with h0 | hmem
  · obtain ⟨k, hk⟩ := List.exists_mem_of_ne_nil _ hne
    exact ⟨k, hk, Nat.le_antisymm (hall k hk) (by simp [h0])⟩
  · exact hmem

/-- Settles O14: each register is a view of the store, which the invariant bounds by the register's width. -/
theorem informationRegisters : Obligations.InformationRegisters := by
  intro s h
  obtain ⟨hqtree, hqleaves, hqle⟩ := h.q_eq
  have hparams := h.params
  have hcap := h.leafCap
  simp only [Config.wf, Bool.and_eq_true, decide_eq_true_eq] at hparams
  have hq : (s.regValue 0x40).toNat = s.q.length := by
    show (BitVec.ofNat 32 s.q.length).toNat = _
    rw [BitVec.toNat_ofNat]
    omega
  refine ⟨rfl, fun off => regValue_reserved s, ?_, hq, fun hp ht => ?_, fun ht => ?_, fun ht => ?_, fun ht => ?_, fun hc => ?_,
    fun hc => ?_⟩
  · show (BitVec.ofNat 32 s.leaves.length).toNat = _
    rw [BitVec.toNat_ofNat]
    omega
  · show BitVec.ofNat 32 s.q.length = BitVec.ofNat 32 s.leaves.length
    rw [hqleaves ht (by simp [hp, Progress.plain])]
  · exact BitVec.eq_of_toNat_eq (by simp [hq, hqtree ht])
  · simp [State.regValue, State.total, ht]
  · obtain ⟨r, hr, hsum⟩ := TreeStands.root_count (by simpa [ht] using h.store)
    have htotal : s.total = (nodeAt s.nodes r).count := by simp [State.total, ht, hr]
    exact ⟨r, hr, htotal ▸ total_halves s (htotal ▸ (nodeAt_ok h.records r).count), hsum⟩
  · simp [State.regValue, State.maxLen, hc]
  · have htree := h.codesTree hc
    obtain ⟨-, hnint, -⟩ : TreeStands s := by simpa [htree] using h.store
    obtain ⟨hall, k, hk, hatt⟩ := maxLen_attained hc (by rintro h0; simp [h0] at hnint)
    have hmax : (s.regValue 0x4C).toNat = s.maxLen := by
      have := (nodeAt_ok h.records k).clen
      show ((BitVec.ofNat 8 s.maxLen).setWidth 32).toNat = _
      simp only [codeMax] at this
      rw [BitVec.toNat_setWidth, BitVec.toNat_ofNat]
      omega
    exact hmax ▸ ⟨hall, k, hk, hatt⟩

/-! ### The operand registers (R27) -/

/-- A write to an offset that is no operand register's stores nothing (R27(b), R66). -/
theorem store_elsewhere (r : Operands) {off : Nat} (v : Word) (h : off < 0x14 ∨ 0x38 < off) : r.store off v = r := by
  unfold Operands.store
  split
  any_goals omega
  rfl

/-- A write to a register leaves every other offset's value (R27(a)). -/
theorem regValue_store_other (s : State) {off other : Nat} (v : Word) (h : other ≠ off) :
    { s with regs := s.regs.store off v }.regValue other = s.regValue other := by
  unfold Operands.store
  split <;> (unfold State.regValue; split)
  any_goals contradiction
  all_goals rfl

/-- A write to an operand register stores the word's defined bits there (R21, R27(a)). -/
theorem regValue_store_same (s : State) {off : Nat} (v : Word) (h4 : off % 4 = 0) (hlo : 0x14 ≤ off) (hhi : off ≤ 0x38) :
    ({ s with regs := s.regs.store off v }.regValue off).toNat =
      if off = 0x18 ∨ off = 0x38 then v.toNat % 2 ^ 8 else v.toNat := by
  obtain ⟨n, rfl⟩ := Nat.dvd_of_mod_eq_zero h4
  have h5 : 5 ≤ n := by omega
  have h14 : n ≤ 14 := by omega
  interval_cases n <;> simp [State.regValue, Operands.store]
  all_goals omega

/-- A host write to an offset other than `CMD`'s reaches the operand registers of an idle core, and nothing of a busy one (R27). -/
theorem step_write {s : State} {off : Nat} {v : Word} {rest : List Event} (hc : s.coreMoves = false)
    (he : s.events = .write off 4 v :: rest) (h4 : off % 4 = 0) (hlt : off < 0x100) (hne : off ≠ 0x10) :
    step s =
      if s.busy then .next { s with events := rest } else .next { s with events := rest, regs := s.regs.store off v } := by
  rw [step_event hc he, handle_write v h4 hlt, memWrite, if_neg (show off ≠ cmdOffset from hne)]
  rfl

/-- No command but `LEAF_READ` changes an operand register (R27(c)). -/
theorem exec_regs {i : Instr} {s t : State} (hi : i ≠ .leafRead) (h : exec i s = .next t) : t.regs = s.regs := by
  cases i with
  | nop => cases h; rfl
  | clear => cases h; rfl
  | leafPush => rw [execLeafPush_frame h]
  | build => rw [execBuild_frame h]
  | leafRead => exact absurd rfl hi
  | assign => rw [execAssign_frame h]
  | serialize => rw [execSerialize_frame h]
  | deserialize => rw [execDeserialize_frame h]
  | push => rw [execPush_frame h]
  | pushLeaf => rw [execPushLeaf_frame h]
  | flush => rw [flushRun_frame h]
  | decode => rw [execDecode_frame h]

/-- Settles O15: a write goes through `Operands.store`, a command through its frame. -/
theorem operandRegisters : Obligations.OperandRegisters := by
  refine ⟨fun s off v rest hc he h4 hlt hne => ?_, fun i s t hi h => exec_regs hi h, fun s t hp h => (resume_regs s t hp h).1,
    fun s off hb => by simp [State.unsettled, hb]⟩
  have hstep := step_write hc he h4 hlt hne
  refine ⟨fun hb => ?_, fun hb hout => ?_, fun hb hlo hhi => ?_⟩
  · rw [hstep, if_pos hb]
  · rw [hstep, if_neg (by simp [hb]), store_elsewhere _ _ hout]
  · rw [if_neg (by simp [hb])] at hstep
    exact ⟨_, hstep, regValue_store_same s v h4 hlo hhi, fun other => regValue_store_other s v⟩

end Sys2Proof.Machine

/-! SUPPORT. What each command leaves unchanged, and which way the flags can move (R205, R208). -/

namespace Sys2Proof.Machine

/-- Going on to `t` ended no error, and without a new one kept the error code (R208). -/
def ErrKept (s t : State) : Prop := t.err = false → s.err = false ∧ t.errcode = s.errcode

theorem ErrKept.of_eq {s t : State} (he : t.err = s.err) (hc : t.errcode = s.errcode) : ErrKept s t :=
  fun h => ⟨he ▸ h, hc⟩

theorem ErrKept.raise (e : Err) (s t : State) : ErrKept s (raise e t) := fun h => by simp at h

/-- `append` raises or keeps the error state (R160). -/
theorem append_errKept {c : Code} {len : Nat} {s t : State} (h : append c len s = .next t) : ErrKept s t := by
  unfold append at h
  split at h
  · cases h
    exact .raise _ s s
  · cases h
    obtain ⟨herr, hcode⟩ := packLoop_err (appendBits c len s).pend (appendBits c len s)
    exact .of_eq herr hcode

/-- The decoder's loop is what a waiting `DECODE` goes on with, so it keeps the error state as that does (R180, R208). -/
theorem decodeRun_errKept {n : Nat} {s t : State} (h : decodeRun n s = .next t) : ErrKept s t :=
  resume_err { s with prog := .decode n [] } t (by simp) ((decodeLoop_prog _ n s _).trans h)

/-- The deserializer's loop raises or keeps the error state, and never sets `CODES` (R141, R206). -/
theorem desLoop_flags (fuel : Nat) (fs : List Frame) (w : Want) {s t : State} (h : desLoop fuel fs w s = .next t) :
    ErrKept s t ∧ (t.codes = true → s.codes = true) := by
  induction fuel generalizing fs w s with
  | zero => cases h; exact ⟨.of_eq rfl rfl, id⟩
  | succ n ih =>
    rw [desLoop] at h
    split at h
    · cases h; exact ⟨.of_eq rfl rfl, id⟩
    · cases h; exact ⟨.raise _ _ _, by simp [desFail]⟩
    · rename_i b s1 hin
      have hin := inRead_frame hin
      have hbyte := desByte_frame b fs w s1
      cases hd : desByte b fs w s1 with
      | more fs1 w1 s2 =>
        rw [hd] at h hbyte
        have hrest := ih fs1 w1 h
        simp only [DesStep.state] at hbyte
        rw [hbyte, hin] at hrest
        exact hrest
      | done r s2 =>
        rw [hd] at h hbyte
        simp only [DesStep.state] at hbyte
        simp only [desDone] at h
        split at h
        · cases h
        split at h
        · cases h; exact ⟨.raise _ _ _, by simp [desFail]⟩
        · cases h
          rw [hbyte, hin]
          exact ⟨.of_eq rfl rfl, by simp⟩
      | fail e s2 =>
        rw [hd] at h
        cases h
        exact ⟨.raise _ _ _, by simp [desFail]⟩

/-- No command but `CLEAR` ends `ERR` = 1 or, without an error, changes `ERRCODE` (R205, R208). -/
theorem exec_errKept {i : Instr} {s t : State} (hi : i ≠ .clear) (h : exec i s = .next t) : ErrKept s t := by
  cases i with
  | nop => cases h; exact .of_eq rfl rfl
  | clear => exact absurd rfl hi
  | leafPush =>
    simp only [exec, execLeafPush] at h
    split_ifs at h <;> cases h
    · exact .raise _ s s
    · exact .raise _ s s
    · exact .raise _ s s
    · exact .of_eq rfl rfl
  | build =>
    simp only [exec] at h
    rcases execBuild_cases s with ⟨-, he⟩ | ⟨-, -, he⟩ | ⟨-, -, u, r, -, -, ⟨more, nint, seq, q, rfl, -⟩, he⟩ <;>
      rw [he] at h <;> cases h
    · exact .raise _ s s
    · exact .raise _ s s
    · exact .of_eq rfl rfl
  | leafRead =>
    simp only [exec, execLeafRead] at h
    split at h
    · cases h; exact .raise _ s s
    split at h <;> cases h
    exact .of_eq rfl rfl
  | assign =>
    simp only [exec, execAssign] at h
    split at h
    · cases h; exact .raise _ s s
    split at h
    · cases h
    split at h <;> cases h
    · exact .of_eq rfl rfl
    · exact .raise _ s _
  | serialize =>
    simp only [exec, execSerialize] at h
    split at h
    · cases h; exact .raise _ s s
    split at h
    · cases h
    split at h
    · cases h
    rw [emitBytes_frame h]
    exact .of_eq rfl rfl
  | deserialize =>
    simp only [exec, execDeserialize] at h
    split at h
    · cases h; exact .raise _ s s
    · exact (desLoop_flags _ _ _ h).1
  | push =>
    simp only [exec, execPush] at h
    split at h
    · cases h; exact .raise _ s s
    · exact append_errKept h
  | pushLeaf =>
    simp only [exec, execPushLeaf] at h
    split at h
    · cases h; exact .raise _ s s
    split at h
    · cases h; exact .raise _ s s
    split at h
    · cases h
    · exact append_errKept h
  | flush => rw [flushRun_frame h]; exact .of_eq rfl rfl
  | decode =>
    simp only [exec, execDecode] at h
    split at h
    · cases h; exact .raise _ s s
    split at h
    · cases h
    · exact decodeRun_errKept (s := { s with eos := false }) h

/-- `BUILD` ends no tree and assigns no code (R111). -/
theorem execBuild_treeCodes {s t : State} (h : execBuild s = .next t) :
    (s.tree = true → t.tree = true) ∧ (t.codes = true → s.codes = true) := by
  rcases execBuild_cases s with ⟨-, he⟩ | ⟨-, -, he⟩ | ⟨-, -, u, r, -, -, -, he⟩ <;> rw [he] at h <;> cases h
  · exact ⟨id, id⟩
  · exact ⟨id, id⟩
  · simp

/-- `DESERIALIZE` runs only without a tree, and assigns no code (R141, R203). -/
theorem execDeserialize_treeCodes {s t : State} (h : execDeserialize s = .next t) :
    (s.tree = true → t.tree = true) ∧ (t.codes = true → s.codes = true) := by
  unfold execDeserialize at h
  split at h
  · cases h; exact ⟨id, id⟩
  · rename_i hphase
    exact ⟨fun ht => by simp [ht] at hphase, (desLoop_flags _ _ _ h).2⟩

/-- `LEAF_READ` leaves `ARG` alone (R113). -/
theorem execLeafRead_arg {s t : State} (h : execLeafRead s = .next t) : t.regs.arg = s.regs.arg := by
  unfold execLeafRead at h
  split at h
  · cases h; rfl
  · split at h <;> cases h
    rfl

/-- Settles O25: each command moves only the fields its frame names; what of them still keeps a direction (`TREE`, `CODES`, `ERR`, `ARG`)
has its own lemma. -/
theorem commandFrame : Obligations.CommandFrame := by
  intro i s t h
  have herr : i ≠ .clear → ErrKept s t := fun hi => exec_errKept hi h
  unfold ErrKept at herr
  cases i with
  | nop => cases h; simp +contextual
  | clear => cases h; simp +contextual
  | leafPush => rw [execLeafPush_frame h]; simpa +contextual using herr
  | build =>
    have hflags := execBuild_treeCodes h
    rw [execBuild_frame h]
    simpa +contextual [hflags] using herr
  | leafRead =>
    have harg := execLeafRead_arg h
    rw [execLeafRead_frame h]
    simpa +contextual [harg] using herr
  | assign => rw [execAssign_frame h]; simpa +contextual using herr
  | serialize => rw [execSerialize_frame h]; simpa +contextual using herr
  | deserialize =>
    have hflags := execDeserialize_treeCodes h
    rw [execDeserialize_frame h]
    simpa +contextual [hflags] using herr
  | push => rw [execPush_frame h]; simpa +contextual using herr
  | pushLeaf => rw [execPushLeaf_frame h]; simpa +contextual using herr
  | flush => rw [flushRun_frame h]; simp +contextual
  | decode => rw [execDecode_frame h]; simpa +contextual using herr

end Sys2Proof.Machine

/-! SUPPORT. The word in `CUR` (R26, R34): how each command can stand after a move of the engine, and that `CUR` names it. -/

namespace Sys2Proof.Machine

/-- An ended command needs no word in `CUR`. -/
theorem curNamesCommand_idle {s : State} (h : s.prog = .idle) : s.curNamesCommand = true := by
  simp [State.curNamesCommand, h]

/-- `SERIALIZE` ends, or waits for the sink (R140). -/
theorem emitBytes_waits {bs : List Byte} {s t : State} (h : emitBytes bs s = .next t) :
    t.prog = .idle ∨ ∃ rest, t.prog = .emit rest := by
  unfold emitBytes at h
  split at h <;> cases h
  · exact .inl rfl
  · exact .inr ⟨_, rfl⟩

/-- The emission loop ends, or waits for the sink (R160). -/
theorem packLoop_waits (fuel : Nat) (s : State) : (packLoop fuel s).prog = .idle ∨ (packLoop fuel s).prog = .pack := by
  induction fuel generalizing s with
  | zero => exact .inl rfl
  | succ n ih =>
    rw [packLoop]
    split
    · split
      · exact .inr rfl
      · exact ih _
    · exact .inl rfl

/-- `FLUSH` ends, or waits for the sink (R162). -/
theorem flushRun_waits {s t : State} (h : flushRun s = .next t) : t.prog = .idle ∨ t.prog = .flush := by
  unfold flushRun at h
  split at h
  · cases h
  split at h
  · split at h <;> cases h
    · exact .inr rfl
    · exact .inl rfl
  · cases h; exact .inl rfl

/-- `DESERIALIZE` ends, or waits for the source (R141). -/
theorem desLoop_waits (fuel : Nat) (fs : List Frame) (w : Want) {s t : State} (h : desLoop fuel fs w s = .next t) :
    t.prog = .idle ∨ ∃ fs' w', t.prog = .deser fs' w' := by
  induction fuel generalizing fs w s with
  | zero => cases h; exact .inr ⟨_, _, rfl⟩
  | succ n ih =>
    rw [desLoop] at h
    split at h
    · cases h; exact .inr ⟨_, _, rfl⟩
    · cases h; exact .inl rfl
    split at h
    · exact ih _ _ h
    · unfold desDone at h
      split at h
      · cases h
      split at h <;> cases h <;> exact .inl rfl
    · cases h; exact .inl rfl

/-- `DECODE` ends, or waits for the source or the sink (R180). -/
theorem decodeLoop_waits (fuel n : Nat) {s t : State} (h : decodeLoop fuel n s = .next t) :
    t.prog = .idle ∨ ∃ m outs, t.prog = .decode m outs := by
  induction fuel generalizing n s with
  | zero => cases h; exact .inr ⟨_, _, rfl⟩
  | succ k ih =>
    rw [decodeLoop] at h
    split at h
    · cases h; exact .inr ⟨_, _, rfl⟩
    · cases h; exact .inl rfl
    split at h
    · cases h
    split at h
    · cases h
    split at h
    · exact ih _ h
    split at h
    · cases h; exact .inl rfl
    split at h
    · cases h
    dsimp only at h
    split at h
    · exact ih _ h
    · cases h; exact .inr ⟨_, _, rfl⟩

/-! Each loop's ends, read with `CUR`: the word stays, so whoever waits has its own word there. -/

theorem emitBytes_names {bs : List Byte} {s t : State} (hc : s.cur = encode .serialize) (h : emitBytes bs s = .next t) :
    t.curNamesCommand = true := by
  have hcur : t.cur = encode .serialize := by rw [emitBytes_frame h]; exact hc
  rcases emitBytes_waits h with hp | ⟨rest, hp⟩ <;> simp [State.curNamesCommand, hp, hcur]

theorem packLoop_names (fuel : Nat) {s : State} (hc : s.cur = encode .push ∨ s.cur = encode .pushLeaf) :
    (packLoop fuel s).curNamesCommand = true := by
  have hcur : (packLoop fuel s).cur = encode .push ∨ (packLoop fuel s).cur = encode .pushLeaf := by
    rw [packLoop_frame]
    exact hc
  rcases packLoop_waits fuel s with hp | hp <;> simp [State.curNamesCommand, hp, hcur]

theorem append_names {c : Code} {len : Nat} {s t : State} (hc : s.cur = encode .push ∨ s.cur = encode .pushLeaf)
    (h : append c len s = .next t) : t.curNamesCommand = true := by
  unfold append at h
  split at h
  · cases h; rfl
  · cases h; exact packLoop_names _ hc

theorem flushRun_names {s t : State} (hc : s.cur = encode .flush) (h : flushRun s = .next t) : t.curNamesCommand = true := by
  have hcur : t.cur = encode .flush := by rw [flushRun_frame h]; exact hc
  rcases flushRun_waits h with hp | hp <;> simp [State.curNamesCommand, hp, hcur]

theorem desLoop_names (fuel : Nat) (fs : List Frame) (w : Want) {s t : State} (hc : s.cur = encode .deserialize)
    (h : desLoop fuel fs w s = .next t) : t.curNamesCommand = true := by
  have hcur : t.cur = encode .deserialize := by rw [desLoop_frame fuel fs w h]; exact hc
  rcases desLoop_waits fuel fs w h with hp | ⟨fs', w', hp⟩ <;> simp [State.curNamesCommand, hp, hcur]

theorem decodeLoop_names (fuel n : Nat) {s t : State} (hc : s.cur = encode .decode) (h : decodeLoop fuel n s = .next t) :
    t.curNamesCommand = true := by
  have hcur : t.cur = encode .decode := by rw [decodeLoop_frame fuel n h]; exact hc
  rcases decodeLoop_waits fuel n h with hp | ⟨m, outs, hp⟩ <;> simp [State.curNamesCommand, hp, hcur]

theorem decodeResume_names {n : Nat} {outs : List Byte} {s t : State} (hc : s.cur = encode .decode)
    (h : decodeResume n outs s = .next t) : t.curNamesCommand = true := by
  unfold decodeResume at h
  split at h <;> rename_i ho
  · refine decodeLoop_names _ n ?_ h
    rw [offer_eq ho]
    exact hc
  · cases h
    rw [offer_eq ho]
    simp [State.curNamesCommand, hc]

/-- These commands never wait: they end in the move that begins them (R201). -/
theorem exec_prog_idle {i : Instr} {s t : State} (hi : i ∈ [.nop, .clear, .leafPush, .build, .leafRead, .assign])
    (h : exec i s = .next t) : t.prog = .idle := by
  cases i with
  | nop => cases h; rfl
  | clear => cases h; rfl
  | leafPush =>
    simp only [exec, execLeafPush] at h
    split_ifs at h <;> cases h <;> rfl
  | build =>
    simp only [exec] at h
    rcases execBuild_cases s with ⟨-, he⟩ | ⟨-, -, he⟩ | ⟨-, -, u, r, -, -, -, he⟩ <;> rw [he] at h <;> cases h <;> rfl
  | leafRead =>
    simp only [exec, execLeafRead] at h
    split at h
    · cases h; rfl
    split at h <;> cases h
    rfl
  | assign =>
    simp only [exec, execAssign] at h
    split at h
    · cases h; rfl
    split at h
    · cases h
    split at h <;> cases h <;> rfl
  | _ => simp at hi

/-- A command that begins with its word in `CUR` ends, or waits with its word in `CUR`. -/
theorem exec_names {i : Instr} {s t : State} (hc : s.cur = encode i) (h : exec i s = .next t) : t.curNamesCommand = true := by
  cases i with
  | serialize =>
    simp only [exec, execSerialize] at h
    split at h
    · cases h; rfl
    split at h
    · cases h
    split at h
    · cases h
    exact emitBytes_names hc h
  | deserialize =>
    simp only [exec, execDeserialize] at h
    split at h
    · cases h; rfl
    exact desLoop_names _ _ _ hc h
  | push =>
    simp only [exec, execPush] at h
    split at h
    · cases h; rfl
    exact append_names (.inl hc) h
  | pushLeaf =>
    simp only [exec, execPushLeaf] at h
    split at h
    · cases h; rfl
    split at h
    · cases h; rfl
    split at h
    · cases h
    exact append_names (.inr hc) h
  | flush => exact flushRun_names hc h
  | decode =>
    simp only [exec, execDecode] at h
    split at h
    · cases h; rfl
    split at h
    · cases h
    exact decodeLoop_names _ _ (s := { s with eos := false }) hc h
  | _ => exact curNamesCommand_idle (exec_prog_idle (by simp) h)

/-- The accepted word decodes to the command that runs (R80, R102). -/
theorem runCur_names {s t : State} (h : runCur s = .next t) : t.curNamesCommand = true := by
  unfold runCur at h
  split at h
  · cases h; rfl
  · rename_i i hi
    exact exec_names (decode_eq_ok hi) h

/-- The engine's move keeps the word of the command that goes on (R201). -/
theorem resume_names {s t : State} (hs : s.curNamesCommand = true) (h : resume s = .next t) : t.curNamesCommand = true := by
  unfold State.curNamesCommand at hs
  unfold resume at h
  cases hp : s.prog with
  | idle => rw [hp] at h; cases h; exact curNamesCommand_idle hp
  | start => rw [hp] at h; exact runCur_names h
  | emit rest => rw [hp] at h hs; exact emitBytes_names (by simpa using hs) h
  | pack => rw [hp] at h hs; cases h; exact packLoop_names _ (by simpa using hs)
  | flush => rw [hp] at h hs; exact flushRun_names (by simpa using hs) h
  | deser fs w => rw [hp] at h hs; exact desLoop_names _ fs w (by simpa using hs) h
  | decode n outs => rw [hp] at h hs; exact decodeResume_names (by simpa using hs) h

/-- A word offered to `CMD` leaves `CUR` alone or starts the command it names (R200). -/
theorem offerCommand_names {s t : State} {w : Word} (hs : s.curNamesCommand = true) (h : offerCommand w s = .next t) :
    t.curNamesCommand = true := by
  unfold offerCommand at h
  split at h
  · cases h; exact hs
  split at h
  · cases h; exact hs
  split at h
  · cases h; rfl
  · exact runCur_names h

/-- A move of the environment leaves the running command and its word alone, ends it, or starts one (R26, R34). -/
theorem handle_names {e : Event} {s t : State} (hs : s.curNamesCommand = true) (h : handle e s = .next t) :
    t.curNamesCommand = true := by
  by_cases hr : e = .reset
  · subst hr
    cases h
    rfl
  by_cases hc : ∃ width data, e = .write 0x10 width data
  · obtain ⟨width, data, rfl⟩ := hc
    exact offerCommand_names hs (handle_cmd_any h).2
  · rw [handle_other hr (fun width data he => hc ⟨width, data, he⟩) h]
    exact hs

/-- Settles O55: a command starts with its word in `CUR`, and nothing but the next acceptance or reset writes `CUR`. -/
theorem stepKeepsCurrentWord : Obligations.StepKeepsCurrentWord := by
  refine ⟨rfl, fun s t hs h => ?_⟩
  rcases step_cases h with ⟨-, hres⟩ | ⟨-, -, rfl⟩ | ⟨-, e, rest, -, hev⟩
  · exact resume_names hs hres
  · exact hs
  · exact handle_names (s := { s with events := rest }) hs hev

end Sys2Proof.Machine

/-! SUPPORT. Host accesses and the waits of a running command (R64, R67, R68): who moves next while a command waits, and what a read, a
poll and an access of another form are answered. -/

namespace Sys2Proof.Machine

/-! ### Who moves next (R67, R68, log 21) -/

/-- The running command stands where it takes input next (R67). -/
def Progress.Reads (p : Progress) : Prop := (∃ frames want, p = .deser frames want) ∨ ∃ n, p = .decode n []

/-- The running command has a byte to offer next (R68). -/
def Progress.Offers (p : Progress) : Prop :=
  (∃ bytes, p = .emit bytes) ∨ p = .pack ∨ p = .flush ∨ ∃ n b bytes, p = .decode n (b :: bytes)

theorem sinkReady_iff (s : State) : s.sinkReady = true ↔ s.out.room ≠ some 0 := by
  simp [State.sinkReady]

theorem sourceReady_iff (s : State) : s.sourceReady = true ↔ s.inp.avail ≠ [] ∨ s.inp.ended = true := by
  simp [State.sourceReady]

/-- A command with a byte to offer moves when it is given time and the sink has room. -/
theorem coreMoves_offers {s : State} (h : s.prog.Offers) : s.coreMoves = (!s.stalled && s.sinkReady) := by
  rcases h with ⟨bytes, hp⟩ | hp | hp | ⟨n, b, bytes, hp⟩ <;> rw [State.coreMoves, hp]

/-- `DESERIALIZE` moves when it is given time and the source has something to give. -/
theorem coreMoves_deser {s : State} {frames : List Frame} {want : Want} (hp : s.prog = .deser frames want) :
    s.coreMoves = (!s.stalled && s.sourceReady) := by
  rw [State.coreMoves, hp]

/-- `DECODE` with nothing to offer moves when it is given time and has a bit left or the source has something to give. -/
theorem coreMoves_decode {s : State} {n : Nat} (hp : s.prog = .decode n []) :
    s.coreMoves = (!s.stalled && (decide (0 < s.ubits) || s.sourceReady)) := by
  rw [State.coreMoves, hp]

/-- A command that takes input next moves when it is given time and the source has something to give. -/
theorem coreMoves_reads {s : State} (h : s.prog.Reads) (hs : s.stalled = false) (hready : s.sourceReady = true) :
    s.coreMoves = true := by
  rcases h with ⟨frames, want, hp⟩ | ⟨n, hp⟩
  · simp [coreMoves_deser hp, hs, hready]
  · simp [coreMoves_decode hp, hs, hready]

/-- Settles O9: whether the command moves is `coreMoves`, which looks at the stream it waits on. -/
theorem waitingCommandStandsStill : Obligations.WaitingCommandStandsStill := by
  refine fun s => ⟨fun he => ⟨fun hp havail hended => ?_, fun hp hroom => ?_⟩,
    fun hs => ⟨fun hp hready => ?_, fun ⟨n, hp⟩ hbits => ?_, fun hp hroom => ?_⟩⟩
  · have hempty : s.sourceReady = false := by simp [State.sourceReady, havail, hended]
    rcases hp with ⟨frames, want, hp⟩ | ⟨⟨n, hp⟩, hbits⟩
    · exact step_quiet (by simp [coreMoves_deser hp, hempty]) he
    · exact step_quiet (by simp [coreMoves_decode hp, hempty, hbits]) he
  · exact step_quiet (by simp [coreMoves_offers hp, State.sinkReady, hroom]) he
  · exact step_core (coreMoves_reads hp hs ((sourceReady_iff s).mpr hready))
  · exact step_core (by simp [coreMoves_decode hp, hs, hbits])
  · exact step_core (by simp [coreMoves_offers hp, hs, (sinkReady_iff s).mpr hroom])

/-! ### Host accesses (R64, R65, R89) -/

/-- A host read of the interface's form records the value read (R64, R65). -/
theorem handle_read (s : State) {off : Nat} (h4 : off % 4 = 0) (hlt : off < 0x100) :
    handle (.read off 4) s = .next { (s.memRead off).2 with reads := s.reads ++ [(s.memRead off).1] } := by
  simp [handle, (accessOk_iff off 4).mpr ⟨rfl, h4, hlt⟩]

/-- A settled register reads as its value (R64). -/
theorem memRead_settled {s : State} {off : Nat} (h : s.unsettled off = false) : s.memRead off = (s.regValue off, s) := by
  simp [State.memRead, h]

/-- A register the running command writes reads as a free value (R27(d), log 5). -/
theorem memRead_unsettled {s : State} {off : Nat} (h : s.unsettled off = true) :
    s.memRead off = (Config.freeRead s.draws, { s with draws := s.draws + 1 }) := by
  simp [State.memRead, h]

/-- A poll records `STATUS`; while `BUSY` reads 1 the events that follow are those of `pollAgain` (R89, log 20). -/
theorem step_poll {s : State} {rest : List Event} (hc : s.coreMoves = false) (he : s.events = .poll :: rest) :
    step s = .next { s with events := if s.busy then pollAgain rest else rest, reads := s.reads ++ [s.regValue statusOffset] } := by
  rw [step_event hc he, handle_poll]
  rfl

/-- Settles O10: a read goes through `memRead`, a poll through `pollAgain`. -/
theorem hostReads : Obligations.HostReads := by
  refine ⟨fun s off rest hc he h4 hlt => ⟨fun hset => ?_, fun hfree => ⟨Config.freeRead s.draws, ?_⟩⟩,
    fun s rest hc he => ⟨fun hbit => ?_, fun hbit => ⟨fun hhost => ?_, fun host e later hrest hhost hother => ?_⟩⟩⟩
  · rw [step_event hc he, handle_read _ h4 hlt, memRead_settled (s := { s with events := rest }) hset]
    rfl
  · rw [step_event hc he, handle_read _ h4 hlt, memRead_unsettled (s := { s with events := rest }) hfree]
  all_goals
    have hbusy := (status_busy s).symm.trans hbit
    rw [step_poll hc he, hbusy]
  · rfl
  · rw [if_pos rfl, pollAgain_host hhost, ← he]
    rfl
  · rw [if_pos rfl, hrest, pollAgain_other hhost hother]
    rfl

/-- Settles O11: both accesses are answered only in the form `accessOk` names. -/
theorem accessOutsideInterfaceRefused : Obligations.AccessOutsideInterfaceRefused := by
  intro s off width data rest hc hform he
  have hbad : accessOk off width = false := by
    rw [← Bool.not_eq_true, accessOk_iff]
    omega
  rcases he with he | he <;> simp [step_event hc he, handle, hbad]

/-- Settles O4: the step takes the write and runs the word (`step_runs_write`), which decodes to the command. -/
theorem stepRunsCommandWord : Obligations.StepRunsCommandWord := by
  intro s w i rest hdec hp hok hs he
  rw [step_runs_write hp (hok.imp_right fun hi => hi ▸ decode_eq_ok hdec) hs he]
  exact runCur_of_decode hdec

end Sys2Proof.Machine

/-! SUPPORT. The pace of the streams decides nothing (R67, R68, R244): each command that waits, against the same command with the
bytes or the room there from the start. -/

namespace Sys2Proof.Machine

/-! ### A command that waits is past its checks (R203) -/

theorem execDecode_eq {s : State} {r : Nat} (htree : s.tree = true) (hroot : s.root = some r) :
    execDecode s = decodeRun r { s with eos := false } := by
  simp [execDecode, htree, hroot]

theorem execDecode_runs {s t : State} (h : execDecode s = .next t) (hb : t.busy = true) : s.tree = true ∧ ∃ r, s.root = some r := by
  unfold execDecode at h
  split at h
  · cases h; simp [State.busy] at hb
  rename_i htree
  split at h
  · cases h
  · rename_i r hroot
    exact ⟨by simpa using htree, r, hroot⟩

theorem execDeserialize_eq {s : State} (hphase : (s.tree || !s.leaves.isEmpty) = false) : execDeserialize s = desRun [] .marker s := by
  simp [execDeserialize, hphase]

theorem execDeserialize_runs {s t : State} (h : execDeserialize s = .next t) (hb : t.busy = true) :
    (s.tree || !s.leaves.isEmpty) = false := by
  unfold execDeserialize at h
  split at h
  · cases h; simp [State.busy] at hb
  · rename_i hphase
    exact Bool.eq_false_iff.mpr hphase

theorem execSerialize_eq {s : State} {r : Nat} {bs : List Byte} (htree : s.tree = true) (hroot : s.root = some r)
    (hbytes : serBytes s.nodes.length s.nodes r = some bs) : execSerialize s = emitBytes bs s := by
  simp [execSerialize, htree, hroot, hbytes]

theorem execSerialize_runs {s t : State} (h : execSerialize s = .next t) (hb : t.busy = true) :
    s.tree = true ∧ ∃ r bs, s.root = some r ∧ serBytes s.nodes.length s.nodes r = some bs := by
  unfold execSerialize at h
  split at h
  · cases h; simp [State.busy] at hb
  rename_i htree
  split at h
  · cases h
  rename_i r hroot
  split at h
  · cases h
  · rename_i bs hbytes
    exact ⟨by simpa using htree, r, bs, hroot, hbytes⟩

theorem execPush_eq {s : State} (hlen : ¬ codeMax < s.regs.codelenOp) : execPush s = append s.regs.codeOp s.regs.codelenOp s := by
  rw [execPush, if_neg hlen]

theorem execPush_runs {s t : State} (h : execPush s = .next t) (hb : t.busy = true) : ¬ codeMax < s.regs.codelenOp := by
  unfold execPush at h
  split at h
  · cases h; simp [State.busy] at hb
  · assumption

theorem execPushLeaf_eq {s : State} {k : Nat} {nd : Node} (hcodes : s.codes = true) (hleaf : s.leaves[s.regs.argOp]? = some k)
    (hnode : s.nodes[k]? = some nd) : execPushLeaf s = append nd.code nd.clen s := by
  simp [execPushLeaf, hcodes, hleaf, hnode]

theorem execPushLeaf_runs {s t : State} (h : execPushLeaf s = .next t) (hb : t.busy = true) :
    s.codes = true ∧ ∃ k nd, s.leaves[s.regs.argOp]? = some k ∧ s.nodes[k]? = some nd := by
  unfold execPushLeaf at h
  split at h
  · cases h; simp [State.busy] at hb
  rename_i hcodes
  split at h
  · cases h; simp [State.busy] at hb
  rename_i k hleaf
  split at h
  · cases h
  · rename_i nd hnode
    exact ⟨by simpa using hcodes, k, nd, hleaf, hnode⟩

/-! ### The source (R67) -/

/-- Settles O52: the deserializer by `desRun_more`, the decoder by `decodeLoop_app`. -/
theorem sourcePaceIrrelevant : Obligations.SourcePaceIrrelevant := by
  intro i s t more ended hend h hb hi
  let e : Env := ⟨more, some ended⟩
  show resume (e.app t) = exec i (e.app s)
  rcases hi with rfl | rfl
  · have hphase := execDeserialize_runs h hb
    have hrun := (execDeserialize_eq hphase).symm.trans h
    exact (desRun_more [] .marker s t more ended hend hrun hb).trans (execDeserialize_eq (s := e.app s) hphase).symm
  · obtain ⟨htree, r, hroot⟩ := execDecode_runs h hb
    have hrun := (execDecode_eq htree hroot).symm.trans h
    have harrived := decodeLoop_app e _ _ r { s with eos := false } t (Nat.lt_succ_self _) (Nat.lt_succ_self _) hrun hb
    exact harrived.trans (execDecode_eq (s := e.app s) htree hroot).symm

/-! ### The sink (R68) -/

/-- Going on from `t`, with any room in the sink from then on, is the run of `s` with that much more room from the start (R68). -/
def SinkPace (run : State → Result) (s t : State) : Prop :=
  ∃ sent, t.out.bytes = s.out.bytes ++ sent ∧ ∀ room, resume (roomed room t) = run (roomed (room.map (sent.length + ·)) s)

/-- A command that waited before any byte went out need only, with any room, start anew. -/
theorem SinkPace.of_nothing_sent {run : State → Result} {s t : State} (hout : t.out = s.out)
    (h : ∀ room, resume (roomed room t) = run (roomed room s)) : SinkPace run s t :=
  ⟨[], by simp [hout], fun room => by simp [h]⟩

/-- A command is its loop once its checks, which do not look at the sink, are passed. -/
theorem SinkPace.of_loop {run loop : State → Result} {s s' t : State} (h : SinkPace loop s' t) (hout : s'.out = s.out)
    (heq : ∀ room, run (roomed room s) = loop (roomed room s')) : SinkPace run s t := by
  obtain ⟨sent, hbytes, hloop⟩ := h
  exact ⟨sent, hout ▸ hbytes, fun room => (hloop room).trans (heq _).symm⟩

/-- A deserializer that was fed every byte and expects more waits for a source that has not ended (R67, R141). -/
theorem desRun_of_more {fs fs' : List Frame} {w w' : Want} {s u : State} (hf : feed s.inp.avail fs w s = (.more fs' w' u, []))
    (hend : s.inp.ended = false) :
    desRun fs w s = .next { u with prog := .deser fs' w', inp := ⟨s.inp.taken ++ s.inp.avail, [], false⟩ } := by
  simp [desRun_eq, hf, settle, hend]

/-- Nothing else makes a deserializer wait. -/
theorem desRun_waits {fs : List Frame} {w : Want} {s t : State} (h : desRun fs w s = .next t) (hb : t.busy = true) :
    s.inp.ended = false ∧ ∃ fs' w' u, feed s.inp.avail fs w s = (.more fs' w' u, []) := by
  have hend : s.inp.ended = false := by
    by_contra hne
    simp [State.busy, desLoop_idle _ fs w h (by simpa using hne) (Nat.lt_succ_self _)] at hb
  rw [desRun_eq] at h
  refine ⟨hend, ?_⟩
  rcases hf : feed s.inp.avail fs w s with ⟨⟨fs', w', u⟩ | ⟨k, u⟩ | ⟨e, u⟩, left⟩
  · exact ⟨fs', w', u, by rw [feed_more_rest hf]⟩
  · simp only [hf, settle, desDone] at h
    split at h
    · cases h
    · split at h <;> cases h <;> simp [State.busy, desFail] at hb
  · simp only [hf, settle] at h
    cases h
    simp [State.busy, desFail] at hb

/-- A deserializer with nothing to take stands still (R67). -/
theorem resume_deser_waits {s : State} {fs : List Frame} {w : Want} (hp : s.prog = .deser fs w) (ha : s.inp.avail = [])
    (he : s.inp.ended = false) : resume s = .next s := by
  simp only [resume, hp, desRun, desLoop, inRead, ha, he, Bool.false_eq_true, if_false]
  rw [← hp]

/-- A deserializer sends nothing and does not look at the sink, so it waits for the source with any room (R141). -/
theorem desRun_sink {fs : List Frame} {w : Want} {s t : State} (h : desRun fs w s = .next t) (hb : t.busy = true) :
    SinkPace (desRun fs w) s t := by
  obtain ⟨hend, fs', w', u, hf⟩ := desRun_waits h hb
  have hout : t.out = s.out := by rw [desLoop_frame _ fs w h]
  rw [desRun_of_more hf hend] at h
  cases h
  refine .of_nothing_sent hout fun room => ?_
  have hfed : feed (roomed room s).inp.avail fs w (roomed room s) = (.more fs' w' { u with out := { s.out with room := room } }, []) := by
    simp [roomed, feed_out, hf, DesStep.withOut]
  rw [desRun_of_more hfed hend, resume_deser_waits rfl rfl rfl]
  simp [roomed, show u.out = s.out from hout]

/-- The decoder by `decodeLoop_sink` (R180). -/
theorem decodeRun_sink {n : Nat} {s t : State} (h : decodeRun n s = .next t) (hb : t.busy = true) : SinkPace (decodeRun n) s t :=
  decodeLoop_sink _ _ n s t (Nat.lt_succ_self _) (Nat.lt_succ_self _) h hb

/-- The body of `FLUSH` does not look at the progress (R162). -/
theorem flushRun_prog (s : State) (p : Progress) : flushRun { s with prog := p } = flushRun s := by
  unfold flushRun outWrite paddedByte
  rcases s.out.room with _ | _ | n <;> rfl

/-- A `FLUSH` that waits has sent nothing yet (R162). -/
theorem flushRun_sink {s t : State} (h : flushRun s = .next t) (hb : t.busy = true) : SinkPace flushRun s t := by
  unfold flushRun at h
  split at h
  · cases h
  split at h
  · split at h <;> cases h
    · exact .of_nothing_sent rfl fun room => flushRun_prog (roomed room s) .flush
    · simp [State.busy] at hb
  · cases h; simp [State.busy] at hb

/-- Settles O53: six commands never wait; each of the others is past its checks, which do not look at the sink, and its loop has its own
lemma. -/
theorem sinkPaceIrrelevant : Obligations.SinkPaceIrrelevant := by
  intro i s t h hb
  show SinkPace (exec i) s t
  cases i with
  | serialize =>
    obtain ⟨htree, r, bs, hroot, hbytes⟩ := execSerialize_runs h hb
    have hloop : SinkPace (emitBytes bs) s t := emit_sink ((execSerialize_eq htree hroot hbytes).symm.trans h) hb
    exact hloop.of_loop rfl fun room => execSerialize_eq (s := roomed room s) htree hroot hbytes
  | deserialize =>
    have hphase := execDeserialize_runs h hb
    have hloop := desRun_sink ((execDeserialize_eq hphase).symm.trans h) hb
    exact hloop.of_loop rfl fun room => execDeserialize_eq (s := roomed room s) hphase
  | push =>
    have hlen := execPush_runs h hb
    have hloop : SinkPace (append _ _) s t := append_sink ((execPush_eq hlen).symm.trans h) hb
    exact hloop.of_loop rfl fun room => execPush_eq (s := roomed room s) hlen
  | pushLeaf =>
    obtain ⟨hcodes, k, nd, hleaf, hnode⟩ := execPushLeaf_runs h hb
    have hloop : SinkPace (append _ _) s t := append_sink ((execPushLeaf_eq hcodes hleaf hnode).symm.trans h) hb
    exact hloop.of_loop rfl fun room => execPushLeaf_eq (s := roomed room s) hcodes hleaf hnode
  | flush => exact flushRun_sink h hb
  | decode =>
    obtain ⟨htree, r, hroot⟩ := execDecode_runs h hb
    have hloop := decodeRun_sink ((execDecode_eq htree hroot).symm.trans h) hb
    exact hloop.of_loop rfl fun room => execDecode_eq (s := roomed room s) htree hroot
  | _ => simp [State.busy, exec_prog_idle (by simp) h] at hb

end Sys2Proof.Machine

/-! SUPPORT. The streams in a step (R67, R68, R69, R244): `IN` is taken from its front, `OUT` only grows, and what each move of the
environment does to the ports. -/

namespace Sys2Proof.Machine

/-! ### Taking from `IN`, adding to `OUT` (R67, R68) -/

/-- What was taken from `IN` came from the front of what was available, with what arrived behind it (R67). -/
def InForward (s t : State) : Prop :=
  ∃ taken delivered, s.inp.avail ++ delivered = taken ++ t.inp.avail ∧ t.inp.taken = s.inp.taken ++ taken

/-- `OUT` has the old bytes as its first part (R68). -/
def OutForward (s t : State) : Prop := ∃ bytes, t.out.bytes = s.out.bytes ++ bytes

theorem InForward.of_eq {s t : State} (h : t.inp = s.inp) : InForward s t := ⟨[], [], by simp [h], by simp [h]⟩

theorem InForward.trans {s t u : State} (h1 : InForward s t) (h2 : InForward t u) : InForward s u := by
  obtain ⟨x, d, havail, htaken⟩ := h1
  obtain ⟨y, d', havail', htaken'⟩ := h2
  refine ⟨x ++ y, d ++ d', ?_, by rw [htaken', htaken, List.append_assoc]⟩
  rw [← List.append_assoc, havail, List.append_assoc, havail', List.append_assoc]

theorem OutForward.of_eq {s t : State} (h : t.out = s.out) : OutForward s t := ⟨[], by simp [h]⟩

theorem OutForward.trans {s t u : State} (h1 : OutForward s t) (h2 : OutForward t u) : OutForward s u := by
  obtain ⟨x, hx⟩ := h1
  obtain ⟨y, hy⟩ := h2
  exact ⟨x ++ y, by rw [hy, hx, List.append_assoc]⟩

theorem inRead_inForward {s t : State} {b : Byte} (h : inRead s = .byte b t) : InForward s t := by
  unfold inRead at h
  split at h
  · rename_i havail
    cases h
    exact ⟨[b], [], by simp [havail], rfl⟩
  · split at h <;> cases h

theorem refill_inForward {s t : State} {b : Byte} (h : refill s = .byte b t) : InForward s t := by
  unfold refill at h
  split at h
  · split at h <;> cases h
    rename_i hin
    exact (inRead_inForward hin).trans (.of_eq rfl)
  · cases h
    exact .of_eq rfl

theorem outWrite_outForward {s t : State} {b : Byte} (h : outWrite b s = some t) : OutForward s t := by
  obtain ⟨room, rfl, -⟩ := outWrite_some h
  exact ⟨[b], rfl⟩

theorem offer_outForward {s t : State} {bs rest : List Byte} (h : offer bs s = (t, rest)) : OutForward s t := by
  obtain ⟨done, rest', room, -, he, -, -⟩ := offer_spec bs s
  rw [he] at h
  cases h
  exact ⟨done, rfl⟩

theorem offer_inForward {s t : State} {bs rest : List Byte} (h : offer bs s = (t, rest)) : InForward s t :=
  .of_eq (by rw [offer_eq h])

/-! ### The commands' loops -/

theorem emitBytes_outForward {s t : State} {bs : List Byte} (h : emitBytes bs s = .next t) : OutForward s t := by
  unfold emitBytes at h
  split at h <;> cases h <;> rename_i ho <;> exact (offer_outForward ho).trans (.of_eq rfl)

theorem packLoop_outForward (fuel : Nat) (s : State) : OutForward s (packLoop fuel s) := by
  induction fuel generalizing s with
  | zero => exact .of_eq rfl
  | succ n ih =>
    rw [packLoop]
    split
    · split
      · exact .of_eq rfl
      · rename_i s1 hw
        exact ((outWrite_outForward hw).trans (.of_eq rfl)).trans (ih _)
    · exact .of_eq rfl

theorem append_outForward {c : Code} {len : Nat} {s t : State} (h : append c len s = .next t) : OutForward s t := by
  unfold append at h
  split at h <;> cases h
  · exact .of_eq rfl
  · exact packLoop_outForward _ (appendBits c len s)

theorem flushRun_outForward {s t : State} (h : flushRun s = .next t) : OutForward s t := by
  unfold flushRun at h
  split at h
  · cases h
  split at h
  · split at h <;> cases h
    · exact .of_eq rfl
    · rename_i hw
      exact (outWrite_outForward hw).trans (.of_eq rfl)
  · cases h
    exact .of_eq rfl

theorem desLoop_inForward (fuel : Nat) (fs : List Frame) (w : Want) {s t : State} (h : desLoop fuel fs w s = .next t) :
    InForward s t := by
  induction fuel generalizing fs w s with
  | zero => cases h; exact .of_eq rfl
  | succ n ih =>
    rw [desLoop] at h
    split at h
    · cases h; exact .of_eq rfl
    · cases h; exact .of_eq rfl
    · rename_i b s1 hin
      have hread := inRead_inForward hin
      have hbyte : (desByte b fs w s1).state.inp = s1.inp := by rw [desByte_frame]
      split at h <;> rename_i hd <;> rw [hd] at hbyte
      · exact (hread.trans (.of_eq hbyte)).trans (ih _ _ h)
      · unfold desDone at h
        split at h
        · cases h
        · split at h <;> cases h <;> exact hread.trans (.of_eq hbyte)
      · cases h
        exact hread.trans (.of_eq hbyte)

theorem decodeLoop_forward (fuel n : Nat) {s t : State} (h : decodeLoop fuel n s = .next t) : InForward s t ∧ OutForward s t := by
  induction fuel generalizing n s with
  | zero => cases h; exact ⟨.of_eq rfl, .of_eq rfl⟩
  | succ k ih =>
    rw [decodeLoop] at h
    split at h
    · cases h; exact ⟨.of_eq rfl, .of_eq rfl⟩
    · cases h; exact ⟨.of_eq rfl, .of_eq rfl⟩
    rename_i b s1 hr
    let s2 : State := { s1 with ubits := s1.ubits - 1 }
    have hin : InForward s s2 := (refill_inForward hr).trans (.of_eq rfl)
    have hout : s2.out = s.out := by
      show s1.out = s.out
      rw [refill_frame hr]
    -- the walk's faults, then an internal node, then the end symbol, then a symbol to offer
    split at h
    · cases h
    split at h
    · cases h
    split at h
    · obtain ⟨hin', hout'⟩ := ih _ h
      exact ⟨hin.trans hin', (OutForward.of_eq hout).trans hout'⟩
    split at h
    · cases h; exact ⟨hin.trans (.of_eq rfl), .of_eq hout⟩
    split at h
    · cases h
    dsimp only at h
    split at h <;> rename_i ho
    all_goals
      have hin3 := hin.trans (offer_inForward ho)
      have hout3 := (OutForward.of_eq hout).trans (offer_outForward ho)
    · obtain ⟨hin', hout'⟩ := ih _ h
      exact ⟨hin3.trans hin', hout3.trans hout'⟩
    · cases h
      exact ⟨hin3.trans (.of_eq rfl), hout3.trans (.of_eq rfl)⟩

theorem decodeResume_forward {n : Nat} {outs : List Byte} {s t : State} (h : decodeResume n outs s = .next t) :
    InForward s t ∧ OutForward s t := by
  rcases ho : offer outs s with ⟨s1, rest⟩
  have hin := offer_inForward ho
  have hout := offer_outForward ho
  rw [decodeResume, ho] at h
  cases rest with
  | nil =>
    obtain ⟨hin', hout'⟩ := decodeLoop_forward _ n h
    exact ⟨hin.trans hin', hout.trans hout'⟩
  | cons b bs =>
    cases h
    exact ⟨hin.trans (.of_eq rfl), hout.trans (.of_eq rfl)⟩

/-! ### The commands -/

/-- The parameters, and the ports of the commands whose rules do not name them (each rule's "Writes"). -/
theorem exec_ports {i : Instr} {s t : State} (h : exec i s = .next t) :
    t.cfg = s.cfg ∧ (i ∉ [.deserialize, .decode] → t.inp = s.inp) ∧
      (i ∉ [.serialize, .push, .pushLeaf, .flush, .decode] → t.out = s.out) := by
  obtain ⟨hcfg, -, -, -, -, -, -, -, -, -, -, -, -, -, -, -, -, -, hinp, hout, -⟩ := commandFrame i s t h
  exact ⟨hcfg, hinp, hout⟩

theorem execDeserialize_inForward {s t : State} (h : execDeserialize s = .next t) : InForward s t := by
  unfold execDeserialize at h
  split at h
  · cases h; exact .of_eq rfl
  · exact desLoop_inForward _ _ _ h

theorem execDecode_forward {s t : State} (h : execDecode s = .next t) : InForward s t ∧ OutForward s t := by
  unfold execDecode at h
  split at h
  · cases h; exact ⟨.of_eq rfl, .of_eq rfl⟩
  split at h
  · cases h
  · exact decodeLoop_forward _ _ (s := { s with eos := false }) h

theorem execSerialize_outForward {s t : State} (h : execSerialize s = .next t) : OutForward s t := by
  unfold execSerialize at h
  split at h
  · cases h; exact .of_eq rfl
  split at h
  · cases h
  split at h
  · cases h
  · exact emitBytes_outForward h

theorem execPush_outForward {s t : State} (h : execPush s = .next t) : OutForward s t := by
  unfold execPush at h
  split at h
  · cases h; exact .of_eq rfl
  · exact append_outForward h

theorem execPushLeaf_outForward {s t : State} (h : execPushLeaf s = .next t) : OutForward s t := by
  unfold execPushLeaf at h
  split at h
  · cases h; exact .of_eq rfl
  split at h
  · cases h; exact .of_eq rfl
  split at h
  · cases h
  · exact append_outForward h

/-! ### The engine's move and the environment's -/

/-- What a move of the engine does to the parameters and the ports (R67, R68). -/
structure Forward (s t : State) : Prop where
  cfg : t.cfg = s.cfg
  inp : InForward s t
  out : OutForward s t

/-- What a move of the environment does to them: the ports go forward unless the event rewinds or swaps that endpoint. -/
def EnvForward (e : Event) (s t : State) : Prop :=
  t.cfg = s.cfg ∧ (e = .rewind ∨ e = .connectIn ∨ InForward s t) ∧ (e = .connectOut ∨ OutForward s t)

theorem Forward.env {s t : State} (h : Forward s t) (e : Event) : EnvForward e s t :=
  ⟨h.cfg, .inr (.inr h.inp), .inr h.out⟩

theorem Forward.of_eq {s t : State} (hcfg : t.cfg = s.cfg) (hinp : t.inp = s.inp) (hout : t.out = s.out) : Forward s t :=
  ⟨hcfg, .of_eq hinp, .of_eq hout⟩

theorem exec_forward {i : Instr} {s t : State} (h : exec i s = .next t) : Forward s t := by
  obtain ⟨hcfg, hinp, hout⟩ := exec_ports h
  cases i with
  | serialize => exact ⟨hcfg, .of_eq (hinp (by simp)), execSerialize_outForward h⟩
  | deserialize => exact ⟨hcfg, execDeserialize_inForward h, .of_eq (hout (by simp))⟩
  | push => exact ⟨hcfg, .of_eq (hinp (by simp)), execPush_outForward h⟩
  | pushLeaf => exact ⟨hcfg, .of_eq (hinp (by simp)), execPushLeaf_outForward h⟩
  | flush => exact ⟨hcfg, .of_eq (hinp (by simp)), flushRun_outForward h⟩
  | decode =>
    obtain ⟨hin, hfwd⟩ := execDecode_forward h
    exact ⟨hcfg, hin, hfwd⟩
  | _ => exact .of_eq hcfg (hinp (by simp)) (hout (by simp))

theorem runCur_forward {s t : State} (h : runCur s = .next t) : Forward s t := by
  unfold runCur at h
  split at h
  · cases h; exact .of_eq rfl rfl rfl
  · exact exec_forward h

theorem resume_forward {s t : State} (h : resume s = .next t) : Forward s t := by
  by_cases hstart : s.prog = .start
  · exact runCur_forward (resume_start hstart ▸ h)
  obtain ⟨-, hcfg, -⟩ := resume_regs s t hstart h
  unfold resume at h
  split at h
  · cases h; exact .of_eq rfl rfl rfl
  · contradiction
  · exact ⟨hcfg, .of_eq (by rw [emitBytes_frame h]), emitBytes_outForward h⟩
  · cases h
    exact ⟨hcfg, .of_eq (by rw [packLoop_frame]), packLoop_outForward _ s⟩
  · exact ⟨hcfg, .of_eq (by rw [flushRun_frame h]), flushRun_outForward h⟩
  · exact ⟨hcfg, desLoop_inForward _ _ _ h, .of_eq (by rw [desLoop_frame _ _ _ h])⟩
  · obtain ⟨hin, hout⟩ := decodeResume_forward h
    exact ⟨hcfg, hin, hout⟩

theorem offerCommand_forward {s t : State} {w : Word} (h : offerCommand w s = .next t) : Forward s t := by
  unfold offerCommand at h
  split at h
  · cases h; exact .of_eq rfl rfl rfl
  split at h
  · cases h; exact .of_eq rfl rfl rfl
  split at h
  · cases h; exact .of_eq rfl rfl rfl
  · obtain ⟨hcfg, hin, hout⟩ := runCur_forward h
    exact ⟨hcfg, hin, hout⟩

/-- A delivery comes behind the bytes available; the rest of the environment leaves both ports' bytes alone, but where the host rewinds
or swaps an endpoint. -/
theorem handle_forward {e : Event} {s t : State} (h : handle e s = .next t) : EnvForward e s t := by
  cases e with
  | write off width data =>
    simp only [handle, memWrite] at h
    split at h
    · split at h
      · exact (offerCommand_forward h).env _
      · split at h <;> cases h <;> exact (Forward.of_eq rfl rfl rfl).env _
    · cases h
  | read off width =>
    simp only [handle, State.memRead] at h
    split at h <;> cases h
    split <;> exact (Forward.of_eq rfl rfl rfl).env _
  | poll =>
    rw [handle_poll] at h
    cases h
    exact (Forward.of_eq rfl rfl rfl).env _
  | deliver bytes =>
    simp only [handle] at h
    split at h <;> cases h
    exact ⟨rfl, .inr (.inr ⟨[], bytes, rfl, by simp⟩), .inr (.of_eq rfl)⟩
  | endInput => cases h; exact ⟨rfl, .inr (.inr ⟨[], [], by simp, by simp⟩), .inr (.of_eq rfl)⟩
  | rewind =>
    simp only [handle] at h
    split at h <;> cases h
    exact ⟨rfl, .inl rfl, .inr (.of_eq rfl)⟩
  | connectIn =>
    simp only [handle] at h
    split at h <;> cases h
    exact ⟨rfl, .inr (.inl rfl), .inr (.of_eq rfl)⟩
  | connectOut =>
    simp only [handle] at h
    split at h <;> cases h
    exact ⟨rfl, .inr (.inr (.of_eq rfl)), .inl rfl⟩
  | sinkRoom n => cases h; exact ⟨rfl, .inr (.inr (.of_eq rfl)), .inr ⟨[], by simp⟩⟩
  | stall on => cases h; exact (Forward.of_eq rfl rfl rfl).env _
  | reset => cases h; exact (Forward.of_eq rfl rfl rfl).env _

/-! ### The moves of the environment, one by one (R67, R68, R69, R244) -/

theorem handle_deliver (bytes : List Byte) (s : State) :
    handle (.deliver bytes) s =
      if s.inp.ended then .refused .deliveryAfterEnd else .next { s with inp := { s.inp with avail := s.inp.avail ++ bytes } } := rfl

theorem handle_rewind (s : State) :
    handle .rewind s =
      if s.readsInput then .refused .streamChangeWhileBusy
      else .next { s with inp := ⟨[], s.inp.taken ++ s.inp.avail, s.inp.ended⟩ } := rfl

theorem handle_connectIn (s : State) :
    handle .connectIn s = if s.busy then .refused .streamChangeWhileBusy else .next { s with inp := ⟨[], [], false⟩ } := rfl

theorem handle_connectOut (s : State) :
    handle .connectOut s = if s.busy then .refused .streamChangeWhileBusy else .next { s with out := ⟨[], none⟩ } := rfl

/-- Settles O54: each move is its case of `handle`; a step is the engine's move (`resume_forward`) or the environment's
(`handle_forward`). -/
theorem streamsMoveForward : Obligations.StreamsMoveForward := by
  refine ⟨fun s rest hc => ⟨fun bytes he => ?_, fun he => step_event hc he, fun he => ?_, fun he => ?_, fun he => ?_,
    fun n he => step_event hc he, fun on he => step_event hc he⟩, fun s t h => ?_⟩
  · rw [step_event hc he, handle_deliver]
    exact ⟨fun hend => if_neg (by simp [hend]), fun hend => if_pos hend⟩
  · rw [step_event hc he, handle_rewind]
    have hreads := readsInput_iff { s with events := rest }
    exact ⟨fun hr => if_pos (hreads.mpr hr), fun hr => if_neg fun hr' => hr (hreads.mp hr')⟩
  · rw [step_event hc he, handle_connectIn]
    exact ⟨fun hb => if_pos hb, fun hb => if_neg (Bool.eq_false_iff.mp hb)⟩
  · rw [step_event hc he, handle_connectOut]
    exact ⟨fun hb => if_pos hb, fun hb => if_neg (Bool.eq_false_iff.mp hb)⟩
  · rcases step_cases h with ⟨-, hres⟩ | ⟨-, -, rfl⟩ | ⟨hc, e, rest, he, hev⟩
    · obtain ⟨hcfg, hin, hout⟩ := resume_forward hres
      exact ⟨hcfg, .inr hin, .inr hout⟩
    · exact ⟨rfl, .inr (InForward.of_eq rfl), .inr (OutForward.of_eq rfl)⟩
    · obtain ⟨hcfg, hin, hout⟩ := handle_forward hev
      refine ⟨hcfg, ?_, ?_⟩
      · rcases hin with rfl | rfl | hin
        · exact .inl ⟨hc, rest, .inl he⟩
        · exact .inl ⟨hc, rest, .inr he⟩
        · exact .inr hin
      · rcases hout with rfl | hout
        · exact .inl ⟨hc, rest, he⟩
        · exact .inr hout

end Sys2Proof.Machine

/-! SUPPORT. The command words (R80, R81, R83, R90): the decoder inverts the encoder, and a word outside the opcode map raises
`IllegalCommand`. -/

namespace Sys2Proof.Machine

/-- A command's word decodes to the command (R81). -/
@[simp] theorem decode_encode (i : Instr) : decode (encode i) = .ok i := by
  cases i <;> rfl

/-- A word decodes to a command exactly when it is that command's word (R80, R81). -/
theorem decode_eq_ok_iff {w : Word} {i : Instr} : decode w = .ok i ↔ w = encode i :=
  ⟨decode_eq_ok, fun h => h ▸ decode_encode i⟩

/-- A command is exactly one 32-bit word, so the opcode-table decoder reads every such word as `decode` does (R90). -/
theorem decodeTableWord_toNat (w : Word) : decodeTableWord 32 w.toNat = (decode w).toOption := by
  rw [decodeTableWord, if_pos ⟨le_rfl, w.isLt⟩, BitVec.ofNat_toNat, BitVec.setWidth_eq]

/-- The opcode-table decoder reads a command from a word exactly when `decode` does. -/
theorem decodeTableWord_eq_some_iff {w : Word} {i : Instr} : decodeTableWord 32 w.toNat = some i ↔ decode w = .ok i := by
  rw [decodeTableWord_toNat]
  cases decode w <;> simp [Except.toOption]

/-- Settles O1: both decoders invert the encoder (`decode_eq_ok_iff`, `decodeTableWord_eq_some_iff`). -/
theorem decodeEncodeAgree : Obligations.DecodeEncodeAgree := fun _ _ =>
  ⟨decode_eq_ok_iff, decodeTableWord_eq_some_iff.trans decode_eq_ok_iff⟩

/-- A word that is no command's word is ILLEGAL (R80). -/
theorem decode_eq_error_of_ne_encode {w : Word} (h : ∀ i, w ≠ encode i) : ∃ e, decode w = .error e := by
  cases hd : decode w with
  | error e => exact ⟨e, rfl⟩
  | ok i => exact absurd (decode_eq_ok hd) (h i)

/-- An accepted word that is ILLEGAL raises `IllegalCommand`, code 8 (R83, R102). -/
theorem runCur_of_decode_error {s : State} {e : DecodeError} (h : decode s.cur = .error e) :
    runCur s = .next (s.failed 8#4) := by
  rw [runCur, h]
  rfl

/-- Settles O3: no command's word lies in a range R83 lists, so such a word is ILLEGAL; the step that takes it from `CMD` runs it
(`step_runs_write`), which raises `IllegalCommand`. -/
theorem illegalWordsRaise : Obligations.IllegalWordsRaise := by
  intro w hillegal
  have hne : ∀ i, w ≠ encode i := by
    rintro i rfl
    revert hillegal
    cases i <;> decide
  obtain ⟨e, hdec⟩ := decode_eq_error_of_ne_encode hne
  refine ⟨⟨e, hdec⟩, fun s rest hp herr hs he => ?_⟩
  rw [step_runs_write hp (.inl herr) hs he]
  exact runCur_of_decode_error hdec

/-- Settles O2: each word of the opcode map is the one `encode` gives, which decodes to its command (`decode_encode`). -/
theorem knownWords : Obligations.KnownWords :=
  ⟨decode_encode .nop, decode_encode .clear, decode_encode .leafPush, decode_encode .build, decode_encode .leafRead,
    decode_encode .assign, decode_encode .serialize, decode_encode .deserialize, decode_encode .push, decode_encode .pushLeaf,
    decode_encode .flush, decode_encode .decode⟩

end Sys2Proof.Machine

/-! SUPPORT. Control (40_control.md): the execution of an accepted word (R102), `CLEAR` (R100) and `NOP` (R101). -/

namespace Sys2Proof.Machine

/-- A command whose phase precondition fails (R203) raises `SequenceError`, code 9, and changes nothing else (R204, R205): it is the
first check of every command that has one. -/
theorem exec_of_phaseOk_false {i : Instr} {s : State} (h : phaseOk i s = false) : exec i s = .next (s.failed 9#4) := by
  cases i with
  | nop | clear | leafRead | push | flush => cases h
  | leafPush | build | assign | serialize | decode | pushLeaf => exact if_pos (by simpa [phaseOk] using h)
  | deserialize => exact if_pos (by simpa [phaseOk, or_iff_not_imp_left] using h)

/-- A started command that is given time executes the word in `CUR` (R102). -/
theorem step_start {s : State} (hp : s.prog = .start) (hs : s.stalled = false) : step s = runCur s := by
  rw [step_core (coreMoves_start hp hs), resume_start hp]

/-- Settles O7: the step runs the word in `CUR` (`step_start`), which is ILLEGAL (`runCur_of_decode_error`) or a command
(`runCur_of_decode`), whose phase precondition is its first check (`exec_of_phaseOk_false`). -/
theorem executionOfAcceptedWord : Obligations.ExecutionOfAcceptedWord := by
  intro s hp hs
  rw [step_start hp hs]
  refine ⟨fun e hill => runCur_of_decode_error hill, fun i hdec hphase => ?_, fun i hdec _ => runCur_of_decode hdec⟩
  rw [runCur_of_decode hdec, exec_of_phaseOk_false hphase]

/-- Settles O18: `CLEAR` ends in the cleared state (`cleared_clear`), whose status and information registers read 0
(`cleared_reads`). -/
theorem clearStartsNewOperation : Obligations.ClearStartsNewOperation := fun s =>
  ⟨finish (clearOperation s), rfl, rfl, cleared_clear s, cleared_reads _ (cleared_clear s)⟩

/-- Settles O20: `NOP` is `return` alone (R101), which ends the command and changes nothing else. -/
theorem nopChangesNothing : Obligations.NopChangesNothing := fun _ => rfl

end Sys2Proof.Machine

/-! SUPPORT. The tree builder (41_tree_builder.md): `LEAF_PUSH` (R110), `BUILD` (R111, R112, R114) and `LEAF_READ` (R113). -/

namespace Sys2Proof.Machine

/-! ### LEAF_PUSH (R110) -/

/-- A `LEAF_PUSH` that passes its checks adds the record `newLeaf` (R110). -/
theorem exec_leafPush_ok {s : State} (htree : s.tree = false) (hlen : s.regs.symlen.toNat ≤ 16)
    (hcap : s.leaves.length ≠ s.cfg.leafMax) : exec .leafPush s = .next (finish (addLeaf s)) := by
  have hlen' : ¬ maxSymbolLen < s.regs.symlenOp := Nat.not_lt.mpr hlen
  simp [exec, execLeafPush, htree, hlen', State.nleaf, hcap]

/-- The first bytes of the symbol registers, byte by byte (R28). -/
theorem symbol_getElem? (r : Operands) {n i : Nat} (hi : i < n) : (r.symbol n)[i]? = some (r.symbyte i) := by
  simp [Operands.symbol, hi]

/-- Settles O26: the checks of R110 in their order, then the record `newLeaf`. -/
theorem leafPush : Obligations.LeafPush := by
  intro s
  refine ⟨fun htree => ?_, fun htree hlen => ?_, fun htree hlen hfull => ?_, fun htree hlen hcap => ?_⟩
  · exact exec_of_phaseOk_false (by simp [phaseOk, htree])
  · have hlen' : maxSymbolLen < s.regs.symlenOp := hlen
    simp [exec, execLeafPush, htree, hlen', raise_eq_failed, Err.code]
  · have hlen' : ¬ maxSymbolLen < s.regs.symlenOp := Nat.not_lt.mpr hlen
    simp [exec, execLeafPush, htree, hlen', State.nleaf, hfull, raise_eq_failed, Err.code]
  · refine ⟨newLeaf s, by rw [exec_leafPush_ok htree hlen hcap, addLeaf_eq]; rfl, rfl, ?_, fun i hi => symbol_getElem? _ hi,
      rfl, rfl, rfl, rfl, rfl, rfl⟩
    simp [newLeaf, Operands.symbol, Operands.symlenOp]

/-! ### One turn of `BUILD` (R111) -/

/-- An extraction that answers gives a member of least key and the queue without it (R37). -/
theorem extractMin_eq_some {s t : State} {k : Nat} (h : extractMin s = some (k, t)) :
    k ∈ s.q ∧ (∀ j ∈ s.q, s.keyAtMost k j) ∧ t = { s with q := s.q.erase k } := by
  rcases extractMin_spec s with ⟨-, he⟩ | ⟨m, hm, hle, he⟩
  · rw [he] at h; cases h
  · rw [he] at h
    cases h
    exact ⟨hm, fun j hj => (keyAt s k j).mp (hle j hj), rfl⟩

/-- A non-empty queue has a least member to extract (R37). -/
theorem extractMin_of_ne_nil {s : State} (h : s.q ≠ []) : ∃ k, extractMin s = some (k, { s with q := s.q.erase k }) := by
  rcases extractMin_spec s with ⟨hq, -⟩ | ⟨k, -, -, he⟩
  · exact absurd hq h
  · exact ⟨k, he⟩

/-- The state after the turn that takes `a` and `b` off the queue (R111). -/
def turnState (a b : Nat) (s : State) : State := mergePair a b { s with q := (s.q.erase a).erase b }

theorem turnState_eq (a b : Nat) (s : State) :
    turnState a b s =
      { s with
        nodes := s.nodes ++ [parentOf s.nodes s.nextSeq a b], nint := s.nint + 1, nextSeq := s.nextSeq + 1
        q := (s.q.erase a).erase b ++ [s.nodes.length] } := by
  rw [turnState, mergePair_eq]

/-- One turn of the loop takes the two least nodes and goes on from their merge (R111). -/
theorem mergeLoop_turn {s : State} (h : 1 < s.q.length) (n : Nat) :
    ∃ a b, extractMin s = some (a, { s with q := s.q.erase a }) ∧
      extractMin { s with q := s.q.erase a } = some (b, { s with q := (s.q.erase a).erase b }) ∧
      mergeLoop (n + 1) s = mergeLoop n (turnState a b s) := by
  obtain ⟨a, ha⟩ := extractMin_of_ne_nil (s := s) (List.ne_nil_of_length_pos (by omega))
  have hlen := erase_length (extractMin_eq_some ha).1
  obtain ⟨b, hb⟩ := extractMin_of_ne_nil (s := { s with q := s.q.erase a }) (List.ne_nil_of_length_pos (by simp only; omega))
  exact ⟨a, b, ha, hb, by rw [mergeLoop, if_pos h, ha]; simp only [hb]; rfl⟩

/-- The end of `BUILD` after its loop (R111): the last node on the queue becomes the root. -/
def buildEnd (s : State) : Result :=
  match extractMin s with
  | none => .fault .emptyQueue
  | some (r, s2) => .next (finish { s2 with root := some r, tree := true, codes := false })

/-- With two nodes queued, `BUILD` runs its loop to its end (R111). -/
theorem exec_build_eq {s u : State} (htree : s.tree = false) (hq : 2 ≤ s.q.length) (hu : mergeLoop s.q.length s = some u) :
    exec .build s = buildEnd u := by
  have hq' : ¬ s.q.length < 2 := by omega
  simp only [exec, execBuild, htree, Bool.false_eq_true, if_false, hq', hu]
  rfl

/-- Settles O28: the errors are the two checks of R111; a turn of the loop is `mergeLoop_turn`, and a queue of one node ends it. -/
theorem buildLoop : Obligations.BuildLoop := by
  intro s
  refine ⟨fun htree => ?_, fun htree hq => ?_, fun htree hq => ?_⟩
  · exact exec_of_phaseOk_false (by simp [phaseOk, htree])
  · simp [exec, execBuild, htree, hq, raise_eq_failed, Err.code]
  obtain ⟨m, hm⟩ : ∃ m, s.q.length = m + 1 := ⟨s.q.length - 1, by omega⟩
  obtain ⟨a, b, ha, hb, hturn⟩ := mergeLoop_turn (s := s) (by omega) m
  rw [← hm] at hturn
  obtain ⟨hamem, haleast, -⟩ := extractMin_eq_some ha
  obtain ⟨hbmem, hbleast, -⟩ := extractMin_eq_some hb
  have hla := erase_length hamem
  have hlb : ((s.q.erase a).erase b).length + 1 = (s.q.erase a).length := erase_length hbmem
  refine ⟨a, hamem, haleast, b, hbmem, hbleast, turnState a b s, turnState_eq a b s, fun hmore => ?_, fun htwo => ?_⟩
  · have hlen : (turnState a b s).q.length = m := by
      rw [turnState_eq, List.length_append, List.length_singleton]
      omega
    obtain ⟨u, hu, -⟩ := mergeLoop_total m (turnState a b s) (by omega)
    rw [exec_build_eq htree hq (hturn.trans hu), exec_build_eq (by simp [turnState_eq, htree]) (by omega) (hlen.symm ▸ hu)]
  · have hnil : (s.q.erase a).erase b = [] := List.eq_nil_of_length_eq_zero (by omega)
    obtain rfl : m = 1 := by omega
    have hend : mergeLoop 1 (turnState a b s) = some (turnState a b s) := by
      rw [mergeLoop, if_neg (by simp [turnState_eq, hnil])]
    rw [exec_build_eq htree hq (hturn.trans hend)]
    simp [buildEnd, turnState_eq, hnil, extractMin, leastOf, finish]

/-! ### The whole of `BUILD` (R111, R114) -/

/-- Settles O29: the loop always reaches a queue of one node, and every record it adds is internal. -/
theorem buildCompletes : Obligations.BuildCompletes := by
  intro s htree hq
  rcases execBuild_cases s with ⟨ht, -⟩ | ⟨-, hlt, -⟩ | ⟨-, -, u, r, -, -, ⟨more, nint, seq, q, rfl, hmore⟩, he⟩
  · simp [htree] at ht
  · omega
  · exact ⟨more, nint, seq, r, he, fun nd hnd => (hmore nd hnd).1⟩

/-- Without a tree, a safe run that has just accepted a command holds leaves alone (R42(a)). -/
theorem Inv.leavesOnly {s : State} (h : Inv s) (hp : s.prog = .start) (htree : s.tree = false) : s.root = none ∧ LeavesOnly s := by
  have hstore := h.storeOk (by simp [hp, Progress.plain])
  simpa [StoreOk, htree] using hstore

/-- A state of a safe run with `TREE` = 1 holds a whole tree (R42(b)). -/
theorem Inv.treeStands {s : State} (h : Inv s) (htree : s.tree = true) : TreeStands s := by
  have hstore := h.store
  rwa [if_pos htree] at hstore

/-- Each leaf stands in `LEAVES` once (R38). -/
theorem LeavesOnly.nodup {s : State} (h : LeavesOnly s) : s.leaves.Nodup := h.leaves ▸ List.nodup_range

theorem LeavesOnly.lt {s : State} (h : LeavesOnly s) {k : Nat} (hk : k ∈ s.q) : k < s.nodes.length := by
  rw [h.q, h.leaves] at hk
  exact List.mem_range.mp hk

theorem countSum_perm (nodes : List Node) {ks ls : List Nat} (h : ks.Perm ls) : countSum nodes ks = countSum nodes ls :=
  (h.map _).sum_eq

/-- Settles O30: `BUILD` keeps the invariant, so a whole tree stands after it; the old records stand first in the new store. -/
theorem builtTreeProperties : Obligations.BuiltTreeProperties := by
  intro s h hp htree hlen
  obtain ⟨-, hleaves⟩ := h.leavesOnly hp htree
  obtain ⟨more, nint, nextSeq, root, he, -⟩ := buildCompletes s htree (hleaves.q ▸ hlen)
  obtain ⟨-, hnint, T, hT, hnode, hsums, -⟩ := (execBuild_inv h hp he).treeStands rfl
  have hperm : T.leafIdx.Perm s.leaves := hT.leaves
  have hold : ∀ k ∈ s.leaves, nodeAt (s.nodes ++ more) k = nodeAt s.nodes k := fun k hk =>
    nodeAt_append_left _ _ _ (hleaves.lt (hleaves.q ▸ hk))
  have hsize := T.indices_length
  rw [hT.nodes.length_eq, hperm.length_eq, List.length_range] at hsize
  refine ⟨_, T, he, hT, hnode, hsums, hperm, hperm.nodup_iff.mpr hleaves.nodup, hnint, by omega, ?_, hold, rfl⟩
  calc (nodeAt (s.nodes ++ more) T.idx).count
      = countSum (s.nodes ++ more) T.leafIdx := hsums.count_eq
    _ = countSum (s.nodes ++ more) s.leaves := countSum_perm _ hperm
    _ = countSum s.nodes s.leaves := countSum_congr fun k hk => by rw [hold k hk]

/-! ### Two runs of `BUILD` side by side (R114(e)) -/

/-- The two states' stores have the same places and the same nodes on the queue, which the sequence numbers put in the same
order; every later record comes behind them (R36). -/
structure SameMerge (s s' : State) : Prop where
  place : s.nodes.map Node.place = s'.nodes.map Node.place
  q : s.q = s'.q
  order : ∀ j ∈ s.q, ∀ k ∈ s.q,
    ((nodeAt s.nodes j).seq < (nodeAt s.nodes k).seq ↔ (nodeAt s'.nodes j).seq < (nodeAt s'.nodes k).seq)
  queued : ∀ k ∈ s.q, k < s.nodes.length ∧ (nodeAt s.nodes k).seq < s.nextSeq ∧ (nodeAt s'.nodes k).seq < s'.nextSeq

theorem SameMerge.length {s s' : State} (h : SameMerge s s') : s.nodes.length = s'.nodes.length := by
  simpa using congrArg List.length h.place

theorem SameMerge.count {s s' : State} (h : SameMerge s s') (k : Nat) : (nodeAt s.nodes k).count = (nodeAt s'.nodes k).count := by
  have hcount (nodes : List Node) : (nodeAt nodes k).count = ((nodes.map Node.place).getD k (Node.blank .leaf).place).2.2.1 := by
    rw [List.getD_map]; rfl
  rw [hcount, hcount, h.place]

/-- Where two stores order the keys of a list alike, the least of the list is the same in both. -/
theorem leastOf_congr {nodes nodes' : List Node} {m : Nat} {ks : List Nat}
    (h : ∀ j ∈ m :: ks, ∀ k ∈ m :: ks, keyLt (key nodes j) (key nodes k) = keyLt (key nodes' j) (key nodes' k)) :
    leastOf nodes m ks = leastOf nodes' m ks := by
  induction ks generalizing m with
  | nil => rfl
  | cons k ks ih =>
    rw [leastOf, leastOf, h k (by simp) m (by simp)]
    split
    · exact ih fun i hi j hj => h i (List.mem_cons_of_mem _ hi) j (List.mem_cons_of_mem _ hj)
    · refine ih fun i hi j hj => h i ?_ j ?_ <;> simp only [List.mem_cons] at * <;> tauto

/-- Keys of queued nodes compare alike in the two stores (R37). -/
theorem SameMerge.keyLt {s s' : State} (h : SameMerge s s') {j k : Nat} (hj : j ∈ s.q) (hk : k ∈ s.q) :
    keyLt (key s.nodes j) (key s.nodes k) = keyLt (key s'.nodes j) (key s'.nodes k) := by
  rw [Bool.eq_iff_iff]
  simp only [Machine.keyLt, Bool.or_eq_true, Bool.and_eq_true, decide_eq_true_eq]
  simp only [key, h.count, h.order j hj k hk]

/-- Both extractions take the same node (R37). -/
theorem SameMerge.extractMin {s s' : State} (h : SameMerge s s') {k : Nat}
    (hk : extractMin s = some (k, { s with q := s.q.erase k })) : extractMin s' = some (k, { s' with q := s'.q.erase k }) := by
  have hle : ∀ j ∈ s.q, ∀ k ∈ s.q, _ := fun j hj k hk => h.keyLt hj hk
  unfold Machine.extractMin at hk ⊢
  rw [← h.q]
  cases hq : s.q with
  | nil => simp [hq] at hk
  | cons m ks =>
    rw [hq] at hk hle
    simp only [← leastOf_congr hle]
    cases hk
    rfl

/-- An extraction keeps the two queues alike (R37). -/
theorem SameMerge.erase {s s' : State} (h : SameMerge s s') (a : Nat) :
    SameMerge { s with q := s.q.erase a } { s' with q := s'.q.erase a } where
  place := h.place
  q := congrArg (List.erase · a) h.q
  order j hj k hk := h.order j (List.mem_of_mem_erase hj) k (List.mem_of_mem_erase hk)
  queued k hk := h.queued k (List.mem_of_mem_erase hk)

/-- One merge keeps the two stores alike: the new record comes last in both orders (R36, R112). -/
theorem SameMerge.merge {s s' : State} (h : SameMerge s s') (a b : Nat) : SameMerge (mergePair a b s) (mergePair a b s') := by
  rw [mergePair_eq, mergePair_eq]
  have hlen := h.length
  have old {k : Nat} (hk : k ∈ s.q) (nd : Node) : nodeAt (s.nodes ++ [nd]) k = nodeAt s.nodes k :=
    nodeAt_append_left _ _ _ (h.queued k hk).1
  have old' {k : Nat} (hk : k ∈ s.q) (nd : Node) : nodeAt (s'.nodes ++ [nd]) k = nodeAt s'.nodes k :=
    nodeAt_append_left _ _ _ (hlen ▸ (h.queued k hk).1)
  have new' (nd : Node) : nodeAt (s'.nodes ++ [nd]) s.nodes.length = nd := hlen ▸ nodeAt_append_new _ _
  constructor
  case place => simp [h.place, parentOf, Node.place, h.count]
  case q => simp [h.q, hlen]
  case order =>
    intro j hj k hk
    simp only [List.mem_append, List.mem_singleton] at hj hk
    rcases hj with hj | rfl <;> rcases hk with hk | rfl
    · simpa only [old hj, old hk, old' hj, old' hk] using h.order j hj k hk
    · have := (h.queued j hj).2
      simp only [old hj, old' hj, nodeAt_append_new, new', parentOf]
      omega
    · have := (h.queued k hk).2
      simp only [old hk, old' hk, nodeAt_append_new, new', parentOf]
      omega
    · simp
  case queued =>
    intro k hk
    simp only [List.mem_append, List.mem_singleton] at hk
    rcases hk with hk | rfl
    · have := h.queued k hk
      simp only [old hk, old' hk, List.length_append]
      omega
    · simp [nodeAt_append_new, new', parentOf]

/-- The two loops stay alike to their ends (R111). -/
theorem SameMerge.mergeLoop (n : Nat) {s s' t t' : State} (h : SameMerge s s') (ht : mergeLoop n s = some t)
    (ht' : mergeLoop n s' = some t') : SameMerge t t' := by
  induction n generalizing s s' with
  | zero => cases ht; cases ht'; exact h
  | succ n ih =>
    by_cases hq : 1 < s.q.length
    · obtain ⟨a, b, ha, hb, hturn⟩ := mergeLoop_turn hq n
      obtain ⟨a', b', ha', hb', hturn'⟩ := mergeLoop_turn (h.q ▸ hq) n
      obtain rfl : a = a' := by simpa using congrArg (Option.map Prod.fst) ((h.extractMin ha).symm.trans ha')
      obtain rfl : b = b' := by simpa using congrArg (Option.map Prod.fst) (((h.erase a).extractMin hb).symm.trans hb')
      exact ih (((h.erase a).erase b).merge a b) (hturn ▸ ht) (hturn' ▸ ht')
    · rw [Machine.mergeLoop, if_neg hq] at ht
      rw [Machine.mergeLoop, if_neg (h.q ▸ hq)] at ht'
      cases ht; cases ht'; exact h

/-- Where only leaves stand, the sequence numbers rise with the indices (R36). -/
theorem LeavesOnly.seq_lt_iff {s : State} (h : LeavesOnly s) {j k : Nat} (hj : j ∈ s.q) (hk : k ∈ s.q) :
    (nodeAt s.nodes j).seq < (nodeAt s.nodes k).seq ↔ j < k := by
  have rises {i l : Nat} (hi : i ∈ s.q) (hl : l ∈ s.q) (hlt : i < l) : (nodeAt s.nodes i).seq < (nodeAt s.nodes l).seq := by
    rw [nodeAt_of_some (List.getElem?_eq_getElem (h.lt hi)), nodeAt_of_some (List.getElem?_eq_getElem (h.lt hl))]
    exact List.pairwise_iff_getElem.mp (List.pairwise_map.mp h.seqs) i l (h.lt hi) (h.lt hl) hlt
  refine ⟨fun hlt => ?_, rises hj hk⟩
  rcases Nat.lt_trichotomy j k with hjk | rfl | hkj
  · exact hjk
  · omega
  · exact absurd (rises hk hj hkj) (by omega)

/-- A store of leaves has the places its symbols and counts give it. -/
theorem LeavesOnly.places {s : State} (h : LeavesOnly s) :
    s.nodes.map Node.place = (s.nodes.map fun nd => (nd.sym, nd.count)).map fun p => (Kind.leaf, p.1, p.2, none) := by
  rw [List.map_map]
  exact List.map_congr_left fun nd hnd => by simp [Node.place, h.kind nd hnd]

theorem LeavesOnly.seq_lt_nextSeq {s : State} (h : LeavesOnly s) {k : Nat} (hk : k ∈ s.q) : (nodeAt s.nodes k).seq < s.nextSeq := by
  rw [nodeAt_of_some (List.getElem?_eq_getElem (h.lt hk))]
  exact h.next _ (List.getElem_mem _)

/-- Leaves pushed with the same symbols and counts in the same order give stores `BUILD` cannot tell apart (R114(e)). -/
theorem LeavesOnly.sameMerge {s s' : State} (h : LeavesOnly s) (h' : LeavesOnly s')
    (hpairs : (s.nodes.map fun nd => (nd.sym, nd.count)) = s'.nodes.map fun nd => (nd.sym, nd.count)) :
    SameMerge s s' ∧ s.leaves = s'.leaves := by
  have hlen : s.nodes.length = s'.nodes.length := by simpa using congrArg List.length hpairs
  have hleaves : s.leaves = s'.leaves := by rw [h.leaves, h'.leaves, hlen]
  have hq : s.q = s'.q := by rw [h.q, h'.q, hleaves]
  exact ⟨{
    place := by rw [h.places, h'.places, hpairs]
    q := hq
    order := fun j hj k hk => (h.seq_lt_iff hj hk).trans (h'.seq_lt_iff (hq ▸ hj) (hq ▸ hk)).symm
    queued := fun k hk => ⟨h.lt hk, h.seq_lt_nextSeq hk, h'.seq_lt_nextSeq (hq ▸ hk)⟩ }, hleaves⟩

/-- Settles O31: the loop's decisions read counts and the order of the sequence numbers alone, and both runs have the same. -/
theorem buildDependsOnPushSequence : Obligations.BuildDependsOnPushSequence := by
  intro s s' t t' h h' hp hp' htree htree' hpairs ht ht'
  obtain ⟨hroot, hleaves⟩ := h.leavesOnly hp htree
  obtain ⟨hroot', hleaves'⟩ := h'.leavesOnly hp' htree'
  obtain ⟨hsame, heq⟩ := hleaves.sameMerge hleaves' hpairs
  have hlen : s.q.length = s'.q.length := congrArg List.length hsame.q
  by_cases hq : s.q.length < 2
  · obtain ⟨-, hfew, -⟩ := buildLoop s
    obtain ⟨-, hfew', -⟩ := buildLoop s'
    rw [hfew htree hq] at ht
    rw [hfew' htree' (hlen ▸ hq)] at ht'
    cases ht; cases ht'
    exact ⟨hsame.place, hroot.trans hroot'.symm, heq⟩
  · rcases execBuild_cases s with ⟨hc, -⟩ | ⟨-, hc, -⟩ | ⟨-, -, u, r, hu, hr, hm, he⟩
    · simp [htree] at hc
    · omega
    rcases execBuild_cases s' with ⟨hc, -⟩ | ⟨-, hc, -⟩ | ⟨-, -, u', r', hu', hr', hm', he'⟩
    · simp [htree'] at hc
    · omega
    have hend := hsame.mergeLoop _ hu (hlen ▸ hu')
    have hrr : r = r' := by simpa [hr, hr'] using hend.q
    obtain ⟨_, _, _, _, rfl, -⟩ := hm
    obtain ⟨_, _, _, _, rfl, -⟩ := hm'
    obtain rfl := Host.Outcome.next.inj (he.symm.trans ht)
    obtain rfl := Host.Outcome.next.inj (he'.symm.trans ht')
    exact ⟨hend.place, congrArg some hrr, heq⟩

/-! ### LEAF_READ (R113) -/

/-- After `LEAF_READ`, the symbol registers hold the record's bytes (R28, R113). -/
theorem ofNode_symbyte (r : Operands) (nd : Node) (codes : Bool) {i : Nat} (hi : i < 16) :
    (r.ofNode nd codes).symbyte i = nd.symAt i := by
  have hreg : (r.ofNode nd codes).symReg (i / 4) = nd.symWord (i / 4) := by
    have : i / 4 < 4 := by omega
    interval_cases i / 4 <;> rfl
  rw [Operands.symbyte, hreg, symWord_byte nd (i / 4) (i % 4) (by omega), Nat.div_add_mod]

/-- Settles O32: `LEAF_READ` writes `Operands.ofNode`, whose fields are wide enough for a record within its bounds (R35). -/
theorem leafRead : Obligations.LeafRead := by
  intro s
  refine ⟨fun hout => ?_, fun k nd hk hnd hok hkind => ?_⟩
  · have hnone : s.leaves[s.regs.argOp]? = none := List.getElem?_eq_none hout
    simp [exec, execLeafRead, hnone, raise_eq_failed, Err.code]
  · have hk' : s.leaves[s.regs.argOp]? = some k := hk
    have hsym := hok.sym
    have hclen := hok.clen
    simp only [maxSymbolLen, codeMax] at hsym hclen
    refine ⟨s.regs.ofNode nd s.codes, by simp only [exec, execLeafRead, hk', hnd]; rfl, rfl, ?_,
      fun i hi => ofNode_symbyte _ _ _ hi, Nat.mod_eq_of_lt (hok.leafCount hkind), fun hc => ?_, fun hc => ?_⟩
    · exact Nat.mod_eq_of_lt (show nd.sym.length < 2 ^ 8 by omega)
    · rw [hc]
      exact ⟨withCode_codeOp s nd.code 0, Nat.mod_eq_of_lt (show nd.clen < 2 ^ 8 by omega)⟩
    · simp [Operands.ofNode, hc]

end Sys2Proof.Machine

/-! SUPPORT. The code assigner (42_code_assigner.md): `ASSIGN` (R130), the codes it gives (R131 to R133) and `MAXLEN` (R32). -/

namespace Sys2Proof.Machine

/-! ### What `ASSIGN` answers on a held tree (R130) -/

/-- On a tree within the code width, `ASSIGN` completes, changes codes and code lengths alone, and gives every node the code of
its path (R130, R131). -/
theorem exec_assign_done {s : State} {T : Tree} (htree : s.tree = true) (hT : s.HasTree T) (hd : T.depth ≤ 64) :
    ∃ nodes, exec .assign s = .next (finish { s with nodes := nodes, codes := true }) ∧ SameButCodes s.nodes nodes ∧
      ∀ e ∈ T.paths, (nodeAt nodes e.1).hasCode e.2 := by
  obtain ⟨nodes, hvisit, hsame, -, hcodes⟩ := visit_done hT.holds hT.nodup 0 0 (by simp) (by omega)
  have hvisit' : visit (codeMax + 1) s.nodes T.idx 0 0 = .done nodes := hvisit
  refine ⟨nodes, ?_, hsame, fun e he => ?_⟩
  · simp only [exec, execAssign, htree, hT.root, hvisit', Bool.not_true, Bool.false_eq_true, if_false]
  · obtain ⟨hcode, hlen⟩ := hcodes e he
    exact ⟨by simpa using hcode, by simpa using hlen⟩

/-- On a tree deeper than the code width, `ASSIGN` raises `CodeOverflow` and leaves free codes (R130, R206, log 6). -/
theorem exec_assign_overflow {s : State} {T : Tree} (htree : s.tree = true) (hT : s.HasTree T) (hd : 64 < T.depth) :
    exec .assign s =
      .next (raise .codeOverflow { s with nodes := freeCodes s.draws s.nodes, codes := false, draws := s.draws + 1 }) := by
  have hvisit : visit (codeMax + 1) s.nodes T.idx 0 0 = .overflow :=
    visit_overflow hT.holds hT.nodup 0 0 (by simp) (by omega) (by omega)
  simp only [exec, execAssign, htree, hT.root, hvisit, Bool.not_true, Bool.false_eq_true, if_false]

/-- Each old record stands in the new store with at most another code and code length. -/
theorem SameButCodes.getElem?_eq {nodes nodes' : List Node} (h : SameButCodes nodes nodes') (k : Nat) (nd : Node)
    (hnd : nodes[k]? = some nd) : ∃ c l, nodes'[k]? = some { nd with code := c, clen := l } := by
  obtain ⟨nd', hnd', c, l, rfl, -⟩ := h.2 k nd hnd
  exact ⟨c, l, hnd'⟩

/-! ### Codes and paths (R131, R32) -/

/-- The code of a path, read as a bit string, is the path (R13, R131). -/
theorem Node.hasCode.codeBits_eq {nodes : List Node} {k : Nat} {path : List Bool} (h : (nodeAt nodes k).hasCode path) :
    codeBits nodes k = path := by
  obtain ⟨hcode, hlen⟩ := h
  rw [codeBits, hcode, hlen, bitsOf_pathValue]

/-- The path to the root is empty (R131). -/
theorem Tree.idx_mem_paths (T : Tree) : (T.idx, []) ∈ T.paths := by
  cases T <;> simp [Tree.paths]

/-- The root's children stand at the ends of the paths of one branch (R131). -/
theorem Tree.Holds.child_mem_paths {nodes : List Node} {T : Tree} (h : T.Holds nodes) {nd : Node} {a b : Nat}
    (hnd : nodes[T.idx]? = some nd) (hkind : nd.kind = .internal) (hleft : nd.left = some a) (hright : nd.right = some b) :
    (a, [false]) ∈ T.paths ∧ (b, [true]) ∈ T.paths := by
  cases T with
  | leaf k sym =>
    obtain ⟨nd', hnd', hkind', -⟩ := h
    obtain rfl := Option.some.inj (hnd.symm.trans hnd')
    simp [hkind] at hkind'
  | node k l r =>
    obtain ⟨⟨nd', hnd', -, hleft', hright'⟩, -, -⟩ := h
    obtain rfl := Option.some.inj (hnd.symm.trans hnd')
    obtain rfl := Option.some.inj (hleft.symm.trans hleft')
    obtain rfl := Option.some.inj (hright.symm.trans hright')
    simp [Tree.paths, l.idx_mem_paths, r.idx_mem_paths]

/-- A node at the end of a path of one branch has the branch as its one-bit code (R131). -/
theorem Node.hasCode.singleton {nd : Node} {side : Bool} (h : nd.hasCode [side]) :
    nd.code = BitVec.ofNat 64 side.toNat ∧ nd.clen = 1 := by
  obtain ⟨hcode, hlen⟩ := h
  refine ⟨BitVec.eq_of_toNat_eq ?_, hlen⟩
  rw [hcode]
  cases side <;> rfl

/-- Each leaf of the state's tree has an entry (R38, R42(b)). -/
theorem State.HasTree.exists_entry {s : State} {T : Tree} (h : s.HasTree T) {k : Nat} (hk : k ∈ s.leaves) :
    ∃ e ∈ T.entries, e.1 = k := by
  rw [← h.leaves.mem_iff, ← T.entries_idx] at hk
  exact List.mem_map.mp hk

/-- Each entry of the state's tree is a leaf's (R38, R42(b)). -/
theorem State.HasTree.entry_mem_leaves {s : State} {T : Tree} (h : s.HasTree T) {e : Nat × List Byte × List Bool}
    (he : e ∈ T.entries) : e.1 ∈ s.leaves := by
  rw [← h.leaves.mem_iff, ← T.entries_idx]
  exact List.mem_map_of_mem he

/-- When the leaves carry the codes of their paths, the greatest code length is the tree's depth (R32). -/
theorem State.HasTree.maxLen_eq_depth {s : State} {T : Tree} (h : s.HasTree T) (hc : s.codes = true)
    (hcodes : ∀ e ∈ T.paths, (nodeAt s.nodes e.1).hasCode e.2) : s.maxLen = T.depth := by
  have hlen : ∀ e ∈ T.entries, (nodeAt s.nodes e.1).clen = e.2.2.length := fun e he => (hcodes _ (T.entries_paths e he)).2
  obtain ⟨hle, deepest, hmem, hdeepest⟩ := T.entries_depth
  have hleaf := h.entry_mem_leaves hmem
  obtain ⟨hall, k, hk, hatt⟩ := maxLen_attained hc (List.ne_nil_of_mem hleaf)
  obtain ⟨e, he, rfl⟩ := h.exists_entry hk
  apply Nat.le_antisymm
  · rw [← hatt, hlen e he]
    exact hle e he
  · rw [← hdeepest, ← hlen deepest hmem]
    exact hall _ hleaf

/-- The register `MAXLEN` shows every length within the code width (R32). -/
theorem regValue_maxLen {s : State} (h : s.maxLen ≤ 64) : (s.regValue 0x4C).toNat = s.maxLen := by
  show ((BitVec.ofNat 8 s.maxLen).setWidth 32).toNat = _
  rw [BitVec.toNat_setWidth, BitVec.toNat_ofNat]
  omega

/-! ### The statements (R130 to R133) -/

/-- Settles O33: the traversal gives each node the code of its path (`exec_assign_done`), and the deepest leaf makes `MAXLEN` the
tree's depth (`State.HasTree.maxLen_eq_depth`). -/
theorem assignGivesPathCodes : Obligations.AssignGivesPathCodes := by
  intro s T htree hT hd
  obtain ⟨nodes, he, hsame, hcodes⟩ := exec_assign_done htree hT hd
  refine ⟨nodes, he, hsame.1, hsame.getElem?_eq, fun e hmem => ?_, ?_⟩
  · obtain ⟨hcode, hlen⟩ := hcodes e hmem
    exact ⟨hlen, hcode, (hcodes e hmem).codeBits_eq⟩
  · have hT' : State.HasTree { s with nodes := nodes, codes := true, prog := .idle } T := hT.sameButCodes hsame rfl rfl
    have hmax := hT'.maxLen_eq_depth rfl hcodes
    rw [regValue_maxLen (hmax ▸ hd), hmax]

/-- Settles O34: the traversal reaches a node below the code width (`exec_assign_overflow`), and with `CODES` = 0 `MAXLEN` is 0. -/
theorem assignOverflow : Obligations.AssignOverflow := by
  intro s T htree hT hd
  have hsame := SameButCodes.freeCodes s.draws s.nodes
  exact ⟨freeCodes s.draws s.nodes, exec_assign_overflow htree hT hd, hsame.1, hsame.getElem?_eq, rfl⟩

/-- Settles O35: after a successful `ASSIGN` each leaf's bits are its path, and no leaf's path continues another's
(`Tree.entries_eq_of_prefix`). -/
theorem prefixFreeCodes : Obligations.PrefixFreeCodes := by
  intro s t h hp _ he herr a ha b hb hab hprefix
  cases htree : s.tree with
  | false =>
    rw [exec_of_phaseOk_false (by simp [phaseOk, htree])] at he
    cases he
    cases herr
  | true =>
    obtain ⟨-, -, T, hT, -⟩ := h.treeStands htree
    by_cases hd : T.depth ≤ 64
    · obtain ⟨nodes, he', -, hcodes⟩ := exec_assign_done htree hT hd
      obtain rfl := Host.Outcome.next.inj (he'.symm.trans he)
      obtain ⟨e, hemem, rfl⟩ := hT.exists_entry ha
      obtain ⟨f, hfmem, rfl⟩ := hT.exists_entry hb
      have hbits : ∀ g ∈ T.entries, codeBits nodes g.1 = g.2.2 := fun g hg => (hcodes _ (T.entries_paths g hg)).codeBits_eq
      have hpath : e.2.2 <+: f.2.2 := by rw [← hbits e hemem, ← hbits f hfmem]; exact hprefix
      exact hab (congrArg Prod.fst (T.entries_eq_of_prefix e hemem f hfmem hpath))
    · rw [exec_assign_overflow htree hT (by omega)] at he
      cases he
      cases herr

/-- Settles O36: one turn of `BUILD` (`buildLoop`) puts the node extracted first to the left of the root and the other to its right;
the store then holds three nodes, so `ASSIGN` completes and gives them the paths of one branch. -/
theorem twoLeafCodes : Obligations.TwoLeafCodes := by
  intro s a b h hp _ htree hq
  obtain ⟨-, hleaves⟩ := h.leavesOnly hp htree
  have hnodes : s.nodes.length = 2 := by
    have hlen := congrArg List.length (hleaves.q.symm.trans hq)
    simpa [hleaves.leaves] using hlen
  obtain ⟨-, -, hturn⟩ := buildLoop s
  obtain ⟨first, hfirst, hleast, other, hother, -, _, rfl, -, hbuild⟩ := hturn htree (by simp [hq])
  have hother' := (hleaves.q ▸ hleaves.nodup : s.q.Nodup).mem_erase_iff.mp hother
  have ht := hbuild (by simp [hq])
  obtain ⟨-, -, T, hT, -⟩ := (execBuild_inv h hp ht).treeStands rfl
  have hroot : s.nodes.length = T.idx := Option.some.inj hT.root
  have hdepth := hT.depth_lt
  simp only [List.length_append, List.length_singleton, hnodes] at hdepth
  obtain ⟨nodes, hassign, -, hcodes⟩ := exec_assign_done rfl hT (by omega)
  obtain ⟨hleft, hright⟩ := hT.holds.child_mem_paths (by rw [← hroot]; exact List.getElem?_concat_length) rfl rfl rfl
  obtain ⟨hcode0, hlen0⟩ := (hcodes _ hleft).singleton
  obtain ⟨hcode1, hlen1⟩ := (hcodes _ hright).singleton
  exact ⟨_, _, ht, hassign, rfl, first, hq ▸ hfirst, other, hq ▸ hother'.2, hother'.1.symm, hleast other hother'.2,
    hcode0, hlen0, hcode1, hlen1⟩

end Sys2Proof.Machine

/-! SUPPORT. The tree codec (43_tree_codec.md): `SERIALIZE` (R140), `DESERIALIZE` (R141), the round trip (R142) and the
self-delimiting form (R143). -/

namespace Sys2Proof.Machine

/-! ### SERIALIZE (R140) -/

/-- `SERIALIZE` of a held tree offers the tree's bytes to `OUT` (R140). -/
theorem exec_serialize_eq {s : State} {T : Tree} (htree : s.tree = true) (hT : s.HasTree T) :
    exec .serialize s = emitBytes T.ser s := by
  have hbytes := serBytes_of_holds hT.holds _ hT.depth_lt
  simp only [exec, execSerialize, htree, hT.root, hbytes, Bool.not_true, Bool.false_eq_true, if_false]

/-- An open sink accepts every byte offered, and the command completes (R68). -/
theorem emitBytes_open (bs : List Byte) {s : State} (h : s.out.room = none) :
    emitBytes bs s = .next { s with out := { bytes := s.out.bytes ++ bs, room := none }, prog := .idle } := by
  rw [emitBytes, offer_open bs s h]
  rfl

/-- A sink with room for every byte offered accepts them, and the command completes (R68). -/
theorem emitBytes_room_ge {bs : List Byte} {s : State} {n : Nat} (h : s.out.room = some n) (hn : bs.length ≤ n) :
    emitBytes bs s =
      .next { s with out := { bytes := s.out.bytes ++ bs, room := some (n - bs.length) }, prog := .idle } := by
  rw [emitBytes, offer_room bs s n h, List.take_of_length_le hn, List.drop_of_length_le hn]
  rfl

/-- A sink with less room accepts what it has room for, and the command waits with the rest (R68). -/
theorem emitBytes_room_lt {bs : List Byte} {s : State} {n : Nat} (h : s.out.room = some n) (hn : n < bs.length) :
    emitBytes bs s =
      .next { s with out := { bytes := s.out.bytes ++ bs.take n, room := some 0 }, prog := .emit (bs.drop n) } := by
  rw [emitBytes, offer_room bs s n h, Nat.sub_eq_zero_of_le hn.le]
  cases hrest : bs.drop n with
  | nil => exact absurd (List.drop_eq_nil_iff.mp hrest) (by omega)
  | cons b rest => rfl

/-- Settles O37: `SERIALIZE` offers the tree's bytes (`exec_serialize_eq`), and the sink's room decides how many it accepts; they
number what the leaves' symbols give (`Tree.Holds.ser_length`). -/
theorem serialize : Obligations.Serialize := by
  intro s
  refine ⟨fun htree => exec_of_phaseOk_false htree, fun T htree hT => ?_⟩
  rw [exec_serialize_eq htree hT]
  refine ⟨?_, emitBytes_open _, fun n => emitBytes_room_ge, fun n => emitBytes_room_lt⟩
  rw [hT.holds.ser_length, hT.leaves.length_eq, (hT.leaves.map _).sum_eq]

/-! ### The serialized form (R143) -/

/-- Where two serialized trees begin the same bytes, they are the same tree and end together (R143): the first byte tells a marker
from a length, and a length tells where its symbol ends. -/
theorem Tree.ser_append_inj {T U : Tree} {x y : List Byte} (hT : T.symbolsFit = true) (hU : U.symbolsFit = true)
    (h : T.ser ++ x = U.ser ++ y) : T.sameShape U = true ∧ x = y := by
  induction T generalizing U x y with
  | leaf k a =>
    have ha := of_decide_eq_true hT
    cases U with
    | leaf k' b =>
      obtain ⟨hlen, hrest⟩ := List.cons.inj h
      have hlen := congrArg BitVec.toNat hlen
      rw [lengthByte_toNat ha, lengthByte_toNat (of_decide_eq_true hU)] at hlen
      obtain ⟨hsym, hxy⟩ := List.append_inj hrest hlen
      exact ⟨decide_eq_true hsym, hxy⟩
    | node k' l r => exact absurd (List.cons.inj h).1 (lengthByte_ne ha)
  | node k l r ihl ihr =>
    cases U with
    | leaf k' b => exact absurd (List.cons.inj h).1.symm (lengthByte_ne (of_decide_eq_true hU))
    | node k' l' r' =>
      simp only [Tree.symbolsFit, Bool.and_eq_true] at hT hU
      simp only [Tree.ser, List.cons_append, List.append_assoc, List.cons.injEq, true_and] at h
      obtain ⟨hleft, hrest⟩ := ihl hT.1 hU.1 h
      obtain ⟨hright, hxy⟩ := ihr hT.2 hU.2 hrest
      exact ⟨by simp [Tree.sameShape, hleft, hright], hxy⟩

/-- Settles O43: both trees begin the longer one's bytes, so they are the same and nothing follows (`Tree.ser_append_inj`). -/
theorem serializedFormSelfDelimiting : Obligations.SerializedFormSelfDelimiting := by
  rintro T U hT hU ⟨x, hx⟩
  obtain ⟨hshape, rfl⟩ := Tree.ser_append_inj hT hU (hx.trans (List.append_nil U.ser).symm)
  exact ⟨by simpa using hx, hshape⟩

/-! ### DESERIALIZE (R141) -/

/-- The state after a whole tree was read (R141): its records and leaves in the store, its bytes consumed. -/
def State.afterTree (s : State) (T : Tree) (more : List Byte) : State :=
  { s.readTree T with
    root := some 0, tree := true, codes := false, prog := .idle
    inp := { s.inp with taken := s.inp.taken ++ T.ser, avail := more } }

/-- How `DESERIALIZE` stands when the bytes at the front of `IN` are a whole tree's: its root is returned (R141). -/
theorem exec_deserialize_whole {s : State} (d : DesStart s) {T : Tree} {more : List Byte} (hfit : T.symbolsFit = true)
    (hcap : T.leafIdx.length ≤ s.cfg.leafMax) (havail : s.inp.avail = T.ser ++ more) :
    exec .deserialize s =
      desDone 0 { s.readTree T with inp := { s.inp with taken := s.inp.taken ++ T.ser, avail := more } } := by
  rw [d.exec_eq, havail, feed_whole d T more hfit hcap]
  simp [settle]

/-- The record at index 0 after the bytes of a tree were read into an empty store has the kind of the tree's root (R141). -/
theorem readTree_root {s : State} (hn : s.nodes = []) (T : Tree) :
    ∃ nd, (s.readTree T).nodes[0]? = some nd ∧ nd.kind = if T.isNode then .internal else .leaf := by
  cases T <;> exact ⟨_, by simp [State.readTree, hn, Tree.records]; rfl, rfl⟩

/-- `DESERIALIZE` of the bytes of a tree with an internal root makes it the current one (R141). -/
theorem exec_deserialize_tree {s : State} (d : DesStart s) {T : Tree} {more : List Byte} (hnode : T.isNode = true)
    (hfit : T.symbolsFit = true) (hcap : T.leafIdx.length ≤ s.cfg.leafMax) (havail : s.inp.avail = T.ser ++ more) :
    exec .deserialize s = .next (s.afterTree T more) := by
  obtain ⟨nd, hnd, hkind⟩ := readTree_root d.nodes T
  rw [exec_deserialize_whole d hfit hcap havail, desDone]
  simp only [hnd, hkind, hnode, if_true]
  rfl

theorem afterTree_hasTree {s : State} (d : DesStart s) (T : Tree) (more : List Byte) :
    (s.afterTree T more).HasTree (T.renumber 0) :=
  readTree_hasTree d.nodes d.leaves T _ rfl rfl rfl

theorem afterTree_leaves {s : State} (d : DesStart s) (T : Tree) (more : List Byte) :
    (s.afterTree T more).leaves = (T.renumber 0).leafIdx := by
  simp [State.afterTree, State.readTree, d.leaves, d.nodes]

theorem afterTree_indices {s : State} (d : DesStart s) (T : Tree) (more : List Byte) :
    (T.renumber 0).indices = List.range (s.afterTree T more).nodes.length := by
  simp [State.afterTree, State.readTree, d.nodes, T.renumber_indices, List.range_eq_range']

theorem afterTree_count {s : State} (d : DesStart s) (T : Tree) (more : List Byte) :
    ∀ nd ∈ (s.afterTree T more).nodes, nd.count = 0 := by
  simpa [State.afterTree, State.readTree, d.nodes] using T.records_zero 0

/-- Settles O38: the bytes of the tree join the empty store as the tree numbered in pre-order (`exec_deserialize_tree`). -/
theorem deserializeReadsTree : Obligations.DeserializeReadsTree := by
  intro s T more h hp _ hphase hnode hfit hcap havail
  have d := desStart h hp hphase
  have hT := afterTree_hasTree d T more
  refine ⟨_, _, (s.afterTree T more).nint, T.renumber 0, ?_, ⟨rfl, hT.holds, hT.nodes, hT.leaves⟩, T.renumber_sameShape 0,
    afterTree_indices d T more, afterTree_leaves d T more, afterTree_count d T more⟩
  rw [exec_deserialize_tree d hnode hfit hcap havail, T.renumber_idx]
  rfl

/-! ### Malformed and partial input (R141, R206) -/

/-- When the available bytes lead to a byte that fails where a node is expected, `DESERIALIZE` raises its error with the bytes up
to it consumed and reads none after it (R141, R206). -/
theorem exec_deserialize_fail {s t : State} (d : DesStart s) {pre more : List Byte} {b : Byte} {fs : List Frame} {e : Err}
    (havail : s.inp.avail = pre ++ b :: more) (hpre : feed (pre ++ b :: more) [] .marker s = feed (b :: more) fs .marker t)
    (hb : desByte b fs .marker t = .fail e t) :
    exec .deserialize s =
      .next ({ s with inp := { s.inp with taken := s.inp.taken ++ (pre ++ [b]), avail := more } }.failed e.code) := by
  rw [feed_cons, hb, feedOn] at hpre
  have hfrom := feed_from (pre ++ b :: more) [] .marker s
  rw [hpre] at hfrom
  rw [d.exec_eq, havail, hpre, List.append_cons]
  exact settle_fail d e (pre ++ [b]) more t _ _ (from_of hfrom)

/-- One more marker byte than internal nodes are allowed (R85, R141). -/
theorem desByte_marker_full {s : State} (h : s.nint = s.cfg.leafMax - 1) (fs : List Frame) :
    desByte internalMarker fs .marker s = .fail .capacityExceeded s := by
  rw [desByte, desMarker, if_pos rfl, if_pos h]

/-- A marker byte, a whole left subtree, then the byte after it, read where the right subtree is expected (R141). -/
theorem feed_left {s : State} (d : DesStart s) {L : Tree} (more : List Byte) (hfit : L.symbolsFit = true)
    (hcap : L.leafIdx.length < s.cfg.leafMax) :
    ∃ fs t, feed (internalMarker :: (L.ser ++ more)) [] .marker s = feed more fs .marker t := by
  have hi := L.internals_eq
  have hc := d.cap
  rw [feed_cons, desByte, desMarker_internal [] s (by rw [d.nint]; omega), feedOn,
    feed_tree L more _ _ hfit (by simp [d.leaves]; omega) (by simp [d.nint]; omega)]
  exact ⟨_, _, rfl⟩

/-- Settles O39: markers (`feed_markers`) or a marker and a left subtree (`feed_left`) lead to a byte that fails; a whole tree that
is one leaf fails at its end. -/
theorem deserializeMalformed : Obligations.DeserializeMalformed := by
  intro s more h hp _ hphase
  have d := desStart h hp hphase
  have hc := d.cap
  refine ⟨fun n b hn h1 h2 havail => ?_, fun L b hfit hcap h1 h2 havail => ?_, fun sym hlen havail => ?_, fun havail => ?_⟩
  · obtain ⟨fs, t, -, hpre⟩ := feed_markers n (b :: more) [] s (by rw [d.nint]; omega)
    exact exec_deserialize_fail d havail hpre (desByte_illegal h1 h2 fs t)
  · obtain ⟨fs, t, hpre⟩ := feed_left d (b :: more) hfit hcap
    exact exec_deserialize_fail d (pre := internalMarker :: L.ser) havail hpre (desByte_illegal h1 h2 fs t)
  · obtain ⟨nd, hnd, hkind⟩ := readTree_root d.nodes (.leaf 0 sym)
    rw [exec_deserialize_whole d (T := .leaf 0 sym) (decide_eq_true hlen) (by simp [Tree.leafIdx]; omega) havail, desDone]
    simp only [hnd, hkind, Tree.isNode, Bool.false_eq_true, if_false]
    exact congrArg _ (d.fail_eq .insufficientAlphabet _ _ _ _)
  · obtain ⟨n, hn⟩ : ∃ n, s.cfg.leafMax = n + 1 := ⟨s.cfg.leafMax - 1, by omega⟩
    obtain ⟨fs, t, ht, hpre⟩ := feed_markers n (internalMarker :: more) [] s (by rw [d.nint]; omega)
    have hfull : t.nint = t.cfg.leafMax - 1 := by rw [ht]; simp [d.nint, hn]
    rw [hn, List.replicate_succ'] at havail ⊢
    exact exec_deserialize_fail d (by rw [havail, ← List.append_cons]; rfl) hpre (desByte_marker_full hfull fs)

/-- A proper first part of a tree's bytes leaves the deserializer expecting more (R141). -/
theorem feed_part {s : State} (d : DesStart s) {T : Tree} {part rest : List Byte} (hfit : T.symbolsFit = true)
    (hcap : T.leafIdx.length ≤ s.cfg.leafMax) (hser : T.ser = part ++ rest) (hrest : rest ≠ []) :
    ∃ fs w t, feed part [] .marker s = (.more fs w t, []) := by
  have hwhole := feed_whole d T [] hfit hcap
  rw [List.append_nil, hser, feed_append] at hwhole
  cases hpart : feed part [] .marker s with
  | mk r left =>
    rw [hpart] at hwhole
    cases r with
    | more fs w t => exact ⟨fs, w, t, by rw [feed_more_rest hpart]⟩
    | done k t => exact absurd (List.append_eq_nil_iff.mp (congrArg Prod.snd hwhole)).2 hrest
    | fail e t => cases congrArg Prod.fst hwhole

/-- Settles O40: the deserializer expects more after the part (`feed_part`), so the end-marker raises `TruncatedTree` and without it
the command waits. -/
theorem deserializeTruncatedOrWaiting : Obligations.DeserializeTruncatedOrWaiting := by
  intro s T part rest h hp _ hphase hfit hcap hser hrest havail
  have d := desStart h hp hphase
  obtain ⟨fs, w, t, hfeed⟩ := feed_part d hfit hcap hser hrest
  have hfrom := feed_from part [] .marker s
  rw [hfeed] at hfrom
  obtain ⟨nodes, leaves, nint, rfl⟩ := from_of hfrom
  rw [d.exec_eq, havail, hfeed]
  refine ⟨fun hended => ?_, fun hended => ⟨nodes, leaves, nint, fs, w, ?_⟩⟩
  · simp only [settle, hended, if_true, List.length_nil, Nat.sub_zero, List.take_length]
    exact congrArg _ (d.fail_eq .truncatedTree _ _ _ _)
  · simp [settle, hended]

/-! ### The round trip (R142) -/

/-- The state after `CLEAR` with a source connected to `IN` (R100, R244). -/
def State.reread (t : State) (i : InPort) : State := { finish (clearOperation t) with inp := i }

/-- A cleared core may run `DESERIALIZE` (R100, R141). -/
theorem reread_desStart (t : State) (i : InPort) (hwf : t.cfg.wf = true) : DesStart (t.reread i) where
  exec_eq := desRun_eq [] .marker (t.reread i)
  nodes := rfl
  leaves := rfl
  nint := rfl
  root := rfl
  tree := rfl
  codes := rfl
  cap := by
    simp only [Config.wf, Bool.and_eq_true, decide_eq_true_eq] at hwf
    exact hwf.1.2
  pt := ⟨rfl, rfl, by simp [State.reread], [], [], .nil, rfl, rfl⟩

/-- A state of a safe run holds its tree's root as an internal node (R42(b)). -/
theorem Inv.isNode {s : State} {T : Tree} (h : Inv s) (htree : s.tree = true) (hT : s.HasTree T) : T.isNode = true := by
  obtain ⟨-, -, U, hU, hnode, -⟩ := h.treeStands htree
  rwa [hT.holds.unique hU.holds (Option.some.inj (hT.root.symm.trans hU.root))]

/-- When every node carries the code of its path, the leaves' codes are the leaves' paths (R131). -/
theorem Tree.map_codeBits_leafIdx {nodes : List Node} {T : Tree} (h : ∀ e ∈ T.paths, (nodeAt nodes e.1).hasCode e.2) :
    T.leafIdx.map (codeBits nodes) = T.entries.map fun e => e.2.2 := by
  rw [← T.entries_idx, List.map_map]
  exact List.map_congr_left fun e he => (h _ (T.entries_paths e he)).codeBits_eq

/-- `ASSIGN` completes without an error only on a tree within the code width (R130). -/
theorem depth_le_of_assign {s a : State} {T : Tree} (htree : s.tree = true) (hT : s.HasTree T)
    (ha : exec .assign s = .next a) (herr : a.err = false) : T.depth ≤ 64 := by
  by_contra hd
  rw [exec_assign_overflow htree hT (by omega)] at ha
  cases ha
  cases herr

/-- `ASSIGN` on trees of the same shape and symbols: where it succeeds on one it succeeds on the other, and corresponding leaves
get equal codes (R142). -/
theorem assign_sameShape {s v a : State} {T U : Tree} (htree : s.tree = true) (hT : s.HasTree T) (hv : v.tree = true)
    (hU : v.HasTree U) (hverr : v.err = false) (hshape : T.sameShape U = true) (ha : exec .assign s = .next a)
    (herr : a.err = false) :
    ∃ b, exec .assign v = .next b ∧ b.err = false ∧ T.leafIdx.map (codeBits a.nodes) = U.leafIdx.map (codeBits b.nodes) := by
  have hd := depth_le_of_assign htree hT ha herr
  obtain ⟨hentries, hdepth⟩ := Tree.sameShape_paths hshape
  obtain ⟨nodes, hs, -, hcodes⟩ := exec_assign_done htree hT hd
  obtain ⟨nodes', hv', -, hcodes'⟩ := exec_assign_done hv hU (hdepth ▸ hd)
  obtain rfl := Host.Outcome.next.inj (hs.symm.trans ha)
  refine ⟨_, hv', hverr, ?_⟩
  calc T.leafIdx.map (codeBits nodes)
      = T.entries.map (fun e => e.2.2) := Tree.map_codeBits_leafIdx hcodes
    _ = U.entries.map (fun e => e.2.2) := by simpa [Function.comp_def] using congrArg (List.map Prod.snd) hentries
    _ = U.leafIdx.map (codeBits nodes') := (Tree.map_codeBits_leafIdx hcodes').symm

/-- Settles O42: `SERIALIZE` emits the tree's bytes, the cleared core reads them back as the tree numbered in pre-order
(`exec_deserialize_tree`), and `ASSIGN` gives both trees the same codes (`assign_sameShape`). -/
theorem codecRoundTrip : Obligations.CodecRoundTrip := by
  intro s T more ended h _ _ htree hT hroom
  obtain ⟨t, ht, hout, hcfg⟩ : ∃ t, exec .serialize s = .next t ∧ t.out.bytes = s.out.bytes ++ T.ser ∧ t.cfg = s.cfg :=
    ⟨_, (exec_serialize_eq htree hT).trans (emitBytes_open _ hroom), rfl, rfl⟩
  have d := reread_desStart t { taken := [], avail := T.ser ++ more, ended := ended } (hcfg ▸ h.params)
  have hcap : T.leafIdx.length ≤ t.cfg.leafMax := by
    rw [hcfg, hT.leaves.length_eq]
    exact h.leafCap
  have hv := afterTree_hasTree d T more
  have hshape := T.renumber_sameShape 0
  exact ⟨T.ser, t, _, _, T.renumber 0, ht, hout, rfl,
    exec_deserialize_tree d (h.isNode htree hT) (hT.holds.symbolsFit h.records) hcap rfl, rfl, rfl, rfl, rfl, hv, hshape,
    afterTree_leaves d T more, afterTree_count d T more, fun a => assign_sameShape htree hT rfl hv rfl hshape⟩

end Sys2Proof.Machine

/-! SUPPORT. The bit packer (44_bit_packer.md): `PUSH` (R160), `PUSH_LEAF` (R161), `FLUSH` (R162), the reach of the capacity check
(R163) and the stream law (R164). -/

namespace Sys2Proof.Machine

/-! ### `append` and the commands that use it (R160, R161) -/

/-- Bits beyond the capacity are refused before any change (R160). -/
theorem append_overflow {s : State} {len : Nat} (h : s.cfg.accCap < s.pend + len) (c : Code) :
    append c len s = .next (s.failed 2#4) := by
  rw [append, if_pos h, raise_eq_failed, Err.code]

/-- Bits within the capacity join the accumulator, and the emission loop runs (R160). -/
theorem append_fits {s : State} {len : Nat} (h : s.pend + len ≤ s.cfg.accCap) (c : Code) :
    append c len s = packRun (appendBits c len s) := by
  rw [append, if_neg (Nat.not_lt.mpr h)]

/-- `append` ends in an error exactly when the bits do not fit (R160, R163). -/
theorem append_err_iff {c : Code} {len : Nat} {s t : State} (herr : s.err = false) (h : append c len s = .next t) :
    t.err = true ↔ s.cfg.accCap < s.pend + len := by
  by_cases hcap : s.cfg.accCap < s.pend + len
  · cases (append_overflow hcap c).symm.trans h
    simp [hcap]
  · cases (append_fits (Nat.not_lt.mp hcap) c).symm.trans h
    simp [hcap, packLoop_err, appendBits, herr]

/-- `PUSH` of a legal length is `append` of its operands (R160). -/
theorem exec_push_eq {s : State} (h : s.regs.codelen.toNat ≤ 64) :
    exec .push s = append s.regs.codeOp s.regs.codelen.toNat s :=
  execPush_eq (Nat.not_lt.mpr h)

/-- `PUSH_LEAF` of a leaf with a code is `append` of that code (R161). -/
theorem exec_pushLeaf_eq {s : State} {k : Nat} {nd : Node} (hcodes : s.codes = true)
    (hleaf : s.leaves[s.regs.arg.toNat]? = some k) (hnode : s.nodes[k]? = some nd) :
    exec .pushLeaf s = append nd.code nd.clen s :=
  execPushLeaf_eq hcodes hleaf hnode

/-! ### `FLUSH` (R162) -/

/-- `FLUSH` of an empty accumulator writes nothing (R162). -/
theorem exec_flush_empty {s : State} (h : s.pend = 0) :
    exec .flush s = .next { s with acc := 0, pend := 0, prog := .idle } := by
  simp [exec, execFlush, flushRun, finish, h]

/-- `FLUSH` of pending bits writes them as the padded byte to an open sink (R162). -/
theorem exec_flush_pending {s : State} (hle : s.pend ≤ 7) (hpos : 0 < s.pend) (hroom : s.out.room = none) :
    exec .flush s = .next
      { s with acc := 0, pend := 0, out := { bytes := s.out.bytes ++ [paddedByte s], room := none }, prog := .idle } := by
  simp [exec, execFlush, flushRun, finish, outWrite_open _ s hroom, hroom, hpos, Nat.not_lt.mpr hle]

/-- `FLUSH` writes the pending bits, in whole bytes, with at most 7 zero bits after them (R162). -/
theorem exec_flush_bits {s : State} (hle : s.pend ≤ 7) (hroom : s.out.room = none) :
    ∃ bytes padding,
      exec .flush s = .next
        { s with acc := 0, pend := 0, out := { bytes := s.out.bytes ++ bytes, room := none }, prog := .idle } ∧
      streamBits bytes = s.pendingBits ++ List.replicate padding false ∧ padding ≤ 7 := by
  rcases Nat.eq_zero_or_pos s.pend with hzero | hpos
  · refine ⟨[], 0, ?_, by simp [State.pendingBits, hzero, bitsOf], by omega⟩
    rw [exec_flush_empty hzero, List.append_nil, ← hroom]
  · refine ⟨[paddedByte s], 8 - s.pend, exec_flush_pending hle hpos hroom, ?_, by omega⟩
    rw [streamBits_cons, streamBits_nil, List.append_nil, paddedByte_bits s hle, State.pendingBits]

/-! ### The obligations -/

/-- Settles O48: the run leaves the codes' bits on `OUT` and in the accumulator (`packs_spec`), and `FLUSH` completes the last byte
(`exec_flush_bits`); eight bits a byte, so at most 7 bits of padding leave one possible number of bytes. -/
theorem streamLaw : Obligations.StreamLaw := by
  intro codes s t hpend hacc hroom hrun
  obtain ⟨sent, hout, hsent, hlt, -⟩ := packs_spec hrun (by simp [hacc]) (by omega) hroom
  obtain ⟨last, padding, hflush, hlast, hpad⟩ := exec_flush_bits (s := t) (by omega) (by rw [hout])
  have hbits : streamBits (sent ++ last) = codes.flatten ++ List.replicate padding false := by
    rw [streamBits_append, hlast, ← List.append_assoc, hsent, State.pendingBits, hpend, bitsOf, List.nil_append]
  have hlen : 8 * (sent ++ last).length = codes.flatten.length + padding := by
    rw [← streamBits_length, hbits, List.length_append, List.length_replicate]
  exact ⟨_, sent ++ last, padding, hflush, by simp [hout], hbits, hpad, by omega, rfl, rfl⟩

/-- Settles O44: the check of the length, then `append` (`exec_push_eq`). -/
theorem push : Obligations.Push := by
  intro s
  refine ⟨fun hlen => ?_, fun hlen hcap => ?_, fun hlen hcap hacc hroom => ?_⟩
  · have hlen' : codeMax < s.regs.codelenOp := hlen
    simp [exec, execPush, hlen', raise_eq_failed, Err.code]
  · rw [exec_push_eq hlen, append_overflow hcap]
  · rw [exec_push_eq hlen]
    exact append_open _ _ s hacc hroom hcap

/-- Settles O45: the phase, then the index, then `append` of the leaf's code (`exec_pushLeaf_eq`). -/
theorem pushLeaf : Obligations.PushLeaf := by
  intro s
  refine ⟨fun hphase => exec_of_phaseOk_false hphase, fun hcodes hindex => ?_, fun k nd hcodes hleaf hnode => ?_⟩
  · have hnone : s.leaves[s.regs.argOp]? = none := List.getElem?_eq_none hindex
    simp [exec, execPushLeaf, hcodes, hnone, raise_eq_failed, Err.code]
  · rw [exec_pushLeaf_eq hcodes hleaf hnode]
    exact ⟨fun hcap => append_overflow hcap _, fun hcap hacc hroom => append_open _ _ s hacc hroom hcap⟩

/-- Settles O46: both commands are `append` of the length (`exec_push_eq`, `exec_pushLeaf_eq`), whose one error is that the bits do not
fit (`append_err_iff`). -/
theorem capacityCheckReachability : Obligations.CapacityCheckReachability := by
  intro i s t len hpend herr hlen hcmd ht
  obtain ⟨c, happend⟩ : ∃ c, exec i s = append c len s := by
    rcases hcmd with ⟨rfl, rfl⟩ | ⟨rfl, hcodes, k, nd, hleaf, hnode, rfl⟩
    · exact ⟨_, exec_push_eq hlen⟩
    · exact ⟨_, exec_pushLeaf_eq hcodes hleaf hnode⟩
  have hiff := append_err_iff herr (happend.symm.trans ht)
  refine ⟨fun hcap => by rw [hiff, hcap], fun hcap hshort => ?_, fun hcap => ?_⟩ <;>
  · rw [← Bool.not_eq_true, hiff]
    omega

/-- Settles O47: the two cases of `PEND` (`exec_flush_empty`, `exec_flush_pending`). -/
theorem flush : Obligations.Flush := fun s hle hroom =>
  ⟨exec_flush_empty, fun hpos => ⟨paddedByte s, exec_flush_pending hle hpos hroom, paddedByte_bits s hle⟩⟩

end Sys2Proof.Machine

/-! SUPPORT. The bit unpacker (45_bit_unpacker.md): `DECODE` along the bits (R180, R181), out of bits (R206), as the inverse of the
packer (R182); and the end of every command (R201, R247). -/

namespace Sys2Proof.Machine

/-! ### The bits a decoder has consumed (R41, R63) -/

theorem Consumed.refl (s : State) : Consumed s s [] := ⟨rfl, rfl, ⟨[], by simp, by simp⟩, rfl⟩

theorem Consumed.nodes {s t : State} {bits : List Bool} (h : Consumed s t bits) : t.nodes = s.nodes := by
  rw [h.frame]

theorem Consumed.bitsLeft_eq {s t : State} {bits rest : List Bool} (h : Consumed s t bits) (hs : bitsLeft s = bits ++ rest) :
    bitsLeft t = rest :=
  List.append_cancel_left (h.bits.symm.trans hs)

/-- How many bytes are still available tells which bytes were taken (R67). -/
theorem Consumed.inp_eq {s t : State} {bits : List Bool} {bytes more : List Byte} (h : Consumed s t bits)
    (havail : s.inp.avail = bytes ++ more) (hlen : t.inp.avail.length = more.length) :
    t.inp = ⟨s.inp.taken ++ bytes, more, s.inp.ended⟩ := by
  obtain ⟨used, hused, htaken⟩ := h.stream
  obtain ⟨rfl, hmore⟩ := List.append_inj' (hused.symm.trans havail) hlen
  rw [← htaken, ← hmore, ← h.ended]

/-- Fewer than 8 bits before whole bytes are the unread bits of the current byte (R41). -/
theorem avail_length_of_bitsLeft {s : State} {padding : List Bool} {more : List Byte} (hu : s.ubits ≤ 7) (hpad : padding.length < 8)
    (h : bitsLeft s = padding ++ streamBits more) : s.inp.avail.length = more.length := by
  have hlen := congrArg List.length h
  rw [bitsLeft_length, List.length_append, streamBits_length] at hlen
  omega

/-- A state with no bit left has no unread bit and no byte available (R41). -/
theorem bitsLeft_eq_nil {s : State} (h : bitsLeft s = []) : s.ubits = 0 ∧ s.inp.avail = [] := by
  have hlen := bitsLeft_length s
  rw [h, List.length_nil] at hlen
  exact ⟨by omega, List.eq_nil_of_length_eq_zero (by omega)⟩

/-! ### Down the tree (R131, R180) -/

/-- Below the first branch of a leaf's path stands a child with the rest of that path (R131). -/
theorem Tree.Holds.exists_child {nodes : List Node} {T : Tree} {k : Nat} {sym : List Byte} {b : Bool} {path : List Bool}
    (hT : T.Holds nodes) (he : (k, sym, b :: path) ∈ T.entries) :
    ∃ U : Tree, childOf nodes T.idx b = some U.idx ∧ U.Holds nodes ∧ (k, sym, path) ∈ U.entries ∧
      ∀ n p, (n, p) ∈ U.paths → (n, b :: p) ∈ T.paths := by
  cases T with
  | leaf k' sym' => simp [Tree.entries] at he
  | node k' l r =>
    obtain ⟨⟨nd, hnd, -, hleft, hright⟩, hL, hR⟩ := hT
    cases b with
    | false => exact ⟨l, by simp [childOf, hnd, hleft], hL, by simpa [Tree.entries] using he, by simp [Tree.paths]⟩
    | true => exact ⟨r, by simp [childOf, hnd, hright], hR, by simpa [Tree.entries] using he, by simp [Tree.paths]⟩

/-- A leaf below the root makes the root an internal node. -/
theorem Tree.isNode_of_entry {T : Tree} {k : Nat} {sym : List Byte} {path : List Bool} (he : (k, sym, path) ∈ T.entries)
    (hne : path ≠ []) : T.isNode = true := by
  cases T with
  | leaf k' sym' => simp [Tree.entries, hne] at he
  | node k' l r => rfl

/-! ### The decoder's loop (R180) -/

/-- One bit takes the walk from a node to its child, where the child is an internal node (R180). -/
theorem decodeLoop_child {s : State} {k : Nat} {b : Bool} {rest : List Bool} {U : Tree} (hu : s.ubits ≤ 8)
    (hb : bitsLeft s = b :: rest) (hc : childOf s.nodes k b = some U.idx) (hU : U.Holds s.nodes) (hn : U.isNode = true)
    (fuel : Nat) : ∃ t, Consumed s t [b] ∧ t.ubits ≤ 8 ∧ decodeLoop (fuel + 1) k s = decodeLoop fuel U.idx t := by
  obtain ⟨x, s1, hrefill, hbit, hcon, hle⟩ := takeBit hu hb
  cases U with
  | leaf k' sym => cases hn
  | node k' l r =>
    obtain ⟨⟨nd, hnd, hkind, -⟩, -⟩ := hU
    simp only [Tree.idx_node] at hc ⊢
    refine ⟨_, hcon, Nat.le_succ_of_le hle, ?_⟩
    rw [decodeLoop, hrefill]
    simp only [hbit, hc, hnd, hkind]

/-- A proper part of a leaf's path leads to a node of the tree, and the loop goes on from there (R180). -/
theorem walk_part {T : Tree} {k : Nat} {sym : List Byte} {walk path : List Bool} (fuel : Nat) {s : State} (hT : T.Holds s.nodes)
    (he : (k, sym, walk ++ path) ∈ T.entries) (hne : path ≠ []) (hu : s.ubits ≤ 8) (hb : bitsLeft s = walk) :
    ∃ n t, (n, walk) ∈ T.paths ∧ Consumed s t walk ∧ decodeLoop (fuel + walk.length) T.idx s = decodeLoop fuel n t := by
  induction walk generalizing T s with
  | nil => exact ⟨T.idx, s, T.idx_mem_paths, .refl s, rfl⟩
  | cons b walk ih =>
    obtain ⟨U, hc, hU, heU, hpaths⟩ := hT.exists_child he
    obtain ⟨t, hcon, hle, hloop⟩ := decodeLoop_child hu hb hc hU (U.isNode_of_entry heU (by simp [hne])) (fuel + walk.length)
    obtain ⟨n, u, hn, hcon', hloop'⟩ := ih (hcon.nodes ▸ hU) heU hle (hcon.bitsLeft_eq hb)
    exact ⟨n, u, hpaths n walk hn, hcon.trans hcon', hloop.trans hloop'⟩

/-- Out of bits the loop raises `UnexpectedEndOfInput` when the source has ended, and waits when it has not (R180, R206, R67). -/
theorem decodeLoop_outOfBits {s : State} (h : bitsLeft s = []) (fuel n : Nat) :
    decodeLoop (fuel + 1) n s =
      if s.inp.ended then .next (raise .unexpectedEndOfInput { s with ubits := 0, eos := false })
      else .next { s with prog := .decode n [] } := by
  obtain ⟨hubits, havail⟩ := bitsLeft_eq_nil h
  rw [decodeLoop, refill, inRead, if_pos hubits, havail]
  cases s.inp.ended <;> rfl

/-- The state of `DECODE` back at the root after these leaves: `EOS` = 0 and their symbols on an open `OUT` (R180). -/
def State.decoded (s : State) (leaves : List (Nat × List Byte × List Bool)) : State :=
  { s with eos := false, out := { bytes := s.out.bytes ++ entrySymbols leaves, room := none } }

/-- `DECODE` over the paths of leaves that are no sentinels stands at the root again, with turns for the bits that follow
(R180, R181). -/
theorem exec_decode_leaves {s : State} {T : Tree} {leaves : List (Nat × List Byte × List Bool)} {rest : List Bool}
    (htree : s.tree = true) (hT : s.HasTree T) (hn : T.isNode = true) (hu : s.ubits ≤ 8) (hroom : s.out.room = none)
    (hm : ∀ e ∈ leaves, e ∈ T.entries ∧ e.2.1 ≠ []) (hb : bitsLeft s = entryPaths leaves ++ rest) :
    ∃ t, Consumed (s.decoded leaves) t (entryPaths leaves) ∧ t.ubits ≤ 8 ∧ bitsLeft t = rest ∧ T.Holds t.nodes ∧
      exec .decode s = decodeLoop (1 + rest.length) T.idx t := by
  obtain ⟨t, hcon, hle, hloop⟩ :=
    walk_leaves T leaves (1 + rest.length) { s with eos := false } rest hT.holds hT.root hn hm hu hroom hb
  refine ⟨t, hcon, hle, hcon.bitsLeft_eq hb, by rw [hcon.nodes]; exact hT.holds, ?_⟩
  have hfuel : 8 * s.inp.avail.length + s.ubits + 1 = 1 + rest.length + (entryPaths leaves).length := by
    have hlen := congrArg List.length hb
    rw [bitsLeft_length, List.length_append] at hlen
    omega
  rw [← hloop, ← hfuel]
  exact execDecode_eq htree hT.root

/-- At a sentinel `DECODE` ends, the rest of its byte discarded (R180). -/
theorem atLeaf_sentinel (fuel : Nat) (s : State) : atLeaf fuel [] s = .next (finish { s with ubits := 0, eos := true }) := rfl

/-- Settles O49: the walk over the leaves (`exec_decode_leaves`), then to the sentinel (`walk_leaf`); the padding is the rest of the
current byte (`avail_length_of_bitsLeft`), so `more` is what is left. -/
theorem decodeFollowsPaths : Obligations.DecodeFollowsPaths := by
  intro s T leaves z bytes more padding htree hT hn hu hroom hm hz hsentinel hbits hpad havail
  have hb : bitsLeft s = entryPaths leaves ++ (z.2.2 ++ (padding ++ streamBits more)) := by
    rw [bitsLeft, havail, streamBits_append, ← List.append_assoc, hbits]
    simp only [List.append_assoc]
  obtain ⟨t, hcon, hle, hrest, hholds, hexec⟩ := exec_decode_leaves htree hT hn hu hroom hm hb
  obtain ⟨u, hcon', hle', hloop⟩ := walk_leaf T z (1 + (padding ++ streamBits more).length) t _ hholds hn hz hle hrest
  have hinp := (hcon.trans hcon').inp_eq havail (avail_length_of_bitsLeft hle' hpad (hcon'.bitsLeft_eq hrest))
  obtain ⟨ubyte, ubits, inp, rfl⟩ := (hcon.trans hcon').out
  obtain rfl := hinp
  refine ⟨ubyte, ?_⟩
  rw [hexec, List.length_append, Nat.add_comm z.2.2.length, ← Nat.add_assoc, hloop, hsentinel, atLeaf_sentinel]
  rfl

/-- Settles O50: the walk over the leaves (`exec_decode_leaves`), then along the part (`walk_part`) to where no bit is left
(`decodeLoop_outOfBits`). -/
theorem decodeOutOfBits : Obligations.DecodeOutOfBits := by
  intro s T leaves walk htree hT hn hu hroom hm hpart hb
  obtain ⟨⟨k, sym, _⟩, he, ⟨path, rfl⟩, hne⟩ := hpart
  obtain ⟨t, hcon, hle, hrest, hholds, hexec⟩ := exec_decode_leaves htree hT hn hu hroom hm hb
  obtain ⟨n, u, hpath, hcon', hloop⟩ := walk_part 1 hholds he (by simpa using hne) hle hrest
  have hnone : bitsLeft u = [] := hcon'.bitsLeft_eq (by simpa using hrest)
  have hexec' := (hexec.trans hloop).trans (decodeLoop_outOfBits hnone 0 n)
  obtain ⟨hubits, havail⟩ := bitsLeft_eq_nil hnone
  have hinp := (hcon.trans hcon').inp_eq (List.append_nil s.inp.avail).symm (by rw [havail])
  obtain ⟨ubyte, ubits, inp, rfl⟩ := (hcon.trans hcon').out
  obtain rfl := hinp
  obtain rfl := hubits
  refine ⟨ubyte, fun hended => ?_, fun hended => ⟨n, hpath, ?_⟩⟩
  · exact hexec'.trans (if_pos hended)
  · exact hexec'.trans (if_neg (by simp [State.decoded, hended]))

/-! ### Decode inverts encode (R182) -/

/-- In a safe run with `CODES` = 1 each leaf of a tree of the same shape and symbols has the leaf's symbol, and the leaf's code for its
path (R131, R142). -/
theorem Inv.exists_sameShape_entry {s : State} {T U : Tree} (h : Inv s) (hc : s.codes = true) (hT : s.HasTree T)
    (hshape : T.sameShape U = true) {k : Nat} (hk : k ∈ s.leaves) :
    ∃ e ∈ U.entries, e.2.1 = (nodeAt s.nodes k).sym ∧ e.2.2 = codeBits s.nodes k := by
  obtain ⟨-, -, T', hT', -, -, hcodes⟩ := h.treeStands (h.codesTree hc)
  obtain rfl := hT.holds.unique hT'.holds (Option.some.inj (hT.root.symm.trans hT'.root))
  obtain ⟨e, he, rfl⟩ := hT.exists_entry hk
  have hmem := List.mem_map_of_mem (f := fun e : Nat × List Byte × List Bool => (e.2.1, e.2.2)) he
  rw [(Tree.sameShape_paths hshape).1, List.mem_map] at hmem
  obtain ⟨f, hf, hfe⟩ := hmem
  obtain ⟨hsym, hpath⟩ := Prod.mk.inj hfe
  exact ⟨f, hf, hsym.trans (hT.holds.entries_sym e he).symm, hpath.trans (hcodes hc e he).codeBits_eq.symm⟩

/-- Settles O51: the packed bytes are the codes' bits and at most 7 zero bits (`streamLaw`), the codes are paths of the other tree's
leaves (`Inv.exists_sameShape_entry`), and `DECODE` follows them (`decodeFollowsPaths`). -/
theorem decodeInvertsEncode : Obligations.DecodeInvertsEncode := by
  intro e f g d T T' leaves z bytes more h _ hcodes hT hpend hroom hleaves hz hsentinel hpacks hflush hbytes htree hT' hshape hubits
    hroom' havail
  have hacc : e.acc = 0 := by
    have hlt := h.acc
    rw [hpend] at hlt
    omega
  obtain ⟨u, sent, padding, hu, hout, hbits, hpad, -⟩ := streamLaw _ e f hpend hacc hroom hpacks
  obtain rfl := Host.Outcome.next.inj (hu.symm.trans hflush)
  obtain rfl := List.append_cancel_left (hout.symm.trans hbytes)
  have hentry := fun k hk => h.exists_sameShape_entry hcodes hT hshape (k := k) hk
  choose! entry hmem hsym hpath using hentry
  have hnode : T'.isNode = true := Tree.sameShape_isNode hshape ▸ h.isNode (h.codesTree hcodes) hT
  have hmem' : ∀ k ∈ leaves, k ∈ e.leaves := fun k hk => (hleaves k hk).1
  have hpaths : entryPaths (leaves.map entry) = (leaves.map (codeBits e.nodes)).flatten := by
    rw [entryPaths, List.flatMap_map, ← List.flatMap_def]
    exact List.flatMap_congr fun k hk => hpath k (hmem' k hk)
  have hsyms : entrySymbols (leaves.map entry) = leaves.flatMap fun k => (nodeAt e.nodes k).sym := by
    rw [entrySymbols, List.flatMap_map]
    exact List.flatMap_congr fun k hk => hsym k (hmem' k hk)
  rw [← hsyms]
  refine decodeFollowsPaths d T' (leaves.map entry) (entry z) sent more (List.replicate padding false) htree hT' hnode
    (by omega) hroom' (fun x hx => ?_) (hmem z hz) ((hsym z hz).trans hsentinel) ?_ (by simpa using Nat.lt_succ_of_le hpad) havail
  · obtain ⟨k, hk, rfl⟩ := List.mem_map.mp hx
    obtain ⟨hkmem, hkne⟩ := hleaves k hk
    exact ⟨hmem k hkmem, hsym k hkmem ▸ hkne⟩
  · rw [hpaths, hpath z hz, hbits, State.unreadBits, hubits]
    simp [bitsOf]

/-! ### The end of every command (R181, R201, R247) -/

/-- With an open sink `append` ends (R160). -/
theorem append_idle {c : Code} {len : Nat} {s t : State} (hacc : s.acc < 2 ^ s.pend) (hroom : s.out.room = none)
    (h : append c len s = .next t) : t.prog = .idle := by
  by_cases hcap : s.cfg.accCap < s.pend + len
  · cases (append_overflow hcap c).symm.trans h
    rfl
  · obtain ⟨_, _, _, ht, -⟩ := append_open c len s hacc hroom (Nat.not_lt.mp hcap)
    cases ht.symm.trans h
    rfl

/-- With a source that has ended and an open sink a command ends in the move that begins it (R181, R201). -/
theorem exec_idle {i : Instr} {s t : State} (h : Inv s) (hp : s.prog = .start) (hended : s.inp.ended = true)
    (hroom : s.out.room = none) (ht : exec i s = .next t) : t.prog = .idle := by
  cases hphase : phaseOk i s with
  | false =>
    cases (exec_of_phaseOk_false hphase).symm.trans ht
    rfl
  | true =>
    cases i with
    | nop | clear | leafPush | build | leafRead | assign => exact exec_prog_idle (by simp) ht
    | serialize =>
      obtain ⟨-, -, T, hT, -⟩ := h.treeStands hphase
      cases ((exec_serialize_eq hphase hT).trans (emitBytes_open _ hroom)).symm.trans ht
      rfl
    | deserialize =>
      have hloop := (execDeserialize_eq (by simpa [phaseOk] using hphase)).symm.trans ht
      exact desLoop_idle _ _ _ hloop hended (Nat.lt_succ_self _)
    | push =>
      by_cases hlen : s.regs.codelen.toNat ≤ 64
      · exact append_idle h.acc hroom ((exec_push_eq hlen).symm.trans ht)
      · cases (if_pos (Nat.not_le.mp hlen)).symm.trans ht
        rfl
    | pushLeaf =>
      simp only [exec, execPushLeaf] at ht
      split at ht
      · cases ht; rfl
      split at ht
      · cases ht; rfl
      split at ht
      · cases ht
      · exact append_idle h.acc hroom ht
    | flush =>
      obtain ⟨_, _, hflush, -⟩ := exec_flush_bits (h.pendIdle (by simp [hp])) hroom
      cases hflush.symm.trans ht
      rfl
    | decode =>
      obtain ⟨r, hr, -⟩ := (h.treeStands hphase).rootInternal
      have hloop := (execDecode_eq hphase hr).symm.trans ht
      exact decodeLoop_idle _ _ hloop hended hroom (Nat.lt_succ_self _)

/-- Settles O57: every command answers a next state (`exec_inv`), and nothing makes it wait (`exec_idle`). -/
theorem everyCommandCompletes : Obligations.EveryCommandCompletes := by
  intro i s h hp herr
  obtain ⟨t, ht, -⟩ := exec_inv h hp herr
  exact ⟨t, ht, fun hended hroom => exec_idle h hp hended hroom ht⟩

end Sys2Proof.Machine

/-! SUPPORT. Acceptance and the idle core (60_exceptions.md, R200, R216): what a `CMD` write does, and what moves while `BUSY` = 0. -/

namespace Sys2Proof.Machine

/-- Settles O6: the step offers the word to `CMD` (`handle_cmd`), where R200 has its three cases; an accepted word that finds the engine
with time runs as the next step would run it (`step_start`). -/
theorem acceptance : Obligations.Acceptance := by
  intro s w rest hc he
  have hstep : step s = offerCommand w { s with events := rest } := by rw [step_event hc he, handle_cmd]
  rw [hstep]
  refine ⟨fun hb => offerCommand_busy w hb, fun hb herr hw => offerCommand_discarded hb herr hw, fun hb hok hs => ?_,
    fun hb hok hs => ?_⟩
  · exact (offerCommand_accepted (s := { s with events := rest }) hb hok).trans (if_pos hs)
  · rw [step_start (s := { s with events := rest, cur := w, prog := .start }) rfl hs]
    exact (offerCommand_accepted (s := { s with events := rest }) hb hok).trans (if_neg (by simp [hs]))

/-- No command writes a register of an idle core, so every read of it is settled (R27(d)). -/
theorem unsettled_idle {s : State} (hp : s.prog = .idle) (off : Nat) : s.unsettled off = false := by
  simp [State.unsettled, (busy_eq_false_iff s).mpr hp]

/-- Settles O8: an idle engine has no move (`coreMoves_idle`), and each move of the environment writes the one element it is about; an
idle core frees no read (`unsettled_idle`) and ends every poll. -/
theorem idleCoreHoldsState : Obligations.IdleCoreHoldsState := by
  intro s hp
  refine ⟨step_quiet (coreMoves_idle hp), fun e rest t he hreset hcmd h => ?_⟩
  have hb : ¬ State.busy { s with events := rest } = true := fun hb => (busy_eq_true_iff s).mp hb hp
  have hset : ∀ off, State.unsettled { s with events := rest } off = false := unsettled_idle hp
  rw [step_event (coreMoves_idle hp) he] at h
  cases e with
  | write off width data =>
    have hoff : off ≠ cmdOffset := fun hoff => hcmd width data (hoff ▸ rfl)
    simp only [handle, memWrite, if_neg hoff, if_neg hb] at h
    split at h <;> cases h
    exact ⟨rfl, fun hw => absurd rfl (hw _ _ _), fun _ _ _ _ => rfl, fun _ _ => rfl, fun _ => rfl, fun _ _ => rfl⟩
  | read off width =>
    simp only [handle, memRead_settled (hset off)] at h
    split at h <;> cases h
    exact ⟨rfl, fun _ => rfl, fun _ _ _ _ => rfl, fun _ _ => rfl, fun _ => rfl, fun hr _ => absurd rfl (hr _ _)⟩
  | poll =>
    rw [handle_poll, if_neg hb] at h
    cases h
    exact ⟨rfl, fun _ => rfl, fun _ _ _ _ => rfl, fun _ _ => rfl, fun _ => rfl, fun _ hpoll => absurd rfl hpoll⟩
  | deliver bytes =>
    rw [handle_deliver] at h
    split at h <;> cases h
    exact ⟨rfl, fun _ => rfl, fun hd _ _ _ => absurd rfl (hd _), fun _ _ => rfl, fun _ => rfl, fun _ _ => rfl⟩
  | endInput =>
    cases h
    exact ⟨rfl, fun _ => rfl, fun _ hend _ _ => absurd rfl hend, fun _ _ => rfl, fun _ => rfl, fun _ _ => rfl⟩
  | rewind =>
    rw [handle_rewind] at h
    split at h <;> cases h
    exact ⟨rfl, fun _ => rfl, fun _ _ hrew _ => absurd rfl hrew, fun _ _ => rfl, fun _ => rfl, fun _ _ => rfl⟩
  | connectIn =>
    rw [handle_connectIn] at h
    split at h <;> cases h
    exact ⟨rfl, fun _ => rfl, fun _ _ _ hconn => absurd rfl hconn, fun _ _ => rfl, fun _ => rfl, fun _ _ => rfl⟩
  | connectOut =>
    rw [handle_connectOut] at h
    split at h <;> cases h
    exact ⟨rfl, fun _ => rfl, fun _ _ _ _ => rfl, fun _ hconn => absurd rfl hconn, fun _ => rfl, fun _ _ => rfl⟩
  | sinkRoom n =>
    cases h
    exact ⟨rfl, fun _ => rfl, fun _ _ _ _ => rfl, fun hn _ => absurd rfl (hn _), fun _ => rfl, fun _ _ => rfl⟩
  | stall on =>
    cases h
    exact ⟨rfl, fun _ => rfl, fun _ _ _ _ => rfl, fun _ _ => rfl, fun hon => absurd rfl (hon _), fun _ _ => rfl⟩
  | reset => exact absurd rfl hreset

end Sys2Proof.Machine

/-! SUPPORT. Which errors a command raises (R202, R203, R204), and the state after an error of `DESERIALIZE` (R206). -/

namespace Sys2Proof.Machine

/-! ### The error table (R202, R204) -/

/-- The errors a command raises once its phase precondition holds (R202). -/
def ownErrors : Instr → List Err
  | .nop | .clear | .serialize | .flush => []
  | .leafPush => [.symbolTooLarge, .capacityExceeded]
  | .build => [.insufficientAlphabet]
  | .leafRead => [.indexOutOfRange]
  | .assign => [.codeOverflow]
  | .deserialize => [.truncatedTree, .symbolTooLarge, .capacityExceeded, .insufficientAlphabet]
  | .push => [.codeOverflow]
  | .pushLeaf => [.indexOutOfRange, .codeOverflow]
  | .decode => [.unexpectedEndOfInput]

/-- `SequenceError` is none of them: it is the phase precondition's own error (R203). -/
theorem sequenceError_not_own (i : Instr) : 9#4 ∉ (ownErrors i).map Err.code := by
  cases i <;> decide

/-- A command whose phase precondition holds raises its own errors only (R202, R203). -/
theorem exec_errcode {i : Instr} {s t : State} (hphase : phaseOk i s = true) (herr : s.err = false) (h : exec i s = .next t)
    (ht : t.err = true) : t.errcode ∈ (ownErrors i).map Err.code := by
  have kept : t.err = s.err → t.errcode ∈ (ownErrors i).map Err.code := fun he => by simp [he, herr] at ht
  cases i with
  | nop => cases h; exact kept rfl
  | clear => cases h; simp at ht
  | leafPush =>
    rw [exec, execLeafPush, if_neg (by simpa [phaseOk] using hphase)] at h
    split_ifs at h <;> cases h
    · exact List.mem_cons_self
    · exact List.mem_cons_of_mem _ List.mem_cons_self
    · exact kept rfl
  | build =>
    rcases execBuild_cases s with ⟨htree, -⟩ | ⟨-, -, he⟩ | ⟨-, -, u, r, -, -, ⟨more, nint, seq, q, rfl, -⟩, he⟩
    · simp [phaseOk, htree] at hphase
    · cases he.symm.trans h
      exact List.mem_cons_self
    · cases he.symm.trans h
      exact kept rfl
  | leafRead =>
    simp only [exec, execLeafRead] at h
    split at h
    · cases h; exact List.mem_cons_self
    split at h <;> cases h
    exact kept rfl
  | assign =>
    rw [exec, execAssign, if_neg (by simpa [phaseOk] using hphase)] at h
    split at h
    · cases h
    split at h <;> cases h
    · exact kept rfl
    · exact List.mem_cons_self
  | serialize =>
    rw [exec, execSerialize, if_neg (by simpa [phaseOk] using hphase)] at h
    split at h
    · cases h
    split at h
    · cases h
    exact kept (by rw [emitBytes_frame h])
  | deserialize =>
    have hrun := (execDeserialize_eq (by simpa [phaseOk] using hphase)).symm.trans h
    exact desLoop_err _ _ _ hrun herr ht
  | push =>
    simp only [exec, execPush] at h
    split at h
    · cases h; exact List.mem_cons_self
    · simp [ownErrors, Err.code, append_err h herr ht]
  | pushLeaf =>
    rw [exec, execPushLeaf, if_neg (by simpa [phaseOk] using hphase)] at h
    split at h
    · cases h; exact List.mem_cons_self
    split at h
    · cases h
    · simp [ownErrors, Err.code, append_err h herr ht]
  | flush => exact kept (by rw [flushRun_frame h])
  | decode =>
    rw [exec, execDecode, if_neg (by simpa [phaseOk] using hphase)] at h
    split at h
    · cases h
    · simp [ownErrors, Err.code, decodeLoop_err _ _ h herr ht]

/-- Settles O21: the precondition is the first check (`exec_of_phaseOk_false`), and past it `SequenceError` is no command's own error
(`exec_errcode`, `sequenceError_not_own`). -/
theorem phasePreconditions : Obligations.PhasePreconditions := fun i _ =>
  ⟨exec_of_phaseOk_false, fun hphase herr _ h ht h9 => sequenceError_not_own i (h9 ▸ exec_errcode hphase herr h ht)⟩

/-- `DECODE` going on after a wait raises `UnexpectedEndOfInput` only (R180). -/
theorem decodeResume_err {n : Nat} {outs : List Byte} {s t : State} (h : decodeResume n outs s = .next t) (herr : s.err = false)
    (ht : t.err = true) : t.errcode = 5#4 := by
  unfold decodeResume at h
  split at h <;> rename_i ho
  · exact decodeLoop_err _ n h (by rw [offer_eq ho]; exact herr) ht
  · cases h
    rw [offer_eq ho] at ht
    simp [herr] at ht

/-- Settles O22: at its start a command raises `SequenceError` (`exec_of_phaseOk_false`) or an error of its own (`exec_errcode`); after a
wait only the two loops that read `IN` raise (`desLoop_err`, `decodeResume_err`). -/
theorem errorCodes : Obligations.ErrorCodes := by
  refine ⟨fun i s t herr h ht => ?_, fun s t herr hstart h ht => ?_⟩
  · cases hphase : phaseOk i s with
    | false =>
      cases (exec_of_phaseOk_false hphase).symm.trans h
      cases i with
      | nop | clear | leafRead | push | flush => cases hphase
      | _ => exact List.mem_cons_self
    | true =>
      have hown := exec_errcode hphase herr h ht
      cases i with
      | nop | clear | leafRead | push | flush => exact hown
      | _ => exact List.mem_cons_of_mem _ hown
  · have kept : t.err ≠ s.err := by simp [herr, ht]
    unfold resume at h
    cases hp : s.prog with
    | idle => rw [hp] at h; cases h; exact absurd rfl kept
    | start => exact absurd hp hstart
    | emit rest => rw [hp] at h; exact absurd (by rw [emitBytes_frame h]) kept
    | pack => rw [hp] at h; cases h; exact absurd (packLoop_err _ s).1 kept
    | flush => rw [hp] at h; exact absurd (by rw [flushRun_frame h]) kept
    | deser frames want => rw [hp] at h; exact desLoop_err _ _ _ h herr ht
    | decode n outs => rw [hp] at h; exact List.mem_singleton.mpr (decodeResume_err h herr ht)

/-! ### The error state of `DESERIALIZE` (R206) -/

/-- The state after an error of `DESERIALIZE` (R206): no tree and nothing of one in the store, the input port as it stands. -/
def State.desFailed (s : State) (i : InPort) (code : BitVec 4) : State :=
  { s with nodes := [], nint := 0, leaves := [], root := none, tree := false, codes := false, inp := i }.failed code

/-- What was read of a tree before the error does not matter: the store is emptied (R206). -/
theorem desFail_eq {s u : State} (h : u = { s with nodes := u.nodes, leaves := u.leaves, nint := u.nint }) (e : Err) (i : InPort) :
    desFail e { u with inp := i } = s.desFailed i e.code := by
  rw [h]
  rfl

/-- When feeding the bytes ends in an error, the command stands in its error state, the bytes used consumed (R141, R206). -/
theorem settle_error {s t : State} {r : DesStep} {rest taken avail : List Byte} {ended : Bool}
    (hfrom : r.state = { s with nodes := r.state.nodes, leaves := r.state.leaves, nint := r.state.nint }) (herr : s.err = false)
    (h : settle (r, rest) taken avail ended = .next t) (ht : t.err = true) :
    t = s.desFailed ⟨taken ++ avail.take (avail.length - rest.length), rest, ended⟩ t.errcode := by
  have hok : r.state.err = false := by rw [hfrom]; exact herr
  cases r with
  | more fs w u =>
    simp only [settle] at h
    split at h <;> cases h
    · exact desFail_eq hfrom .truncatedTree _
    · exact absurd ht (Bool.eq_false_iff.mp hok)
  | done k u =>
    simp only [settle, desDone] at h
    split at h
    · cases h
    split at h <;> cases h
    · exact desFail_eq hfrom .insufficientAlphabet _
    · exact absurd ht (Bool.eq_false_iff.mp hok)
  | fail e u =>
    cases h
    exact desFail_eq hfrom e _

/-- Every error of `DESERIALIZE`'s loop leaves that state, with a first part of the bytes consumed (R141, R206). -/
theorem desRun_error {fs : List Frame} {w : Want} {s t : State} (h : desRun fs w s = .next t) (herr : s.err = false)
    (ht : t.err = true) :
    ∃ consumed rest, s.inp.avail = consumed ++ rest ∧ t = s.desFailed ⟨s.inp.taken ++ consumed, rest, s.inp.ended⟩ t.errcode ∧
      t.errcode ∈ [1#4, 3#4, 4#4, 10#4] := by
  have hcode : t.errcode ∈ [3#4, 4#4, 10#4, 1#4] := desLoop_err _ fs w h herr ht
  have hfrom := feed_from s.inp.avail fs w s
  obtain ⟨used, hused⟩ := feed_suffix s.inp.avail fs w s
  rw [desRun_eq] at h
  generalize feed s.inp.avail fs w s = r at hfrom hused h
  have htake : s.inp.avail.take (s.inp.avail.length - r.2.length) = used := by simp [hused]
  have hstate := settle_error hfrom herr h ht
  rw [htake] at hstate
  refine ⟨used, r.2, hused, hstate, ?_⟩
  simp only [List.mem_cons] at hcode ⊢
  tauto

/-- In a safe run a command that waits carries no error (R200, R205). -/
theorem Inv.err_of_waiting {s : State} (h : Inv s) (hidle : s.prog ≠ .idle) (hstart : s.prog ≠ .start) : s.err = false := by
  by_contra herr
  rcases h.errIdle (by simpa using herr) with hp | ⟨hp, -⟩
  · exact hidle hp
  · exact hstart hp

/-- Settles O41: at its start, past its precondition, and after a wait the command is `desRun`, whose errors are `desRun_error`'s. -/
theorem deserializeErrorState : Obligations.DeserializeErrorState := by
  intro s t hinv hrun h ht
  rcases hrun with ⟨hp, herr, hcur, hphase⟩ | ⟨frames, want, hp⟩
  · rw [resume_start hp, runCur_of_decode (i := .deserialize) (decode_eq_ok_iff.mpr hcur)] at h
    exact desRun_error ((execDeserialize_eq (by simpa [phaseOk] using hphase)).symm.trans h) herr ht
  · have herr := hinv.err_of_waiting (by simp [hp]) (by simp [hp])
    simp only [resume, hp] at h
    exact desRun_error h herr ht

end Sys2Proof.Machine

/-! SUPPORT. The error state (R207, R208): what can happen while `ERR` = 1. -/

namespace Sys2Proof.Machine

/-- The error stands: `ERR` and `ERRCODE` as they were, and `DROP` too unless a command runs (R200, R208). -/
structure ErrStands (s t : State) : Prop where
  err : t.err = true
  errcode : t.errcode = s.errcode
  drop : s.busy = false → t.drop = s.drop

theorem State.Cleared.err_ne {t : State} (h : t.Cleared) : t.err ≠ true := by simp [h.err]

/-- An accepted word leads out of `ERR` = 1 only when it is `CLEAR`'s, and then everything is cleared (R207). -/
theorem runCur_of_err {s t : State} (herr : s.err = true) (h : runCur s = .next t) :
    (s.cur = encode .clear ∧ t.Cleared) ∨ (s.cur ≠ encode .clear ∧ t.err = true) := by
  by_cases hcur : s.cur = encode .clear
  · rw [runCur_of_decode (decode_eq_ok_iff.mpr hcur)] at h
    cases h
    exact .inl ⟨hcur, cleared_clear s⟩
  refine .inr ⟨hcur, ?_⟩
  unfold runCur at h
  split at h
  · cases h; rfl
  · rename_i i hi
    have hclear : i ≠ .clear := by rintro rfl; exact hcur (decode_eq_ok hi)
    cases ht : t.err with
    | true => rfl
    | false => exact absurd (exec_errKept hclear h ht).1 (by simp [herr])

/-- The engine's move leads out of `ERR` = 1 only by executing an accepted `CLEAR` (R207). -/
theorem resume_of_err {s t : State} (herr : s.err = true) (h : resume s = .next t) :
    (s.prog = .start ∧ s.cur = encode .clear ∧ t.Cleared) ∨ t.err = true := by
  by_cases hstart : s.prog = .start
  · rcases runCur_of_err herr (resume_start hstart ▸ h) with ⟨hcur, hcleared⟩ | ⟨-, ht⟩
    · exact .inl ⟨hstart, hcur, hcleared⟩
    · exact .inr ht
  · cases ht : t.err with
    | true => exact .inr rfl
    | false => exact absurd (resume_err s t hstart h ht).1 (by simp [herr])

/-- While `ERR` = 1 a word offered to `CMD` is `CLEAR`'s and clears everything, or the error stands (R200, R208). -/
theorem offerCommand_of_err {s t : State} {w : Word} (herr : s.err = true) (h : offerCommand w s = .next t) :
    (w = encode .clear ∧ t.Cleared) ∨ ErrStands s t := by
  cases hb : s.busy with
  | true =>
    cases (offerCommand_busy w hb).symm.trans h
    exact .inr ⟨herr, rfl, by simp [hb]⟩
  | false =>
    by_cases hw : w = encode .clear
    · rw [offerCommand_accepted hb (.inr hw)] at h
      split at h
      · cases h
        exact .inr ⟨herr, rfl, fun _ => rfl⟩
      · rcases runCur_of_err (s := { s with cur := w, prog := .start }) herr h with ⟨-, hcleared⟩ | ⟨hne, -⟩
        · exact .inl ⟨hw, hcleared⟩
        · exact absurd hw hne
    · cases (offerCommand_discarded hb herr hw).symm.trans h
      exact .inr ⟨herr, rfl, fun _ => rfl⟩

/-- While `ERR` = 1 a move of the environment is reset or a write of `CLEAR` and clears everything, or the error stands (R207, R208). -/
theorem handle_of_err {e : Event} {s t : State} (herr : s.err = true) (h : handle e s = .next t) :
    ((e = .reset ∨ e = .write 0x10 4 (encode .clear)) ∧ t.Cleared) ∨ ErrStands s t := by
  by_cases hreset : e = .reset
  · subst hreset
    cases h
    exact .inl ⟨.inl rfl, cleared_reset s⟩
  by_cases hcmd : ∃ width data, e = .write 0x10 width data
  · obtain ⟨width, data, rfl⟩ := hcmd
    obtain ⟨rfl, hoffer⟩ := handle_cmd_any h
    rcases offerCommand_of_err herr hoffer with ⟨rfl, hcleared⟩ | hstands
    · exact .inl ⟨.inr rfl, hcleared⟩
    · exact .inr hstands
  · rw [handle_other hreset (fun width data he => hcmd ⟨width, data, he⟩) h]
    exact .inr ⟨herr, rfl, fun _ => rfl⟩

/-- Settles O23: the engine leaves the error by `CLEAR` alone (`resume_of_err`), the environment by reset or a write of `CLEAR`
(`handle_of_err`). -/
theorem onlyClearAndResetLeaveError : Obligations.OnlyClearAndResetLeaveError := by
  intro s t herr h ht
  rcases step_cases h with ⟨-, hres⟩ | ⟨-, -, rfl⟩ | ⟨-, e, rest, he, hev⟩
  · rcases resume_of_err herr hres with ⟨hp, hcur, hcleared⟩ | hstill
    · exact ⟨hcleared, .inr (.inr ⟨hp, hcur⟩)⟩
    · simp [ht] at hstill
  · simp [ht] at herr
  · rcases handle_of_err (s := { s with events := rest }) herr hev with ⟨rfl | rfl, hcleared⟩ | hstands
    · exact ⟨hcleared, .inl ⟨rest, he⟩⟩
    · exact ⟨hcleared, .inr (.inl ⟨rest, he⟩)⟩
    · exact absurd hstands.err (by simp [ht])

/-- Settles O24: in a safe run with `ERR` = 1 the engine has no move but `CLEAR`, which ends the error; under every other move the error
stands (`handle_of_err`). -/
theorem errorCodeHolds : Obligations.ErrorCodeHolds := by
  intro s t hinv herr h ht
  rcases step_cases h with ⟨hmoves, hres⟩ | ⟨-, -, rfl⟩ | ⟨-, e, rest, -, hev⟩
  · rcases hinv.errIdle herr with hidle | ⟨hstart, hcur⟩
    · simp [coreMoves_idle hidle] at hmoves
    · rcases runCur_of_err herr (resume_start hstart ▸ hres) with ⟨-, hcleared⟩ | ⟨hne, -⟩
      · exact absurd ht hcleared.err_ne
      · exact absurd hcur hne
  · exact ⟨rfl, fun _ => rfl⟩
  · rcases handle_of_err (s := { s with events := rest }) herr hev with ⟨-, hcleared⟩ | hstands
    · exact absurd ht hcleared.err_ne
    · exact ⟨hstands.errcode, hstands.drop⟩

end Sys2Proof.Machine

/-! SUPPORT. Reset (R230) and how it differs from `CLEAR` (R231). -/

namespace Sys2Proof.Machine

/-- The step that takes a reset gives the reset state of the core, with the event gone from the list (R230, logs 1, 24). -/
theorem step_reset {s : State} {rest : List Event} (hc : s.coreMoves = false) (he : s.events = .reset :: rest) :
    step s = .next (coreReset { s with events := rest }) := step_event hc he

/-- An idle core that is given time takes a written `CLEAR` and completes it in the same step (R100, R102, logs 1, 3). -/
theorem step_clear {s : State} {rest : List Event} (hp : s.prog = .idle) (hs : s.stalled = false)
    (he : s.events = .write 0x10 4 (encode .clear) :: rest) :
    step s = .next (finish (clearOperation { s with events := rest, cur := encode .clear, prog := .start })) :=
  stepRunsCommandWord s (encode .clear) .clear rest (decode_encode .clear) hp (.inr rfl) hs he

/-- An instance of any parameters in their ranges (R8, R9) meets the invariant right after reset. -/
theorem resetWith_inv {c : Config} (h : c.wf = true) : Inv (State.resetWith c) :=
  inv_of_cleared h rfl rfl rfl rfl rfl rfl rfl rfl rfl rfl rfl rfl rfl rfl

/-- Settles O19: the step takes the reset (`step_reset`), drops a word written to a busy core (`offerCommand_busy`) or completes the
`CLEAR` (`step_clear`); after reset and after `CLEAR` the status and information registers read 0 (`cleared_reads`). -/
theorem resetAndClearDiffer : Obligations.ResetAndClearDiffer := by
  intro s rest hc
  refine ⟨fun he => ?_, fun hb he => ?_, fun hb hs he => ?_⟩
  · exact ⟨_, step_reset hc he, rfl, rfl, cleared_reads _ (cleared_reset _)⟩
  · rw [step_event hc he, handle_cmd]
    exact offerCommand_busy (s := { s with events := rest }) _ hb
  · exact ⟨_, step_clear ((busy_eq_false_iff s).mp hb) hs he, rfl, rfl, cleared_reads _ (cleared_clear _)⟩

/-- Settles O17: reset clears all operation state (`cleared_reset`) and `CUR` and the operand registers with it, and keeps what is not
the core's; `State.reset` is its own reset. -/
theorem reset : Obligations.Reset := by
  refine ⟨fun s rest hc he => ?_, cleared_reset State.reset, rfl, rfl, rfl⟩
  have hcleared := cleared_reset { s with events := rest }
  have hstatus := cleared_reads _ hcleared 0x0C (by simp)
  exact ⟨_, step_reset hc he, hcleared, rfl, rfl, rfl, rfl, rfl, rfl, rfl, rfl, rfl, rfl, hstatus⟩

/-- Settles O58: the reference parameters are in their ranges, and reset leaves nothing else to check (`resetWith_inv`). -/
theorem resetMeetsInvariant : Obligations.ResetMeetsInvariant := resetWith_inv (c := Config.reference) (by decide)

end Sys2Proof.Machine
